-- ==== Sys2Proof/Word.lean ====
section
/-! DEFINITION. The words the block moves: bytes, 32-bit host words and bit strings (spec/00_scope.md section 5). -/

namespace Sys2Proof

/-- A byte: 8 bits. -/
abbrev Byte := BitVec 8

/-- A host word: 32 bits (R60). -/
abbrev Word := BitVec 32

/-- A bit string, written left to right: `false` is the digit "0", `true` the digit "1". -/
abbrev Bits := List Bool

end Sys2Proof
end

