-- ==== Sys2Proof/Syntax.lean ====
section
/-! DEFINITION. The command set: one constructor per row of spec/opcode_table.json (R93). No command has an operand (R94). -/

namespace Sys2Proof

/-- A command of the block (R93). -/
inductive Instr where
  /-- 0x00: nothing but completion (R250). -/
  | nop
  /-- 0x01: IN_SYMS to FT (R120). -/
  | freqAnalyze
  /-- 0x02: FT to TREE (R141). -/
  | treeBuild
  /-- 0x03: TREE to CT (R160). -/
  | codeDerive
  /-- 0x04: IN_SYMS and CT to PAYLOAD, PAD and PBITS (R180). -/
  | bitPack
  /-- 0x05: FT and PAYLOAD to OUT_BYTES (R201). -/
  | contSerialize
  /-- 0x06: IN_BYTES to FT and PAYLOAD (R202). -/
  | contDeserialize
  /-- 0x07: the payload length check (R204). -/
  | payloadCheck
  /-- 0x08: CT and PAYLOAD to OUT_SYMS, PAD and PBITS (R230). -/
  | bitUnpack
  /-- 0x10: IN_SYMS to OUT_BYTES in five steps (R253). -/
  | compress
  /-- 0x11: IN_BYTES to OUT_SYMS in five steps (R254). -/
  | decompress
deriving DecidableEq, Repr

end Sys2Proof
end

