-- ==== Sys2Proof/Decode.lean ====
section
/-! DEFINITION. The command decoder (R90, R91, R93, R95), total on 32-bit words, and the encoder. -/

namespace Sys2Proof

/-- Why a word selects no command (R91, R95). Either reason completes with IllegalCommand (R92). -/
inductive Reject where
  /-- w[31:8] != 0: the reserved field is not zero. -/
  | reservedBits
  /-- w[7:0] is no opcode of R93. -/
  | noOpcode
deriving DecidableEq, Repr

/-- The opcode map of R93, row by row. -/
def opcodeMap : List (Byte × Instr) :=
  [(0x00, .nop), (0x01, .freqAnalyze), (0x02, .treeBuild), (0x03, .codeDerive), (0x04, .bitPack), (0x05, .contSerialize),
   (0x06, .contDeserialize), (0x07, .payloadCheck), (0x08, .bitUnpack), (0x10, .compress), (0x11, .decompress)]

/-- The field OPC, bits[7:0] of a command word (R90). -/
def opcField (w : Word) : Byte := w.extractLsb' 0 8

/-- The field RSV, bits[31:8] of a command word (R90). -/
def rsvField (w : Word) : BitVec 24 := w.extractLsb' 8 24

/-- `decode(w)` of R91: the command an accepted word selects, or why it selects none. -/
def decode (w : Word) : Except Reject Instr :=
  if rsvField w = 0 then
    match opcodeMap.lookup (opcField w) with
    | some i => .ok i
    | none => .error .noOpcode
  else .error .reservedBits

/-- The opcode of a command (R93). It is also the STAGE a failure of that step reports (R272). -/
def opcode : Instr → Byte
  | .nop => 0x00
  | .freqAnalyze => 0x01
  | .treeBuild => 0x02
  | .codeDerive => 0x03
  | .bitPack => 0x04
  | .contSerialize => 0x05
  | .contDeserialize => 0x06
  | .payloadCheck => 0x07
  | .bitUnpack => 0x08
  | .compress => 0x10
  | .decompress => 0x11

/-- The command word of a command (R90): RSV = 0 in bits[31:8], OPC in bits[7:0]. -/
def encode (i : Instr) : Word := (0 : BitVec 24) ++ opcode i

/-- The command that the decoder reads from a table row's `nbits` bits `w` (a command is one 32-bit word; the bits above
`nbits` are 0). A value that does not fit in one word is none. -/
def decodeTableWord (nbits w : Nat) : Option Instr :=
  if w % 2 ^ nbits < 2 ^ 32 then (decode (BitVec.ofNat 32 (w % 2 ^ nbits))).toOption else none

end Sys2Proof
end

