-- ==== Sys2Proof/Config.lean ====
section
/-! DEFINITION. What an implementation of the block fixes (the five capacities of R9), the spec's own constants, and the
free values: what the spec leaves unspecified. A free value has no body, so no proof can learn what it is. -/

namespace Sys2Proof

/-- The five buffer capacities of R9. The model takes them as an argument: they stand in `State`, and no step changes them. -/
structure Caps where
  /-- IN_SYM_CAP: symbols in the input symbol buffer. -/
  inSym : Nat
  /-- IN_BYTE_CAP: bytes in the input byte buffer. -/
  inByte : Nat
  /-- OUT_BYTE_CAP: bytes in the output byte buffer. -/
  outByte : Nat
  /-- OUT_SYM_CAP: symbols in the output symbol buffer. -/
  outSym : Nat
  /-- PAYLOAD_CAP: bytes in the packed payload register. -/
  payload : Nat
deriving DecidableEq, Repr

/-- The constraint column of R9, which holds in any implementation. -/
abbrev Caps.wf (c : Caps) : Prop :=
  (1 ≤ c.inSym ∧ c.inSym ≤ 2 ^ 26) ∧ (18 ≤ c.inByte ∧ c.inByte ≤ 2 ^ 28) ∧
  (18 ≤ c.outByte ∧ c.outByte ≤ 2 ^ 28) ∧ (1 ≤ c.outSym ∧ c.outSym ≤ 2 ^ 26) ∧
  (2 ≤ c.payload ∧ c.payload ≤ 2 ^ 28)

/-- SYM_MAX (R7): the largest symbol. -/
def symMax : Nat := 0x10FFFF

/-- COUNT_MAX (R8): the largest count, and the largest sum of the counts of one frequency table. -/
def countMax : Nat := 0xFFFFFFFF

/-- The ID register's constant, "HUF1" (R35). -/
def idWord : Word := 0x48554631

/-- IN_SYM_CAP - 1: a free value of its legal range (R9, U5; assumption 1, DESIGN CHOICE). -/
opaque Config.inSymSlack : Fin 0x4000000

/-- IN_BYTE_CAP - 18: a free value of its legal range (R9, U5; assumption 1, DESIGN CHOICE). -/
opaque Config.inByteSlack : Fin 0xFFFFFEF

/-- OUT_BYTE_CAP - 18: a free value of its legal range (R9, U5; assumption 1, DESIGN CHOICE). -/
opaque Config.outByteSlack : Fin 0xFFFFFEF

/-- OUT_SYM_CAP - 1: a free value of its legal range (R9, U5; assumption 1, DESIGN CHOICE). -/
opaque Config.outSymSlack : Fin 0x4000000

/-- PAYLOAD_CAP - 2: a free value of its legal range (R9, U5; assumption 1, DESIGN CHOICE). -/
opaque Config.payloadSlack : Fin 0xFFFFFFF

/-- The capacities of the implementation at hand: any values within the bounds of R9, and nothing more is known of them. -/
def Config.caps : Caps :=
  { inSym := Config.inSymSlack.val + 1
    inByte := Config.inByteSlack.val + 18
    outByte := Config.outByteSlack.val + 18
    outSym := Config.outSymSlack.val + 1
    payload := Config.payloadSlack.val + 2 }

/-- What an input RAM byte holds that nothing has written since power-on, by its bus address (U1; assumption 2, DESIGN CHOICE). -/
opaque Config.powerOnByte : Nat → Byte

/-- What the n-th unspecified host read returns (R311, U2; assumption 3, DESIGN CHOICE). -/
opaque Config.freeRead : Nat → Word

/-- How many host accesses the block performs between the n-th draw's command acceptance and the completion (R314, U3, U4;
assumption 4, DESIGN CHOICE). -/
opaque Config.freeLatency : Nat → Nat

end Sys2Proof
end

