-- ==== Sys2Proof/Machine/Values.lean ====
section
/-! DEFINITION. The values the working registers hold (R23 to R28), as plain data. Their well-formedness is in
Sys2Proof/WellFormed.lean. A symbol and a count are natural numbers (R7, R8; assumption 11, DEDUCED). -/

namespace Sys2Proof.Machine

/-- One entry `(sym_i, cnt_i)` of a frequency table (R23). -/
structure FtEntry where
  sym : Nat
  count : Nat
deriving DecidableEq, Repr

/-- An FT value (R23): entries in ascending symbol order. -/
abbrev FreqTable := List FtEntry

/-- A node of the tree's node array (R24). -/
inductive Node where
  /-- `Leaf(sym, freq)`. -/
  | leaf (sym freq : Nat)
  /-- `Internal(freq, left, right)`: `left` and `right` are indices into the node array. -/
  | internal (freq left right : Nat)
deriving DecidableEq, Repr

/-- A TREE value (R24): the node array and the root's index. -/
structure Tree where
  nodes : List Node
  root : Nat
deriving DecidableEq, Repr

/-- A priority key of the tree builder's queue (R140): the pair `(node[j].freq, j)`. -/
structure Key where
  freq : Nat
  idx : Nat
deriving DecidableEq, Repr

/-- One entry `(sym_i, code_i)` of a code table (R25). -/
structure CodeEntry where
  sym : Nat
  code : Bits
deriving DecidableEq, Repr

/-- A CT value (R25), in FT order. Its inverse mapping INV is computed from it (`invLookup`), so it is held once. -/
abbrev CodeTable := List CodeEntry

end Sys2Proof.Machine
end

