-- ==== Sys2Proof/Machine/State.lean ====
section
/-! DEFINITION. The machine's state: every piece of state spec/10_state.md gives the block (R20), the host's side of the bus
(R60, R96), and what the model adds to draw the values the spec leaves unspecified. Plain data throughout. -/

namespace Sys2Proof.Machine

/-- The error kinds of R270. -/
inductive ErrKind where
  /-- Code 1: an input word above SYM_MAX, or an empty FT. -/
  | invalidInput
  /-- Code 2: an input symbol with no code in CT. -/
  | missingCode
  /-- Code 3: container too short, declared length too large, or header not parsable. -/
  | corruptHeader
  /-- Code 4: fewer payload bytes than the frequency table implies. -/
  | truncatedPayload
  /-- Code 5: the payload does not resolve to symbols. -/
  | decodeError
  /-- Code 6: the padded bit string is not a multiple of 8 bits (never occurs, R182). -/
  | internalInvariant
  /-- Code 7: the command word selects no command. -/
  | illegalCommand
  /-- Code 8: a working register the command reads is `none`. -/
  | notReady
  /-- Code 9: a length above a capacity. -/
  | capacityExceeded
deriving DecidableEq, Repr

/-- `raise <Kind>(info)`: what ends a primitive step (spec/00_scope.md section 5, R271). -/
structure Raise where
  kind : ErrKind
  info : Word
deriving DecidableEq, Repr

/-- A failed command's result: the raise and the opcode of the step that raised it (R272). -/
structure Failure where
  kind : ErrKind
  info : Word
  stage : Byte
deriving DecidableEq, Repr

/-- The working registers of R21. -/
inductive WorkReg where
  | ft
  | tree
  | ct
  | payload
  | outBytes
  | outSyms
deriving DecidableEq, Repr

/-- The engine phase of R22. BUSY holds the accepted command word and the composite step index. -/
inductive Phase where
  | idle
  | busy (cmd : Word) (stepIdx : Nat)
deriving DecidableEq, Repr

/-- The STATUS fields of R34 that are stored. BUSY is the phase (R22); the reserved bits read 0. -/
structure Status where
  done : Bool
  err : Bool
  errCode : BitVec 4
  stage : Byte
  busErr : Bool
  overrun : Bool
deriving DecidableEq, Repr

/-- What the host does next (R60, R96): one bus access, or WAIT, which reads STATUS until bit 0 of the value read is 0. -/
inductive HostOp where
  /-- `MemRead(addr, 4)`. -/
  | read (addr : Word)
  /-- `MemWrite(addr, 4, data)`. -/
  | write (addr data : Word)
  /-- `WAIT` of R96. -/
  | wait
deriving DecidableEq, Repr

/-- The input RAMs (R30, R31), by bus address: the bytes written since power-on, addresses strictly rising. An unlisted
address holds no written byte. -/
abbrev Memory := List Host.Cell

/-- The canonical form: addresses strictly rise. (An entry is a written byte, and an unlisted address holds none, so no entry
equals what an unlisted address reads as.) -/
abbrev Memory.wf (m : Memory) : Prop := m.Pairwise (fun x y => x.1 < y.1)

/-- The state of the machine. -/
structure State where
  /-- The capacity parameters (R9), read back through the CAP_ registers (R35). Constant. -/
  caps : Caps
  /-- The engine phase (R22). -/
  phase : Phase
  /-- CTRL.IRQ_EN (R33). The other CTRL bits read 0. -/
  irqEn : Bool
  /-- CMD (R38). -/
  cmd : Word
  /-- STATUS (R34). -/
  status : Status
  /-- ERRINFO (R36). -/
  errInfo : Word
  /-- IN_SYM_LEN (R30). -/
  inSymLen : Word
  /-- IN_BYTE_LEN (R31). -/
  inByteLen : Word
  /-- FT (R23). -/
  ft : Option FreqTable
  /-- TREE (R24). -/
  tree : Option Tree
  /-- CT (R25). -/
  ct : Option CodeTable
  /-- PAYLOAD (R26). -/
  payload : Option (List Byte)
  /-- OUT_BYTES (R27). -/
  outBytes : Option (List Byte)
  /-- OUT_SYMS (R28). -/
  outSyms : Option (List Nat)
  /-- PAD (R26, R40). -/
  pad : Byte
  /-- PBITS (R26, R40). -/
  pbits : BitVec 64
  /-- The input RAMs IN_SYMS (R30, R62) and IN_BYTES (R31, R63). -/
  mem : Memory
  /-- The model's own: how many host accesses are still performed before the running command completes (assumption 4,
  DESIGN CHOICE). -/
  latency : Nat
  /-- The model's own: how many free values have been drawn (assumptions 3 and 4, DESIGN CHOICE). -/
  draws : Nat
  /-- The host's side: the accesses it has yet to issue, first to be issued first (assumption 5, DESIGN CHOICE). -/
  bus : List HostOp
  /-- The host's side: the words its reads returned, oldest first (assumption 5, DESIGN CHOICE). -/
  reads : List Word
deriving DecidableEq, Repr

/-- Why the machine stops with a fault: never. Every command completes and reports its errors in STATUS and ERRINFO (R272), and
the bus turns ineffective accesses away with a sticky bit (R65, R310), so the type is empty. -/
inductive Fault where
deriving DecidableEq, Repr

/-- Why a command has no meaning in the model. -/
inductive Refusal where
  /-- Raised by `exec` for a command that has no meaning yet; no arm raises it. Safe: the run stops. -/
  | notModelled (mnemonic : String)
deriving DecidableEq, Repr

/-- What a meaning or a step answers. -/
abbrev Result := Host.Outcome State Fault Refusal

/-- STATUS = 0 but for BUSY, which is the phase (R300). -/
def Status.reset : Status :=
  { done := false, err := false, errCode := 0, stage := 0, busErr := false, overrun := false }

/-- Power-on reset (R300) of an implementation with the capacities `c`. -/
def State.powerOn (c : Caps) : State :=
  { caps := c, phase := .idle, irqEn := false, cmd := 0, status := Status.reset, errInfo := 0, inSymLen := 0, inByteLen := 0,
    ft := none, tree := none, ct := none, payload := none, outBytes := none, outSyms := none, pad := 0, pbits := 0, mem := [],
    latency := 0, draws := 0, bus := [], reads := [] }

/-- The machine right after power-on reset (R300). -/
def State.reset : State := State.powerOn Config.caps

end Sys2Proof.Machine
end

