-- ==== Sys2Proof/Machine/Flags.lean ====
section
/-! DEFINITION. The block's flags and the words that show them: ERRCODE, STATUS, CTRL, VALID and the interrupt output (R33, R34,
R37, R270, R276). -/

namespace Sys2Proof.Machine

/-- The code STATUS.ERRCODE reports for an error kind (R270). -/
def ErrKind.code : ErrKind → BitVec 4
  | .invalidInput => 1
  | .missingCode => 2
  | .corruptHeader => 3
  | .truncatedPayload => 4
  | .decodeError => 5
  | .internalInvariant => 6
  | .illegalCommand => 7
  | .notReady => 8
  | .capacityExceeded => 9

/-- STATUS.BUSY (R22, R34): bit 0 of STATUS is the engine phase. -/
def State.isBusy (s : State) : Bool :=
  match s.phase with
  | .idle => false
  | .busy _ _ => true

/-- The STATUS register as the host reads it (R34): BUSY 0, DONE 1, ERR 2, ERRCODE 11:8, STAGE 23:16, BUSERR 30, OVERRUN 31;
the reserved bits 7:3, 15:12 and 29:24 read 0. -/
def State.statusWord (s : State) : Word :=
  (BitVec.ofBool s.isBusy).setWidth 32 ||| (BitVec.ofBool s.status.done).setWidth 32 <<< 1 |||
  (BitVec.ofBool s.status.err).setWidth 32 <<< 2 ||| s.status.errCode.setWidth 32 <<< 8 |||
  s.status.stage.setWidth 32 <<< 16 ||| (BitVec.ofBool s.status.busErr).setWidth 32 <<< 30 |||
  (BitVec.ofBool s.status.overrun).setWidth 32 <<< 31

/-- The CTRL register as the host reads it (R33): `zext_32(IRQ_EN) << 1`. -/
def State.ctrlWord (s : State) : Word := (BitVec.ofBool s.irqEn).setWidth 32 <<< 1

/-- Whether a working register holds a value: its VALID bit (R21, R37). -/
def State.holds (s : State) : WorkReg → Bool
  | .ft => s.ft.isSome
  | .tree => s.tree.isSome
  | .ct => s.ct.isSome
  | .payload => s.payload.isSome
  | .outBytes => s.outBytes.isSome
  | .outSyms => s.outSyms.isSome

/-- The position of a working register's VALID bit (R21). -/
def WorkReg.bit : WorkReg → Nat
  | .ft => 0
  | .tree => 1
  | .ct => 2
  | .payload => 3
  | .outBytes => 4
  | .outSyms => 5

/-- A working register's contribution to a mask of VALID bits. -/
def WorkReg.mask (r : WorkReg) : Word := 1#32 <<< r.bit

/-- The OR of the VALID bits of some working registers (R274). -/
def maskOf (rs : List WorkReg) : Word := rs.foldl (fun m r => m ||| r.mask) 0

/-- The VALID register as the host reads it (R37); bits 31:6 read 0. -/
def State.validWord (s : State) : Word :=
  maskOf ([.ft, .tree, .ct, .payload, .outBytes, .outSyms].filter s.holds)

/-- The interrupt output (R276): `IRQ = STATUS.DONE and CTRL.IRQ_EN` (assumption 13, DEDUCED). -/
def State.irq (s : State) : Bool := s.status.done && s.irqEn

end Sys2Proof.Machine
end

