-- ==== Sys2Proof/Machine/Ops.lean ====
section
/-! DEFINITION. The operations the commands and the bus share: byte order, the input RAMs, writing and invalidating working
registers (R29, R273), command acceptance (R38), completion (the block's only trap entry, R272) and soft reset (R301). -/

namespace Sys2Proof.Machine

/-! Byte order: big-endian everywhere (R69). -/

/-- `be32(v)`: the 4 bytes of v, most significant first (spec/00_scope.md section 5). -/
def be32 (v : Nat) : List Byte :=
  [BitVec.ofNat 8 (v / 2 ^ 24), BitVec.ofNat 8 (v / 2 ^ 16), BitVec.ofNat 8 (v / 2 ^ 8), BitVec.ofNat 8 v]

/-- `be32val`, of a byte list of any length: its value read big-endian. -/
def beVal (bs : List Byte) : Nat := bs.foldl (fun acc b => acc * 256 + b.toNat) 0

/-! The input RAMs. -/

/-- The byte written at an address, if one was written since power-on. -/
def memGet : Memory → Nat → Option Byte
  | [], _ => none
  | (k, b) :: m, a => if k = a then some b else memGet m a

/-- Write one byte, keeping the addresses rising. -/
def memSet : Memory → Nat → Byte → Memory
  | [], a, b => [(a, b)]
  | (k, c) :: m, a, b =>
    if a < k then (a, b) :: (k, c) :: m else if a = k then (a, b) :: m else (k, c) :: memSet m a b

/-- Write bytes at successive addresses. -/
def memStore : Memory → Nat → List Byte → Memory
  | m, _, [] => m
  | m, a, b :: bs => memStore (memSet m a b) (a + 1) bs

/-- One byte of the input RAMs, by bus address. One that nothing has written since power-on is a free value of its address
(R30, R31, U1; assumption 2, DESIGN CHOICE). -/
def State.ramByte (s : State) (a : Nat) : Byte := (memGet s.mem a).getD (Config.powerOnByte a)

/-! Working registers. A write of FT invalidates TREE and CT, a write of TREE invalidates CT (R29). -/

def State.writeFt (s : State) (v : Option FreqTable) : State := { s with ft := v, tree := none, ct := none }

def State.writeTree (s : State) (v : Option Tree) : State := { s with tree := v, ct := none }

def State.writeCt (s : State) (v : Option CodeTable) : State := { s with ct := v }

/-- `X <- none`, with the registers that depend on X (R29). -/
def State.invalidate (s : State) : WorkReg → State
  | .ft => s.writeFt none
  | .tree => s.writeTree none
  | .ct => s.writeCt none
  | .payload => { s with payload := none }
  | .outBytes => { s with outBytes := none }
  | .outSyms => { s with outSyms := none }

/-- The working registers in a command's "writes" column (R93), but for those it only invalidates by R29. -/
def writesColumn : Instr → List WorkReg
  | .nop => []
  | .freqAnalyze => [.ft]
  | .treeBuild => [.tree]
  | .codeDerive => [.ct]
  | .bitPack => [.payload]
  | .contSerialize => [.outBytes]
  | .contDeserialize => [.ft, .payload]
  | .payloadCheck => []
  | .bitUnpack => [.outSyms]
  | .compress => [.ft, .tree, .ct, .payload, .outBytes]
  | .decompress => [.ft, .tree, .ct, .payload, .outSyms]

/-- Whether PAD and PBITS are in a command's "writes" column (R93). -/
def writesPad : Instr → Bool
  | .nop => false
  | .freqAnalyze => false
  | .treeBuild => false
  | .codeDerive => false
  | .bitPack => true
  | .contSerialize => false
  | .contDeserialize => false
  | .payloadCheck => false
  | .bitUnpack => true
  | .compress => true
  | .decompress => true

/-- R273: what a failed command does to the working registers, PAD and PBITS. -/
def State.discardWrites (s : State) (i : Instr) : State :=
  let t := (writesColumn i).foldl State.invalidate s
  if writesPad i then { t with pad := 0, pbits := 0 } else t

/-! Raising (R271, R274). -/

/-- `require` failing (R274): NotReady, with the VALID bits of `mask` that are 0. -/
def State.notReady (s : State) (rs : List WorkReg) : Raise := ⟨.notReady, maskOf rs &&& ~~~ s.validWord⟩

/-- Run one primitive step: its raise, if it raises, is reported with the step's opcode as the stage (R251, R272). -/
def runUnit (i : Instr) (unit : State → Except Raise State) (s : State) : Except Failure State :=
  match unit s with
  | .ok t => .ok t
  | .error r => .error ⟨r.kind, r.info, opcode i⟩

/-! Completion (R272). -/

/-- The completion event of a successful command. -/
def State.completeOk (s : State) : State :=
  { s with phase := .idle, errInfo := 0, status := { s.status with done := true, err := false, errCode := 0, stage := 0 } }

/-- The completion event of a failed command, after R273 is applied. -/
def State.completeErr (s : State) (f : Failure) : State :=
  { s with
    phase := .idle, errInfo := f.info
    status := { s.status with done := true, err := true, errCode := f.kind.code, stage := f.stage } }

/-- `complete(result)` of command `i` run in state `s`: the block's trap entry (R272, R273). -/
def State.complete (s : State) (i : Instr) : Except Failure State → State
  | .ok t => t.completeOk
  | .error f => (s.discardWrites i).completeErr f

/-- The meaning of a command whose steps gave `r`: it always completes (R272). -/
def finish (i : Instr) (s : State) (r : Except Failure State) : Result := .next (s.complete i r)

/-- IllegalCommand (R92): it changes nothing but STATUS and ERRINFO; the stage is w[7:0] and the detail word is w. -/
def State.illegalCommand (s : State) (w : Word) : State := s.completeErr ⟨.illegalCommand, w, opcField w⟩

/-! Acceptance and reset. There is no return from an error (R277): the next acceptance clears it. -/

/-- Acceptance of a command word (R38), less the draw of its latency. -/
def State.acceptWord (s : State) (w : Word) : State :=
  { s with
    cmd := w, phase := .busy w 0, errInfo := 0
    status := { s.status with done := false, err := false, errCode := 0, stage := 0 } }

/-- Acceptance of a command word in IDLE (R38). The time to its completion is a free value (R314; assumption 4, DESIGN CHOICE). -/
def State.accept (s : State) (w : Word) : State :=
  { s.acceptWord w with latency := Config.freeLatency s.draws, draws := s.draws + 1 }

/-- Soft reset (R301): the state of R300, but the input RAMs keep their contents. A running command is abandoned. The host's
side of the bus and the draw counter are not the block's, and stay (assumption 9, DESIGN CHOICE). -/
def State.softReset (s : State) : State :=
  { State.powerOn s.caps with mem := s.mem, draws := s.draws, bus := s.bus, reads := s.reads }

end Sys2Proof.Machine
end

