-- ==== Sys2Proof/Machine/Operands.lean ====
section
/-! DEFINITION. The operands of the commands (R93, R94): the input symbols IN_SYMS[0..IN_SYM_LEN), the input bytes
IN_BYTES[0..IN_BYTE_LEN), and a code table's two lookups. -/

namespace Sys2Proof.Machine

/-- The bus address of IN_SYMS[i] (R62). -/
def symAddr (i : Nat) : Nat := 0x10000000 + 4 * i

/-- The bus address of IN_BYTES[k] (R63). -/
def byteAddr (k : Nat) : Nat := 0x20000000 + k

/-- A word of the input RAMs: its four bytes, big-endian (assumption 7, DEDUCED). -/
def State.ramWord (s : State) (a : Nat) : Word :=
  BitVec.ofNat 32 (beVal [s.ramByte a, s.ramByte (a + 1), s.ramByte (a + 2), s.ramByte (a + 3)])

/-- `IN_SYMS[i]`, a 32-bit word (R30). It may be above SYM_MAX. -/
def State.inSym (s : State) (i : Nat) : Nat := (s.ramWord (symAddr i)).toNat

/-- The input symbol words `IN_SYMS[0..IN_SYM_LEN)`. -/
def State.inSyms (s : State) : List Nat := (List.range s.inSymLen.toNat).map s.inSym

/-- The input bytes `IN_BYTES[0..IN_BYTE_LEN)`. -/
def State.inBytes (s : State) : List Byte := (List.range s.inByteLen.toNat).map (fun k => s.ramByte (byteAddr k))

/-- `code(s)` (R25): the code of a symbol, if it has one. -/
def codeOf : CodeTable → Nat → Option Bits
  | [], _ => none
  | e :: ct, x => if e.sym = x then some e.code else codeOf ct x

/-- `INV` (R25): the symbol of a code, if the bit string is one. -/
def invLookup : CodeTable → Bits → Option Nat
  | [], _ => none
  | e :: ct, b => if e.code = b then some e.sym else invLookup ct b

end Sys2Proof.Machine
end

