-- ==== Sys2Proof/Machine/BitPacker.lean ====
section
/-! DEFINITION. BIT_PACK (spec/43_bit_packer.md). -/

namespace Sys2Proof.Machine

/-- The digits of a byte, most significant first: `bits8` (spec/00_scope.md section 5). -/
def bits8 (b : Byte) : Bits :=
  [b.getLsbD 7, b.getLsbD 6, b.getLsbD 5, b.getLsbD 4, b.getLsbD 3, b.getLsbD 2, b.getLsbD 1, b.getLsbD 0]

/-- A bit string read as a binary number, its first digit most significant. -/
def bitsVal (bs : Bits) : Nat := bs.foldl (fun acc b => acc * 2 + b.toNat) 0

/-- `tobytes` (R182): consecutive 8-digit groups, each read most significant digit first. -/
def toBytes : Bits → List Byte
  | b7 :: b6 :: b5 :: b4 :: b3 :: b2 :: b1 :: b0 :: rest =>
    BitVec.ofNat 8 (bitsVal [b7, b6, b5, b4, b3, b2, b1, b0]) :: toBytes rest
  | _ => []

/-- `padcount(L)` (R181). -/
def padCount (len : Nat) : Nat := (8 - len % 8) % 8

/-- The encoded payload of a symbol sequence whose every symbol has a code (R180). -/
def encodeSyms (ct : CodeTable) (xs : List Nat) : Bits := xs.flatMap (fun x => (codeOf ct x).getD [])

/-- The PaddedBitStream of a payload (R180): its padding count in 8 digits, the payload, and the padding. -/
def paddedStream (payload : Bits) : Bits :=
  bits8 (BitVec.ofNat 8 (padCount payload.length)) ++ payload ++ List.replicate (padCount payload.length) false

/-- The packed byte buffer of a payload (R180, R182). -/
def packBits (payload : Bits) : List Byte := toBytes (paddedStream payload)

/-- The bit packer's step (R180), its checks in the order the rule lists them. -/
def bitPack (s : State) : Except Raise State :=
  match s.ct with
  | none => .error (s.notReady [.ct])
  | some ct =>
    if s.caps.inSym < s.inSymLen.toNat then .error ⟨.capacityExceeded, 1⟩
    else
      match s.inSyms.findIdx? (fun x => (codeOf ct x).isNone) with
      | some i => .error ⟨.missingCode, BitVec.ofNat 32 i⟩
      | none =>
        let payload := encodeSyms ct s.inSyms
        if (paddedStream payload).length % 8 ≠ 0 then .error ⟨.internalInvariant, 0⟩
        else if s.caps.payload < (packBits payload).length then .error ⟨.capacityExceeded, 5⟩
        else
          .ok { s with
            payload := some (packBits payload)
            pad := BitVec.ofNat 8 (padCount payload.length)
            pbits := BitVec.ofNat 64 payload.length }

/-- BIT_PACK (R180). -/
def execBitPack (s : State) : Result := finish .bitPack s (runUnit .bitPack bitPack s)

end Sys2Proof.Machine
end

