-- ==== Sys2Proof/Machine/Bus.lean ====
section
/-! DEFINITION. The host bus (spec/20_memory.md, spec/10_state.md rules R32 to R40, spec/70_reset_and_hazards.md rules R310 and
R311): the register map, the data windows, host reads and host writes. -/

namespace Sys2Proof.Machine

/-- The ranges of the address map (R61). -/
inductive Region where
  | regs
  | inSyms
  | inBytes
  | outBytes
  | outSyms
  | payload
  | ft
  | tree
  | ct
  | reserved
deriving DecidableEq, Repr

/-- The range an address lies in (R61): each window is 2^28 bytes. -/
def regionOf (a : Word) : Region :=
  match a.toNat / 2 ^ 28 with
  | 0 => .regs
  | 1 => .inSyms
  | 2 => .inBytes
  | 3 => .outBytes
  | 4 => .outSyms
  | 5 => .payload
  | 6 => .ft
  | 7 => .tree
  | 8 => .ct
  | _ => .reserved

/-- An address's byte offset in its range. -/
def windowOffset (a : Word) : Nat := a.toNat % 2 ^ 28

/-- The host registers (R32). -/
inductive HostReg where
  | id
  | ctrl
  | cmd
  | status
  | errInfo
  | valid
  | inSymLen
  | inByteLen
  | outByteLen
  | outSymLen
  | payloadLen
  | ftN
  | treeNodes
  | treeRoot
  | pad
  | pbitsLo
  | pbitsHi
  | capInSym
  | capInByte
  | capOutByte
  | capOutSym
  | capPayload
  | symMax
deriving DecidableEq, Repr

/-- The register map of R32, row by row. -/
def registerMap : List (Nat × HostReg) :=
  [(0x00, .id), (0x04, .ctrl), (0x08, .cmd), (0x0C, .status), (0x10, .errInfo), (0x14, .valid), (0x18, .inSymLen),
   (0x1C, .inByteLen)] ++
  [(0x20, .outByteLen), (0x24, .outSymLen), (0x28, .payloadLen), (0x2C, .ftN), (0x30, .treeNodes), (0x34, .treeRoot),
   (0x38, .pad), (0x3C, .pbitsLo)] ++
  [(0x40, .pbitsHi), (0x44, .capInSym), (0x48, .capInByte), (0x4C, .capOutByte), (0x50, .capOutSym), (0x54, .capPayload),
   (0x58, .symMax)]

/-- The register at an offset of the register range, if it is not reserved (R32). -/
def regAt (off : Nat) : Option HostReg := registerMap.lookup off

/-- "RW" in R32's access column. -/
def HostReg.writable : HostReg → Bool
  | .ctrl => true
  | .cmd => true
  | .inSymLen => true
  | .inByteLen => true
  | .id => false
  | .status => false
  | .errInfo => false
  | .valid => false
  | .outByteLen => false
  | .outSymLen => false
  | .payloadLen => false
  | .ftN => false
  | .treeNodes => false
  | .treeRoot => false
  | .pad => false
  | .pbitsLo => false
  | .pbitsHi => false
  | .capInSym => false
  | .capInByte => false
  | .capOutByte => false
  | .capOutSym => false
  | .capPayload => false
  | .symMax => false

/-- The registers whose value is unspecified while the engine is BUSY (R311). -/
def HostReg.hiddenWhileBusy : HostReg → Bool
  | .errInfo => true
  | .valid => true
  | .outByteLen => true
  | .outSymLen => true
  | .payloadLen => true
  | .ftN => true
  | .treeNodes => true
  | .treeRoot => true
  | .pad => true
  | .pbitsLo => true
  | .pbitsHi => true
  | .id => false
  | .ctrl => false
  | .cmd => false
  | .status => false
  | .inSymLen => false
  | .inByteLen => false
  | .capInSym => false
  | .capInByte => false
  | .capOutByte => false
  | .capOutSym => false
  | .capPayload => false
  | .symMax => false

/-- The windows whose words are unspecified while the engine is BUSY (R311). -/
def Region.hiddenWhileBusy : Region → Bool
  | .outBytes => true
  | .outSyms => true
  | .payload => true
  | .ft => true
  | .tree => true
  | .ct => true
  | .regs => false
  | .inSyms => false
  | .inBytes => false
  | .reserved => false

/-- The value of a host register (R32 to R40). A length register reads 0 when its working register is `none` (R39). -/
def State.readReg (s : State) : HostReg → Word
  | .id => idWord
  | .ctrl => s.ctrlWord
  | .cmd => s.cmd
  | .status => s.statusWord
  | .errInfo => s.errInfo
  | .valid => s.validWord
  | .inSymLen => s.inSymLen
  | .inByteLen => s.inByteLen
  | .outByteLen => BitVec.ofNat 32 (s.outBytes.getD []).length
  | .outSymLen => BitVec.ofNat 32 (s.outSyms.getD []).length
  | .payloadLen => BitVec.ofNat 32 (s.payload.getD []).length
  | .ftN => BitVec.ofNat 32 (s.ft.getD []).length
  | .treeNodes => BitVec.ofNat 32 ((s.tree.map fun t => t.nodes.length).getD 0)
  | .treeRoot => BitVec.ofNat 32 ((s.tree.map fun t => t.root).getD 0)
  | .pad => s.pad.setWidth 32
  | .pbitsLo => s.pbits.extractLsb' 0 32
  | .pbitsHi => s.pbits.extractLsb' 32 32
  | .capInSym => BitVec.ofNat 32 s.caps.inSym
  | .capInByte => BitVec.ofNat 32 s.caps.inByte
  | .capOutByte => BitVec.ofNat 32 s.caps.outByte
  | .capOutSym => BitVec.ofNat 32 s.caps.outSym
  | .capPayload => BitVec.ofNat 32 s.caps.payload
  | .symMax => BitVec.ofNat 32 Sys2Proof.symMax

/-- Word i of the IN_SYMS window (R62): 0 at or beyond IN_SYM_CAP. -/
def State.inSymsWord (s : State) (i : Nat) : Word := if i < s.caps.inSym then s.ramWord (symAddr i) else 0

/-- A byte of the IN_BYTES window (R63): 0 at or beyond IN_BYTE_CAP. -/
def State.inBytesByte (s : State) (k : Nat) : Byte := if k < s.caps.inByte then s.ramByte (byteAddr k) else 0

/-- Word k of the IN_BYTES window (R63): bytes 4k to 4k + 3, big-endian. -/
def State.inBytesWord (s : State) (k : Nat) : Word :=
  BitVec.ofNat 32 (beVal [s.inBytesByte (4 * k), s.inBytesByte (4 * k + 1), s.inBytesByte (4 * k + 2), s.inBytesByte (4 * k + 3)])

/-- Word k of a read-only byte window (R64): a byte beyond the list reads 0. -/
def byteListWord (bs : List Byte) (k : Nat) : Word :=
  BitVec.ofNat 32 (beVal [bs.getD (4 * k) 0, bs.getD (4 * k + 1) 0, bs.getD (4 * k + 2) 0, bs.getD (4 * k + 3) 0])

/-- Word j (0 or 1) of an FT entry (R66). -/
def FtEntry.word (e : FtEntry) (j : Nat) : Word := BitVec.ofNat 32 (if j = 0 then e.sym else e.count)

/-- Word j (0 to 3) of a tree node (R67). Bit 31 of word 0 is the leaf flag. -/
def Node.word (n : Node) (j : Nat) : Word :=
  match n, j with
  | .leaf x _, 0 => 0x80000000#32 ||| BitVec.ofNat 32 x
  | .leaf _ f, 1 => BitVec.ofNat 32 f
  | .leaf _ _, _ => 0xFFFFFFFF#32
  | .internal _ _ _, 0 => 0
  | .internal f _ _, 1 => BitVec.ofNat 32 f
  | .internal _ l _, 2 => BitVec.ofNat 32 l
  | .internal _ _ r, _ => BitVec.ofNat 32 r

/-- Word j (0 to 3) of a code table entry (R68): the symbol, the code's length, and the code as a 64-bit number. -/
def CodeEntry.word (e : CodeEntry) (j : Nat) : Word :=
  match j with
  | 0 => BitVec.ofNat 32 e.sym
  | 1 => BitVec.ofNat 32 e.code.length
  | 2 => BitVec.ofNat 32 (bitsVal e.code / 2 ^ 32)
  | _ => BitVec.ofNat 32 (bitsVal e.code)

/-- The word at an aligned address, as R32, R35 to R40, R62 to R68 and R65 give it when the engine is IDLE. -/
def State.busValue (s : State) (a : Word) : Word :=
  let w := windowOffset a / 4
  match regionOf a with
  | .regs => ((regAt (windowOffset a)).map s.readReg).getD 0
  | .inSyms => s.inSymsWord w
  | .inBytes => s.inBytesWord w
  | .outBytes => byteListWord (s.outBytes.getD []) w
  | .outSyms => BitVec.ofNat 32 ((s.outSyms.getD []).getD w 0)
  | .payload => byteListWord (s.payload.getD []) w
  | .ft => (((s.ft.getD [])[w / 2]?).map fun e => e.word (w % 2)).getD 0
  | .tree => (((s.tree.map fun t => t.nodes).getD [])[w / 4]?.map fun n => n.word (w % 4)).getD 0
  | .ct => (((s.ct.getD [])[w / 4]?).map fun e => e.word (w % 4)).getD 0
  | .reserved => 0

/-- Whether an address lies in what R311 leaves unspecified while the engine is BUSY. -/
def hiddenWhileBusy (a : Word) : Bool :=
  (regionOf a).hiddenWhileBusy || (regionOf a == .regs && (regAt (windowOffset a)).any HostReg.hiddenWhileBusy)

/-- R60: every access is an aligned 32-bit word. -/
def aligned (a : Word) : Bool := a.toNat % 4 == 0

/-- STATUS.BUSERR <- 1. -/
def State.setBusErr (s : State) : State := { s with status := { s.status with busErr := true } }

/-- STATUS.OVERRUN <- 1. -/
def State.setOverrun (s : State) : State := { s with status := { s.status with overrun := true } }

/-- The host's read returns a word. -/
def State.answer (s : State) (v : Word) : State := { s with reads := s.reads ++ [v] }

/-- `MemRead(a, 4)` (R65, R311): a misaligned read returns 0 and sets BUSERR; a read that R311 leaves unspecified draws a free
value; every other read returns the word of its address and changes nothing (assumption 12, DEDUCED). -/
def State.busRead (s : State) (a : Word) : State :=
  if aligned a then
    if s.isBusy && hiddenWhileBusy a then { s.answer (Config.freeRead s.draws) with draws := s.draws + 1 }
    else s.answer (s.busValue a)
  else s.setBusErr.answer 0

/-- Whether R65 lets a write have an effect: aligned, and to a writable register or to an input RAM word in range. -/
def State.writeEffective (s : State) (a : Word) : Bool :=
  aligned a &&
  match regionOf a with
  | .regs => (regAt (windowOffset a)).any HostReg.writable
  | .inSyms => decide (windowOffset a / 4 < s.caps.inSym)
  | .inBytes => decide (windowOffset a < s.caps.inByte)
  | .outBytes => false
  | .outSyms => false
  | .payload => false
  | .ft => false
  | .tree => false
  | .ct => false
  | .reserved => false

/-- A write to CTRL (R33). -/
def State.writeCtrl (s : State) (v : Word) : State :=
  if v.getLsbD 0 then s.softReset
  else
    { s with
      irqEn := v.getLsbD 1
      status := { s.status with
        done := s.status.done && !v.getLsbD 2
        busErr := s.status.busErr && !v.getLsbD 3
        overrun := s.status.overrun && !v.getLsbD 3 } }

/-- An effective write to the input RAMs (R62, R63): the bytes of the word, those at or beyond IN_BYTE_CAP left out
(assumption 16, DEDUCED). -/
def State.writeRam (s : State) (a v : Word) : State :=
  let room := if regionOf a = .inBytes then s.caps.inByte - windowOffset a else 4
  { s with mem := memStore s.mem a.toNat ((be32 v.toNat).take room) }

/-- An effective write in IDLE to anything but CTRL: CMD (R38), a length register (R30, R31) or the input RAMs. -/
def State.writeIdle (s : State) (a v : Word) : State :=
  match regionOf a with
  | .regs =>
    match regAt (windowOffset a) with
    | some .cmd => s.accept v
    | some .inSymLen => { s with inSymLen := v }
    | some .inByteLen => { s with inByteLen := v }
    | _ => s
  | _ => s.writeRam a v

/-- Whether an address is CTRL's. -/
def isCtrl (a : Word) : Bool := regionOf a == .regs && regAt (windowOffset a) == some .ctrl

/-- `MemWrite(a, 4, v)`: what R65 makes ineffective sets BUSERR; CTRL is written in either phase (R33); while BUSY every other
write is refused and sets OVERRUN (R310). -/
def State.busWrite (s : State) (a v : Word) : State :=
  if s.writeEffective a then
    if isCtrl a then s.writeCtrl v
    else if s.isBusy then s.setOverrun
    else s.writeIdle a v
  else s.setBusErr

/-- The address of STATUS (R32). -/
def statusAddr : Word := 0x0000000C

/-- One turn of the host (R60): its first queued access. WAIT (R96) reads STATUS, and stays queued while bit 0 of the value is
1. A host with nothing queued does nothing. -/
def State.hostStep (s : State) : State :=
  match s.bus with
  | [] => s
  | .read a :: rest => { s with bus := rest }.busRead a
  | .write a v :: rest => { s with bus := rest }.busWrite a v
  | .wait :: rest => if s.isBusy then s.busRead statusAddr else { s with bus := rest }.busRead statusAddr

/-- Whether the engine moves next: it is BUSY, and the free number of host accesses before its completion has passed, or the
host has none to issue (R70, R314; assumption 4, DESIGN CHOICE). -/
def State.engineTurn (s : State) : Bool := s.isBusy && (s.latency == 0 || s.bus.isEmpty)

/-- One host access passed. -/
def State.tick (s : State) : State := { s with latency := s.latency - 1 }

end Sys2Proof.Machine
end

