-- ==== Sys2Proof/Machine/BitUnpacker.lean ====
section
/-! DEFINITION. BIT_UNPACK (spec/45_bit_unpacker.md). -/

namespace Sys2Proof.Machine

/-- `padok(p, R)` (R231). -/
def padOk (p r : Nat) : Bool := (decide (p ≤ 7) && decide (p ≤ r)) || (p == 8 && r == 8)

/-- The bits of a byte list: each byte gives 8, most significant first (R230). -/
def unpackBits (bs : List Byte) : Bits := bs.flatMap bits8

/-- The scan of R230: `acc` is the accumulator, `out` what has been emitted. A capacity failure is raised at the emission; a
non-empty accumulator at the end is DecodeError(3). -/
def scanBits (ct : CodeTable) (cap : Nat) : Bits → List Nat → Bits → Except Raise (List Nat)
  | acc, out, [] => if acc = [] then .ok out else .error ⟨.decodeError, 3⟩
  | acc, out, b :: bs =>
    match invLookup ct (acc ++ [b]) with
    | some x => if out.length = cap then .error ⟨.capacityExceeded, 4⟩ else scanBits ct cap [] (out ++ [x]) bs
    | none => scanBits ct cap (acc ++ [b]) out bs

/-- The payload bits of a packed buffer with padding count `p` after its first byte (R230): the last p are dropped. -/
def payloadBits (p : Nat) (rest : List Byte) : Bits := (unpackBits rest).take (8 * rest.length - p)

/-- The bit unpacker's step (R230), its checks in the order of the rule's pseudocode. -/
def bitUnpack (s : State) : Except Raise State :=
  match s.ct, s.payload with
  | some ct, some pl =>
    match pl with
    | [] => .error ⟨.decodeError, 1⟩
    | b :: rest =>
      if padOk b.toNat (8 * rest.length) then
        match scanBits ct s.caps.outSym [] [] (payloadBits b.toNat rest) with
        | .error r => .error r
        | .ok out =>
          .ok { s with
            outSyms := some out
            pad := b
            pbits := BitVec.ofNat 64 (8 * rest.length - b.toNat) }
      else .error ⟨.decodeError, 2 ||| b.setWidth 32 <<< 8⟩
  | _, _ => .error (s.notReady [.ct, .payload])

/-- BIT_UNPACK (R230). -/
def execBitUnpack (s : State) : Result := finish .bitUnpack s (runUnit .bitUnpack bitUnpack s)

end Sys2Proof.Machine
end

