-- ==== Sys2Proof/Machine/CodeDeriver.lean ====
section
/-! DEFINITION. CODE_DERIVE (spec/42_code_table_deriver.md). -/

namespace Sys2Proof.Machine

/-- The branch labels on the path from node `k` down to node `i`, if there is one (R161): "0" for a step to a left child, "1"
for a step to a right child. A path visits at most `fuel` internal nodes. -/
def pathFrom (nodes : List Node) : Nat → Nat → Nat → Option Bits
  | 0, k, i => if k = i then some [] else none
  | fuel + 1, k, i =>
    if k = i then some []
    else
      match nodes[k]? with
      | some (.internal _ l r) =>
        match pathFrom nodes fuel l i with
        | some p => some (false :: p)
        | none => (pathFrom nodes fuel r i).map (true :: ·)
      | _ => none

/-- `path(i)` (R161): the code of node i, from the root. -/
def pathTo (t : Tree) (i : Nat) : Bits := (pathFrom t.nodes t.nodes.length t.root i).getD []

/-- The code table of a tree (R160): every leaf's symbol with its path, in FT order, which is the order of the leaves' indices.
A tree that is a single leaf gives its symbol the code "0". -/
def deriveCodes (t : Tree) : CodeTable :=
  match t.nodes[t.root]? with
  | some (.leaf x _) => [⟨x, [false]⟩]
  | _ =>
    t.nodes.zipIdx.filterMap fun n =>
      match n.1 with
      | .leaf x _ => some ⟨x, pathTo t n.2⟩
      | .internal _ _ _ => none

/-- The code table deriver's step (R160). -/
def codeDerive (s : State) : Except Raise State :=
  match s.tree with
  | none => .error (s.notReady [.tree])
  | some t => .ok (s.writeCt (some (deriveCodes t)))

/-- CODE_DERIVE (R160). -/
def execCodeDerive (s : State) : Result := finish .codeDerive s (runUnit .codeDerive codeDerive s)

end Sys2Proof.Machine
end

