-- ==== Sys2Proof/Machine/ContainerCodec.lean ====
section
/-! DEFINITION. CONT_SERIALIZE, CONT_DESERIALIZE and PAYLOAD_CHECK (spec/44_container_codec.md). -/

namespace Sys2Proof.Machine

/-- `header(FT)` (R200): the entry count, then each symbol and count, every field 4 bytes big-endian. -/
def headerBytes (ft : FreqTable) : List Byte := be32 ft.length ++ ft.flatMap (fun e => be32 e.sym ++ be32 e.count)

/-- `container(FT, PAYLOAD)` (R200). -/
def containerBytes (ft : FreqTable) (pl : List Byte) : List Byte :=
  be32 (headerBytes ft).length ++ headerBytes ft ++ pl

/-- The container codec's writing step (R201). -/
def contSerialize (s : State) : Except Raise State :=
  match s.ft, s.payload with
  | some ft, some pl =>
    if s.caps.outByte < (containerBytes ft pl).length then .error ⟨.capacityExceeded, 3⟩
    else .ok { s with outBytes := some (containerBytes ft pl) }
  | _, _ => .error (s.notReady [.ft, .payload])

/-- CONT_SERIALIZE (R201). -/
def execContSerialize (s : State) : Result := finish .contSerialize s (runUnit .contSerialize contSerialize s)

/-- CorruptHeader with detail `subcode | (i << 8)` (R203, R270). -/
def corruptHeader (subcode i : Nat) : Raise := ⟨.corruptHeader, BitVec.ofNat 32 subcode ||| BitVec.ofNat 32 i <<< 8⟩

/-- The entry loop of `parse` (R203) from entry i on: `prev` is the symbol before it, 8 bytes an entry. -/
def parseEntries (i : Nat) (prev : Option Nat) : List Byte → Except Raise FreqTable
  | a0 :: a1 :: a2 :: a3 :: c0 :: c1 :: c2 :: c3 :: rest =>
    let x := beVal [a0, a1, a2, a3]
    let c := beVal [c0, c1, c2, c3]
    if symMax < x then .error (corruptHeader 4 i)
    else if prev.any (fun p => decide (x ≤ p)) then .error (corruptHeader 5 i)
    else if c = 0 then .error (corruptHeader 6 i)
    else
      match parseEntries (i + 1) (some x) rest with
      | .ok ft => .ok (⟨x, c⟩ :: ft)
      | .error r => .error r
  | _ => .ok []

/-- `parse(H)` (R203). -/
def parseHeader (h : List Byte) : Except Raise FreqTable :=
  if h.length < 4 then .error (corruptHeader 3 0)
  else if h.length ≠ 4 + 8 * beVal (h.take 4) then .error (corruptHeader 3 0)
  else
    match parseEntries 0 none (h.drop 4) with
    | .error r => .error r
    | .ok ft => if countMax < (ft.map FtEntry.count).sum then .error (corruptHeader 7 0) else .ok ft

/-- Reading a container of `bytes` into a frequency table and a payload of at most `cap` bytes (R202). -/
def readContainer (cap : Nat) (bytes : List Byte) : Except Raise (FreqTable × List Byte) :=
  if bytes.length < 4 then .error (corruptHeader 1 0)
  else if bytes.length - 4 < beVal (bytes.take 4) then .error (corruptHeader 2 0)
  else
    match parseHeader ((bytes.drop 4).take (beVal (bytes.take 4))) with
    | .error r => .error r
    | .ok ft =>
      if cap < (bytes.drop (4 + beVal (bytes.take 4))).length then .error ⟨.capacityExceeded, 5⟩
      else .ok (ft, bytes.drop (4 + beVal (bytes.take 4)))

/-- The container codec's reading step (R202). PAD and PBITS are not written. -/
def contDeserialize (s : State) : Except Raise State :=
  if s.caps.inByte < s.inByteLen.toNat then .error ⟨.capacityExceeded, 2⟩
  else
    match readContainer s.caps.payload s.inBytes with
    | .error r => .error r
    | .ok (ft, pl) => .ok { s.writeFt (some ft) with payload := some pl }

/-- CONT_DESERIALIZE (R202). -/
def execContDeserialize (s : State) : Result :=
  finish .contDeserialize s (runUnit .contDeserialize contDeserialize s)

/-- The payload length in bits that a frequency table implies (R204): each symbol's count times its code's length. -/
def impliedBits (ft : FreqTable) (ct : CodeTable) : Nat :=
  (ft.map (fun e => e.count * ((codeOf ct e.sym).getD []).length)).sum

/-- The least payload length in bytes that a frequency table implies (R204): `ceil((8 + Lx) / 8)`. -/
def expectedBytes (ft : FreqTable) (ct : CodeTable) : Nat := (8 + impliedBits ft ct + 7) / 8

/-- The payload length check's step (R204). It writes no register. -/
def payloadCheck (s : State) : Except Raise State :=
  match s.ft, s.ct, s.payload with
  | some ft, some ct, some pl =>
    if pl.length < expectedBytes ft ct then .error ⟨.truncatedPayload, BitVec.ofNat 32 (expectedBytes ft ct)⟩ else .ok s
  | _, _, _ => .error (s.notReady [.ft, .ct, .payload])

/-- PAYLOAD_CHECK (R204). -/
def execPayloadCheck (s : State) : Result := finish .payloadCheck s (runUnit .payloadCheck payloadCheck s)

end Sys2Proof.Machine
end

