-- ==== Sys2Proof/Machine/FrequencyAnalyzer.lean ====
section
/-! DEFINITION. FREQ_ANALYZE (spec/40_frequency_analyzer.md). -/

namespace Sys2Proof.Machine

/-- Count one more occurrence of a symbol in a table kept in ascending symbol order. -/
def countSym : FreqTable → Nat → FreqTable
  | [], x => [⟨x, 1⟩]
  | e :: ft, x =>
    if x < e.sym then ⟨x, 1⟩ :: e :: ft
    else if x = e.sym then ⟨x, e.count + 1⟩ :: ft
    else e :: countSym ft x

/-- The frequency table of a symbol sequence (R120): every symbol that occurs, with its number of occurrences, in ascending
order. -/
def freqTable (xs : List Nat) : FreqTable := xs.foldl countSym []

/-- The frequency analyzer's step (R120). -/
def freqAnalyze (s : State) : Except Raise State :=
  if s.caps.inSym < s.inSymLen.toNat then .error ⟨.capacityExceeded, 1⟩
  else
    match s.inSyms.findIdx? (fun x => decide (symMax < x)) with
    | some i => .error ⟨.invalidInput, BitVec.ofNat 32 i⟩
    | none => .ok (s.writeFt (some (freqTable s.inSyms)))

/-- FREQ_ANALYZE (R120). -/
def execFreqAnalyze (s : State) : Result := finish .freqAnalyze s (runUnit .freqAnalyze freqAnalyze s)

end Sys2Proof.Machine
end

