-- ==== Sys2Proof/Machine/TreeBuilder.lean ====
section
/-! DEFINITION. TREE_BUILD (spec/41_tree_builder.md). -/

namespace Sys2Proof.Machine

/-- The order of priority keys (R140): by frequency, then by insertion index. -/
def Key.lt (a b : Key) : Bool := decide (a.freq < b.freq) || (a.freq == b.freq && decide (a.idx < b.idx))

/-- The smallest of a key and a list of keys. -/
def minKey : Key → List Key → Key
  | k, [] => k
  | k, x :: q => minKey (if x.lt k then x else k) q

/-- Pop the smallest key of the queue (R140). The queue is a set: its list order does not matter. -/
def popMin : List Key → Option (Key × List Key)
  | [] => none
  | k :: q => some (minKey k q, (k :: q).erase (minKey k q))

/-- The merge loop of `build` (R140), for at most `fuel` merges: pop two, push their parent, until one node is left. -/
def mergeLoop : Nat → List Node → List Key → List Node × List Key
  | 0, nodes, q => (nodes, q)
  | fuel + 1, nodes, q =>
    match popMin q with
    | none => (nodes, q)
    | some (a, q1) =>
      match popMin q1 with
      | none => (nodes, q)
      | some (b, q2) =>
        mergeLoop fuel (nodes ++ [.internal (a.freq + b.freq) a.idx b.idx]) (⟨a.freq + b.freq, nodes.length⟩ :: q2)

/-- The leaves of a frequency table, in FT order (R140). -/
def leavesOf (ft : FreqTable) : List Node := ft.map (fun e => .leaf e.sym e.count)

/-- The queue of the leaves' keys: leaf i has key `(cnt_i, i)`. -/
def leafKeys (ft : FreqTable) : List Key := ft.zipIdx.map (fun x => ⟨x.1.count, x.2⟩)

/-- `build(FT)` (R140). The root is the one element left in the queue. -/
def build (ft : FreqTable) : Tree :=
  let r := mergeLoop ft.length (leavesOf ft) (leafKeys ft)
  { nodes := r.1, root := (r.2.head?.map Key.idx).getD 0 }

/-- The tree builder's step (R141). -/
def treeBuild (s : State) : Except Raise State :=
  match s.ft with
  | none => .error (s.notReady [.ft])
  | some [] => .error ⟨.invalidInput, 0⟩
  | some (e :: ft) => .ok (s.writeTree (some (build (e :: ft))))

/-- TREE_BUILD (R141). -/
def execTreeBuild (s : State) : Result := finish .treeBuild s (runUnit .treeBuild treeBuild s)

end Sys2Proof.Machine
end

