-- ==== Sys2Proof/Machine/Composite.lean ====
section
/-! DEFINITION. NOP, COMPRESS and DECOMPRESS (spec/46_composite_and_control.md). A composite is the composition of its steps,
stopping at the first failure, as one atomic step (R251, R252; assumption 8, DEDUCED). -/

namespace Sys2Proof.Machine

/-- NOP (R250): nothing but completion. -/
def execNop (s : State) : Result := finish .nop s (.ok s)

/-- The next step of a composite: it runs on what the steps before it left, or not at all after a failure (R251). -/
def andThen (r : Except Failure State) (next : State → Except Failure State) : Except Failure State :=
  match r with
  | .ok s => next s
  | .error f => .error f

/-- The steps of COMPRESS (R253). -/
def compressSteps (s : State) : Except Failure State :=
  andThen (andThen (andThen (andThen (runUnit .freqAnalyze freqAnalyze s)
    (runUnit .treeBuild treeBuild)) (runUnit .codeDerive codeDerive)) (runUnit .bitPack bitPack))
    (runUnit .contSerialize contSerialize)

/-- COMPRESS (R253). -/
def execCompress (s : State) : Result := finish .compress s (compressSteps s)

/-- The steps of DECOMPRESS (R254). -/
def decompressSteps (s : State) : Except Failure State :=
  andThen (andThen (andThen (andThen (runUnit .contDeserialize contDeserialize s)
    (runUnit .treeBuild treeBuild)) (runUnit .codeDerive codeDerive)) (runUnit .payloadCheck payloadCheck))
    (runUnit .bitUnpack bitUnpack)

/-- DECOMPRESS (R254). -/
def execDecompress (s : State) : Result := finish .decompress s (decompressSteps s)

end Sys2Proof.Machine
end

