-- ==== Sys2Proof/Machine/Dispatch.lean ====
section
/-! DEFINITION. The dispatch: one arm per command, each one call of its meaning. -/

namespace Sys2Proof.Machine

def exec (i : Instr) (s : State) : Host.Outcome State Fault Refusal :=
  match i with
  | .nop => Sys2Proof.Machine.execNop s
  | .freqAnalyze => Sys2Proof.Machine.execFreqAnalyze s
  | .treeBuild => Sys2Proof.Machine.execTreeBuild s
  | .codeDerive => Sys2Proof.Machine.execCodeDerive s
  | .bitPack => Sys2Proof.Machine.execBitPack s
  | .contSerialize => Sys2Proof.Machine.execContSerialize s
  | .contDeserialize => Sys2Proof.Machine.execContDeserialize s
  | .payloadCheck => Sys2Proof.Machine.execPayloadCheck s
  | .bitUnpack => Sys2Proof.Machine.execBitUnpack s
  | .compress => Sys2Proof.Machine.execCompress s
  | .decompress => Sys2Proof.Machine.execDecompress s

end Sys2Proof.Machine
end

