-- ==== Sys2Proof/Machine/Step.lean ====
section
/-! DEFINITION. One step of the machine: the engine's, when it is its turn, or one host access. -/

namespace Sys2Proof.Machine

/-- The engine decodes the accepted word and runs the command to its completion (R91, R92); this is one atomic step (R70). -/
def runCommand (w : Word) (s : State) : Host.Outcome State Fault Refusal :=
  match decode w with
  | .ok i => exec i s
  | .error _ => .next (s.illegalCommand w)

/-- One step (R3, R70, R314): the engine's completion if it is the engine's turn, else one host access. -/
def step (s : State) : Host.Outcome State Fault Refusal :=
  match s.phase with
  | .idle => .next s.hostStep
  | .busy w _ => if s.engineTurn then runCommand w s else .next s.tick.hostStep

/-- The state in which the very next step runs the command word `w` of `nbits` bits: the word accepted (R38), and the engine's
turn. A command word is the only thing the block fetches (R73; assumption 6, DESIGN CHOICE). -/
def State.withFetchWord (s : State) (nbits w : Nat) : State :=
  { s.acceptWord (BitVec.ofNat 32 (w % 2 ^ nbits)) with latency := 0 }

end Sys2Proof.Machine
end

