-- ==== Sys2Proof/Machine/Script.lean ====
section
/-! DEFINITION. The host-script notation of R96: each form's expansion into host accesses. -/

namespace Sys2Proof.Machine

/-- `CMD m`. -/
def scriptCmd (i : Instr) : List HostOp := [.write 0x00000008 (encode i)]

/-- `RUN m`: `CMD m` then `WAIT`. -/
def scriptRun (i : Instr) : List HostOp := scriptCmd i ++ [.wait]

/-- `LDSYM [s_0, ..., s_(n-1)]`: the symbols, then IN_SYM_LEN. -/
def scriptLdSym (xs : List Word) : List HostOp :=
  xs.zipIdx.map (fun x => .write (BitVec.ofNat 32 (symAddr x.2)) x.1) ++ [.write 0x00000018 (BitVec.ofNat 32 xs.length)]

/-- `LDBYTES [b_0, ..., b_(n-1)]`: the bytes, four a word, then IN_BYTE_LEN. -/
def scriptLdBytes (bs : List Byte) : List HostOp :=
  (List.range ((bs.length + 3) / 4)).map (fun k => .write (BitVec.ofNat 32 (byteAddr (4 * k))) (byteListWord bs k)) ++
  [.write 0x0000001C (BitVec.ofNat 32 bs.length)]

/-- `ACK`: clears DONE and sets IRQ_EN to 0. -/
def scriptAck : List HostOp := [.write 0x00000004 0x00000004]

/-- `ACK_IRQ`: clears DONE and keeps IRQ_EN = 1. -/
def scriptAckIrq : List HostOp := [.write 0x00000004 0x00000006]

/-- `SRESET`: a soft reset. -/
def scriptSReset : List HostOp := [.write 0x00000004 0x00000001]

/-- `CLRSTICKY`: clears BUSERR and OVERRUN and sets IRQ_EN to 0. -/
def scriptClrSticky : List HostOp := [.write 0x00000004 0x00000008]

end Sys2Proof.Machine
end

