-- ==== Sys2Proof/WellFormed.lean ====
section
/-! DEFINITION. The checks: which commands and command words are well formed (R90, R93 to R95), and which values a working
register may hold (R23 to R25, R162). -/

namespace Sys2Proof

/-- R94: no command has an operand, so every term of `Instr` is well formed. -/
def Instr.wf : Instr → Bool
  | .nop => true
  | .freqAnalyze => true
  | .treeBuild => true
  | .codeDerive => true
  | .bitPack => true
  | .contSerialize => true
  | .contDeserialize => true
  | .payloadCheck => true
  | .bitUnpack => true
  | .compress => true
  | .decompress => true

/-- R90: the reserved field RSV, bits[31:8] of a command word, must be 0. -/
def rsvOk (w : Word) : Bool := w.toNat / 256 == 0

/-- R95: the opcode, bits[7:0], is not in 0x09..0x0F or 0x12..0xFF. -/
def opcOk (w : Word) : Bool := w.toNat % 256 ≤ 0x08 || w.toNat % 256 == 0x10 || w.toNat % 256 == 0x11

/-- A command word that selects a command (R90, R95). -/
def cmdWordWf (w : Word) : Bool := rsvOk w && opcOk w

end Sys2Proof

namespace Sys2Proof.Machine

/-- The sum of a frequency table's counts. -/
def countSum (ft : FreqTable) : Nat := (ft.map FtEntry.count).sum

/-- R23's invariants of an FT value. The empty table is a legal value. -/
abbrev FreqTable.wf (ft : FreqTable) : Prop :=
  (∀ e ∈ ft, e.sym ≤ symMax) ∧ ft.Pairwise (fun a b => a.sym < b.sym) ∧
  (∀ e ∈ ft, 1 ≤ e.count) ∧ countSum ft ≤ countMax

/-- The frequency a node holds. -/
def Node.freq : Node → Nat
  | .leaf _ f => f
  | .internal f _ _ => f

/-- Whether a node is a leaf. -/
def Node.isLeaf : Node → Bool
  | .leaf _ _ => true
  | .internal _ _ _ => false

/-- A node's children, left then right. -/
def Node.children : Node → List Nat
  | .leaf _ _ => []
  | .internal _ l r => [l, r]

/-- R24's condition on the node at index `j`: an internal node's children come before it, and its frequency is their sum. -/
def nodeOk (nodes : List Node) (j : Nat) : Node → Bool
  | .leaf _ _ => true
  | .internal f l r =>
    decide (l < j) && decide (r < j) && ((nodes[l]?.map Node.freq).getD 0 + (nodes[r]?.map Node.freq).getD 0 == f)

/-- R24's invariants of a TREE value of M nodes: M is odd (M = 2N - 1); the N leaves come first; the root is node M - 1;
an internal node holds the sum of its two earlier children; every node but the root is a child exactly once. -/
abbrev Tree.wf (t : Tree) : Prop :=
  t.nodes.length % 2 = 1 ∧ t.root + 1 = t.nodes.length ∧
  (∀ x ∈ t.nodes.zipIdx, x.1.isLeaf = decide (2 * x.2 < t.nodes.length)) ∧
  (∀ x ∈ t.nodes.zipIdx, nodeOk t.nodes x.2 x.1 = true) ∧
  (∀ j < t.root, (t.nodes.flatMap Node.children).count j = 1)

/-- R25's and R162's invariants of a CT value: symbols ascend (FT order), no code is empty, and no code is a prefix of
another entry's code (so the codes are pairwise distinct). -/
abbrev CodeTable.wf (ct : CodeTable) : Prop :=
  ct.Pairwise (fun a b => a.sym < b.sym) ∧ (∀ e ∈ ct, e.code ≠ []) ∧
  ct.Pairwise (fun a b => ¬ a.code <+: b.code ∧ ¬ b.code <+: a.code)

end Sys2Proof.Machine
end

