-- ==== Sys2Proof/Safety.lean ====
section
/-! DEFINITION. What counts as a safe state and a safe run, and the vocabulary the statements use: the state after a successful and
after a failed command, written out from R272 and R273 field by field, not by the model's own operations. -/

namespace Sys2Proof.Machine

/-- An address of a byte of the input RAMs (R61 to R63, R9). -/
def ramAddr (c : Caps) (a : Nat) : Prop :=
  (0x10000000 ≤ a ∧ a < 0x10000000 + 4 * c.inSym) ∨ (0x20000000 ≤ a ∧ a < 0x20000000 + c.inByte)

/-- The invariant of the block: what the spec says of every state between two steps. -/
structure State.Inv (s : State) : Prop where
  /-- R9: the capacities are within their bounds. -/
  caps : s.caps.wf
  /-- The input RAMs are in canonical form. -/
  memWf : Memory.wf s.mem
  /-- The input RAMs hold nothing outside their ranges (R62, R63). -/
  memRange : ∀ x ∈ s.mem, ramAddr s.caps x.1
  /-- R23. -/
  ft : ∀ ft, s.ft = some ft → FreqTable.wf ft
  /-- R29: a valid TREE was derived from the valid FT. -/
  tree : ∀ t, s.tree = some t → ∃ ft, s.ft = some ft ∧ ft ≠ [] ∧ t = build ft
  /-- R29: a valid CT was derived from the valid TREE. -/
  ct : ∀ c, s.ct = some c → ∃ t, s.tree = some t ∧ c = deriveCodes t
  /-- R26. -/
  payload : ∀ b, s.payload = some b → b.length ≤ s.caps.payload
  /-- R27. -/
  outBytes : ∀ b, s.outBytes = some b → b.length ≤ s.caps.outByte
  /-- R28. -/
  outSyms : ∀ x, s.outSyms = some x → x.length ≤ s.caps.outSym ∧ ∀ y ∈ x, y ≤ symMax
  /-- R181, R231: a padding count is at most 8. -/
  pad : s.pad.toNat ≤ 8
  /-- R40. -/
  pbits : s.pbits.toNat ≤ 8 * s.caps.payload
  /-- R34, R36: without an error, ERRCODE, STAGE and ERRINFO are 0. -/
  noErr : s.status.err = false → s.status.errCode = 0 ∧ s.status.stage = 0 ∧ s.errInfo = 0
  /-- R270: with an error, ERRCODE is one of 1 to 9. -/
  errCode : s.status.err = true → 1 ≤ s.status.errCode.toNat ∧ s.status.errCode.toNat ≤ 9
  /-- R22, R38: while BUSY, the phase holds the word of CMD and step 0, and DONE and ERR are 0. -/
  busy : ∀ w k, s.phase = .busy w k → w = s.cmd ∧ k = 0 ∧ s.status.done = false ∧ s.status.err = false

/-- A safe outcome of a step: a next state that meets the invariant. No fault and no refusal is safe. -/
def SafeOutcome (r : Host.Outcome State Fault Refusal) : Prop := ∃ t, r = .next t ∧ t.Inv

/-! The state after a command (R272). -/

/-- A state after the completion event of a success: STATUS shows DONE and no error, ERRINFO is 0, the engine is IDLE. -/
def State.succeeded (s : State) : State :=
  { s with
    phase := .idle
    errInfo := 0
    status :=
      { done := true, err := false, errCode := 0, stage := 0, busErr := s.status.busErr, overrun := s.status.overrun } }

/-- A state after the completion event of a failure with an error code, a detail word and a stage. -/
def State.failed (s : State) (code : BitVec 4) (info : Word) (stage : Byte) : State :=
  { s with
    phase := .idle
    errInfo := info
    status :=
      { done := true, err := true, errCode := code, stage := stage, busErr := s.status.busErr, overrun := s.status.overrun } }

/-- What a failure of each command does to the working registers, PAD and PBITS (R273 with the "writes" column of R93 and R29). -/
def State.discarded (s : State) : Instr → State
  | .nop => s
  | .freqAnalyze => { s with ft := none, tree := none, ct := none }
  | .treeBuild => { s with tree := none, ct := none }
  | .codeDerive => { s with ct := none }
  | .bitPack => { s with payload := none, pad := 0, pbits := 0 }
  | .contSerialize => { s with outBytes := none }
  | .contDeserialize => { s with ft := none, tree := none, ct := none, payload := none }
  | .payloadCheck => s
  | .bitUnpack => { s with outSyms := none, pad := 0, pbits := 0 }
  | .compress =>
    { s with ft := none, tree := none, ct := none, payload := none, pad := 0, pbits := 0, outBytes := none }
  | .decompress =>
    { s with ft := none, tree := none, ct := none, payload := none, pad := 0, pbits := 0, outSyms := none }

/-- The working registers each command requires (R274, and the command's own rule). -/
def requires : Instr → List WorkReg
  | .nop => []
  | .freqAnalyze => []
  | .treeBuild => [.ft]
  | .codeDerive => [.tree]
  | .bitPack => [.ct]
  | .contSerialize => [.ft, .payload]
  | .contDeserialize => []
  | .payloadCheck => [.ft, .ct, .payload]
  | .bitUnpack => [.ct, .payload]
  | .compress => []
  | .decompress => []

/-- The VALID bits, as a number, of the registers of a list that hold no value (R274). -/
def missingBits (s : State) (rs : List WorkReg) : Nat := ((rs.filter (fun r => !s.holds r)).map (fun r => 2 ^ r.bit)).sum

/-- A successful FREQ_ANALYZE of `s` wrote `ft`. -/
def FreqAnalyzed (s : State) (ft : FreqTable) : Prop :=
  ∃ t, exec .freqAnalyze s = .next t ∧ t.status.err = false ∧ t.ft = some ft

/-- A table's count of a symbol; 0 for a missing entry (R121). -/
def tableCount (ft : FreqTable) (x : Nat) : Nat := ((ft.filter (fun e => e.sym = x)).map FtEntry.count).sum

/-- The key of node j (R140): its frequency and its index, in the spec's lexicographic order. -/
def keyBefore (nodes : List Node) (a b : Nat) : Prop :=
  ∃ x y, nodes[a]? = some x ∧ nodes[b]? = some y ∧ (x.freq < y.freq ∨ (x.freq = y.freq ∧ a < b))

/-- Node `c` is in the queue when the node at index `m` is about to be created (R140): it exists already and no earlier internal
node has it as a child. -/
def inQueue (nodes : List Node) (m c : Nat) : Prop :=
  c < m ∧ ∀ j x, j < m → nodes[j]? = some x → c ∉ x.children

/-- Follow branch labels down from node k (R161): "0" to the left child, "1" to the right child. -/
def walk (nodes : List Node) : Nat → Bits → Option Nat
  | k, [] => some k
  | k, b :: bs =>
    match nodes[k]? with
    | some (.internal _ l r) => walk nodes (if b then r else l) bs
    | _ => none

/-- `codes` are the codes of the symbols `xs`, in order. -/
def CodesOf (ct : CodeTable) (xs : List Nat) (codes : List Bits) : Prop :=
  List.Forall₂ (fun x c => codeOf ct x = some c) xs codes

/-- The 4-byte big-endian field at offset k of a byte list. -/
def fieldAt (b : List Byte) (k : Nat) : Nat := beVal ((b.drop k).take 4)

/-- Four bytes as one word, the first most significant (R63). -/
def word4 (b0 b1 b2 b3 : Byte) : Word :=
  b0.setWidth 32 <<< 24 ||| b1.setWidth 32 <<< 16 ||| b2.setWidth 32 <<< 8 ||| b3.setWidth 32

/-- The number `c` of R68: the code's digits with the first most significant. -/
def codeNumber (code : Bits) : Nat :=
  ((List.range code.length).map fun k => if code[k]? = some true then 2 ^ (code.length - 1 - k) else 0).sum

/-- The primitive steps of a composite, in order (R253, R254). -/
def compositeSteps : Instr → List Instr
  | .compress => [.freqAnalyze, .treeBuild, .codeDerive, .bitPack, .contSerialize]
  | .decompress => [.contDeserialize, .treeBuild, .codeDerive, .payloadCheck, .bitUnpack]
  | _ => []

/-- Commands run one after another from `s`, each with success, ending in `t`. -/
def succeedInTurn : List Instr → State → State → Prop
  | [], s, t => s = t
  | i :: is, s, t => ∃ u, exec i s = .next u ∧ u.status.err = false ∧ succeedInTurn is u t

/-- A word aligned address that R65 makes a write to ineffective: a read-only register, a read-only window, a reserved address, or
an input RAM word out of range. -/
def deadAddress (c : Caps) (a : Nat) : Prop :=
  (a < 0x10000000 ∧ a ≠ 0x04 ∧ a ≠ 0x08 ∧ a ≠ 0x18 ∧ a ≠ 0x1C) ∨
  (0x10000000 + 4 * c.inSym ≤ a ∧ a < 0x20000000) ∨ (0x20000000 + c.inByte ≤ a ∧ a < 0x30000000) ∨ 0x30000000 ≤ a

/-- An aligned address that R311 lists: what it reads as is unspecified while the engine is BUSY. -/
def unspecifiedWhileBusy (a : Nat) : Prop :=
  a = 0x10 ∨ a = 0x14 ∨ (0x20 ≤ a ∧ a ≤ 0x40) ∨ (0x30000000 ≤ a ∧ a < 0x90000000)

end Sys2Proof.Machine
end

