-- ==== Sys2Proof/Certificates/Slice0/Obligations.lean ====
section
/-! DEFINITION. The statements for the provers. Each docstring says which rule of the spec it formalises. -/

open Sys2Proof Sys2Proof.Machine

/-! Encoding (spec/30_encoding.md). -/

/-- R93's opcode map on the words themselves, and some of the words R92 and R95 call illegal (T-CTL-2 to T-CTL-6). -/
def Obligations.TableWordsDecode : Prop :=
  decode 0x00000000 = .ok .nop ∧ decode 0x00000001 = .ok .freqAnalyze ∧ decode 0x00000002 = .ok .treeBuild ∧
  decode 0x00000003 = .ok .codeDerive ∧ decode 0x00000004 = .ok .bitPack ∧ decode 0x00000005 = .ok .contSerialize ∧
  decode 0x00000006 = .ok .contDeserialize ∧ decode 0x00000007 = .ok .payloadCheck ∧ decode 0x00000008 = .ok .bitUnpack ∧
  decode 0x00000010 = .ok .compress ∧ decode 0x00000011 = .ok .decompress ∧
  decode 0x00000109 = .error .reservedBits ∧ decode 0x00000100 = .error .reservedBits ∧
  decode 0x00000009 = .error .noOpcode ∧ decode 0x00000012 = .error .noOpcode ∧ decode 0x80000010 = .error .reservedBits

/-- Every command's word decodes to it (R90, R91). -/
def Obligations.EncodeThenDecode : Prop := ∀ i : Instr, i.wf = true → decode (encode i) = .ok i

/-- R91 and R95: every 32-bit word either is one command's word or is rejected, and it is rejected exactly when RSV is not 0 or
OPC is in 0x09..0x0F or 0x12..0xFF. -/
def Obligations.DecoderAcceptsExactlyTheCommandWords : Prop :=
  ∀ w : Word,
    (∀ i, decode w = .ok i ↔ w = encode i) ∧
    ((∃ r, decode w = .error r) ↔
      w.toNat / 256 ≠ 0 ∨ (0x09 ≤ w.toNat % 256 ∧ w.toNat % 256 ≤ 0x0F) ∨ 0x12 ≤ w.toNat % 256)

/-- R92: an illegal word completes with code 7, stage w[7:0] and detail w, and changes nothing else; 0x109 shows as
STATUS = 0x0009_0706. -/
def Obligations.IllegalWordCompletes : Prop :=
  ∀ (s : State) (w : Word) (k : Nat), s.phase = .busy w k → s.engineTurn = true →
    (w.toNat / 256 ≠ 0 ∨ (0x09 ≤ w.toNat % 256 ∧ w.toNat % 256 ≤ 0x0F) ∨ 0x12 ≤ w.toNat % 256) →
    step s = .next (s.failed 7 w (BitVec.ofNat 8 (w.toNat % 256))) ∧
    (w = 0x109 → s.status.busErr = false → s.status.overrun = false → (s.failed 7 w 0x09).statusWord = 0x00090706)

/-! The step. -/

/-- The step runs the decoded command at the engine's turn, and one host access otherwise (R70, R91; whose turn it is while BUSY is
the free latency of assumption 4). The engine's turn comes when the latency has passed or no access is queued. The host's turn (R60,
R96) takes its first queued access off the queue and performs it; WAIT reads STATUS and stays queued while bit 0 of the word read
is 1. (That a turn with nothing queued leaves the state as it is is the model's choice, assumption 10.) -/
def Obligations.StepRunsTheDecodedCommand : Prop :=
  ∀ s : State,
    (∀ w k i, s.phase = .busy w k → (s.latency = 0 ∨ s.bus = []) → decode w = .ok i → step s = exec i s) ∧
    (∀ w k, s.phase = .busy w k → s.latency ≠ 0 → s.bus ≠ [] →
      step s = .next { s with latency := s.latency - 1 }.hostStep) ∧
    (s.phase = .idle → step s = .next s.hostStep) ∧
    (s.bus = [] → s.hostStep = s) ∧
    (∀ a rest, s.bus = .read a :: rest → s.hostStep = { s with bus := rest }.busRead a) ∧
    (∀ a v rest, s.bus = .write a v :: rest → s.hostStep = { s with bus := rest }.busWrite a v) ∧
    (∀ rest, s.bus = .wait :: rest →
      s.hostStep =
        { s with
          bus := if (s.busValue 0x0C).getLsbD 0 then .wait :: rest else rest
          reads := s.reads ++ [s.busValue 0x0C] })

/-- R3, R272: the machine never stops; every step answers a next state. -/
def Obligations.StepAlwaysAnswersNext : Prop := ∀ s : State, ∃ t, step s = .next t

/-- R314's fairness in the model's terms (assumption 4): a BUSY engine is IDLE again after at most latency + 1 steps, whatever
the host does. -/
def Obligations.BusyEngineFinishes : Prop :=
  ∀ s : State, s.phase ≠ .idle →
    ∃ k t, k ≤ s.latency + 1 ∧ Host.Core.run core k s = .next t ∧ t.phase = .idle

/-! Completion (spec/60_exceptions.md). -/

/-- R272: every command ends in one completion event: IDLE, DONE = 1; after a success ERR, ERRCODE, STAGE and ERRINFO are 0, after a
failure ERR is 1 and ERRCODE is not 0. -/
def Obligations.EveryCommandCompletes : Prop :=
  ∀ (i : Instr) (s : State), ∃ t, exec i s = .next t ∧ t.phase = .idle ∧ t.status.done = true ∧ t.isBusy = false ∧
    (t.status.err = false → t.status.errCode = 0 ∧ t.status.stage = 0 ∧ t.errInfo = 0) ∧
    (t.status.err = true → 1 ≤ t.status.errCode.toNat ∧ t.status.errCode.toNat ≤ 9) ∧
    t.status.busErr = s.status.busErr ∧ t.status.overrun = s.status.overrun

/-- The frame of all eleven commands: what no command changes (R30, R31, R273, R42), and which working registers, PAD and PBITS a
command outside their "written by" list leaves alone (R93). Every byte of the input RAMs reads as before. -/
def Obligations.CommandsLeaveTheRestUnchanged : Prop :=
  ∀ (i : Instr) (s t : State), exec i s = .next t →
    (∀ a, t.ramByte a = s.ramByte a) ∧ t.mem = s.mem ∧ t.caps = s.caps ∧ t.inSymLen = s.inSymLen ∧
    t.inByteLen = s.inByteLen ∧ t.cmd = s.cmd ∧ t.irqEn = s.irqEn ∧ t.bus = s.bus ∧ t.reads = s.reads ∧ t.draws = s.draws ∧
    (i ∉ [.freqAnalyze, .contDeserialize, .compress, .decompress] → t.ft = s.ft) ∧
    (i ∉ [.freqAnalyze, .treeBuild, .contDeserialize, .compress, .decompress] → t.tree = s.tree) ∧
    (i ∉ [.freqAnalyze, .treeBuild, .codeDerive, .contDeserialize, .compress, .decompress] → t.ct = s.ct) ∧
    (i ∉ [.bitPack, .contDeserialize, .compress, .decompress] → t.payload = s.payload) ∧
    (i ∉ [.contSerialize, .compress] → t.outBytes = s.outBytes) ∧
    (i ∉ [.bitUnpack, .decompress] → t.outSyms = s.outSyms) ∧
    (i ∉ [.bitPack, .bitUnpack, .compress, .decompress] → t.pad = s.pad ∧ t.pbits = s.pbits)

/-- R273: a failed command invalidates its "writes" column and what depends on it, clears PAD and PBITS if they are in the column,
and changes nothing else but STATUS and ERRINFO. No command, failed or not, changes the input buffers and their length registers. -/
def Obligations.FailureDiscardsTheWritesColumn : Prop :=
  ∀ (i : Instr) (s t : State), exec i s = .next t →
    (t.status.err = true → ∃ code info stage, t = (s.discarded i).failed code info stage) ∧
    t.mem = s.mem ∧ t.inSymLen = s.inSymLen ∧ t.inByteLen = s.inByteLen

/-- R274: a command that requires a register that is `none` raises NotReady with the missing VALID bits, whatever else is wrong;
one whose required registers all hold a value does not raise it. (For COMPRESS and DECOMPRESS, which require none, the second
clause is what R253 and R254 mark as an inference of their own: their steps' registers were just written, R29.) -/
def Obligations.NotReadyIsTheFirstCheck : Prop :=
  ∀ (i : Instr) (s : State),
    ((∃ r ∈ requires i, s.holds r = false) →
      exec i s = .next ((s.discarded i).failed 8 (BitVec.ofNat 32 (missingBits s (requires i))) (opcode i))) ∧
    ((∀ r ∈ requires i, s.holds r = true) → ∀ t, exec i s = .next t → t.status.errCode ≠ 8)

/-- R270's column "raised by", as pairs of ERRCODE and STAGE: no command reports InternalInvariant (R182) or IllegalCommand, and a
primitive command reports its own opcode as the stage (R272). -/
def Obligations.ErrorsComeFromTheirSteps : Prop :=
  ∀ (i : Instr) (s t : State), exec i s = .next t → t.status.err = true →
    (t.status.errCode.toNat, t.status.stage.toNat) ∈
      [(1, 0x01), (1, 0x02), (2, 0x04), (3, 0x06), (4, 0x07), (5, 0x08), (8, 0x02), (8, 0x03), (8, 0x04), (8, 0x05),
       (8, 0x07), (8, 0x08), (9, 0x01), (9, 0x04), (9, 0x06), (9, 0x05), (9, 0x08)] ∧
    (i ≠ .compress → i ≠ .decompress → t.status.stage = opcode i)

/-! The commands. -/

/-- R250: NOP only completes; its word is 0x0000_0000, and the word 0x0000_0100 is not a NOP. -/
def Obligations.NopOnlyCompletes : Prop :=
  (∀ s : State, exec .nop s = .next s.succeeded) ∧ decode 0x00000000 = .ok .nop ∧ decode 0x00000100 = .error .reservedBits

/-- R120: FREQ_ANALYZE's two errors in their order, and its table: exactly the symbols that occur, each with its number of
occurrences, in ascending order. -/
def Obligations.FreqAnalyzeCountsTheInput : Prop :=
  ∀ s : State,
    (s.caps.inSym < s.inSymLen.toNat →
      exec .freqAnalyze s = .next ((s.discarded .freqAnalyze).failed 9 1 0x01)) ∧
    (s.inSymLen.toNat ≤ s.caps.inSym →
      ∀ i < s.inSymLen.toNat, symMax < s.inSym i → (∀ j < i, s.inSym j ≤ symMax) →
        exec .freqAnalyze s = .next ((s.discarded .freqAnalyze).failed 1 (BitVec.ofNat 32 i) 0x01)) ∧
    (s.inSymLen.toNat ≤ s.caps.inSym → (∀ i < s.inSymLen.toNat, s.inSym i ≤ symMax) →
      ∃ ft, exec .freqAnalyze s = .next { s with ft := some ft, tree := none, ct := none }.succeeded ∧
        ft.Pairwise (fun a b => a.sym < b.sym) ∧
        ∀ x c, ⟨x, c⟩ ∈ ft ↔
          1 ≤ c ∧ c = ((List.range s.inSymLen.toNat).filter (fun i => s.inSym i = x)).length)

/-- R121: conservation, size, order-freedom (and with it determinism) and chunk merging of the table FREQ_ANALYZE writes.
(The spec marks this an inference of its own.) -/
def Obligations.FrequencyTablesConserveAndMerge : Prop :=
  (∀ s ft, FreqAnalyzed s ft → countSum ft = s.inSymLen.toNat ∧ ft.length ≤ min s.inSymLen.toNat (symMax + 1)) ∧
  (∀ s s' ft ft', FreqAnalyzed s ft → FreqAnalyzed s' ft' → s.inSyms.Perm s'.inSyms → ft = ft') ∧
  (∀ s a b ft fa fb, FreqAnalyzed s ft → FreqAnalyzed a fa → FreqAnalyzed b fb → s.inSyms = a.inSyms ++ b.inSyms →
    ∀ x, tableCount ft x = tableCount fa x + tableCount fb x)

/-- R141: TREE_BUILD's two errors, and its success: TREE is `build` of FT with 2N - 1 nodes and root 2N - 2, and CT is invalid. -/
def Obligations.TreeBuildBuildsFromFt : Prop :=
  ∀ s : State,
    (s.ft = none → exec .treeBuild s = .next ((s.discarded .treeBuild).failed 8 0x01 0x02)) ∧
    (s.ft = some [] → exec .treeBuild s = .next ((s.discarded .treeBuild).failed 1 0 0x02)) ∧
    (∀ ft, s.ft = some ft → ft ≠ [] →
      exec .treeBuild s = .next { s with tree := some (build ft), ct := none }.succeeded ∧
      (build ft).nodes.length = 2 * ft.length - 1 ∧ (build ft).root = 2 * ft.length - 2)

/-- R140: the tree is what the queue discipline says. Leaves in FT order; each later node merges the two smallest keys of the queue
at that time, the smaller one left; at the end the queue holds the root alone. -/
def Obligations.BuildPopsTheTwoSmallestKeys : Prop :=
  ∀ ft : FreqTable, ft ≠ [] →
    (∀ (i : Nat) (e : FtEntry), ft[i]? = some e → (build ft).nodes[i]? = some (Node.leaf e.sym e.count)) ∧
    (∀ m, ft.length ≤ m → m < (build ft).nodes.length →
      ∃ a b x y, (build ft).nodes[m]? = some (.internal (x.freq + y.freq) a b) ∧
        (build ft).nodes[a]? = some x ∧ (build ft).nodes[b]? = some y ∧
        inQueue (build ft).nodes m a ∧ inQueue (build ft).nodes m b ∧ keyBefore (build ft).nodes a b ∧
        ∀ c, inQueue (build ft).nodes m c → c ≠ a → c ≠ b → keyBefore (build ft).nodes b c) ∧
    (∀ c, inQueue (build ft).nodes (build ft).nodes.length c ↔ c = (build ft).root)

/-- R142: size, leaves, root frequency, child order, frequency order and determinism of the tree TREE_BUILD writes.
(The spec marks this an inference of its own.) -/
def Obligations.BuiltTreesHaveTheHuffmanShape : Prop :=
  ∀ (s : State) (ft : FreqTable), s.ft = some ft → ft ≠ [] →
    ∃ t tr, exec .treeBuild s = .next t ∧ t.tree = some tr ∧
      (tr.nodes.filter Node.isLeaf).length = ft.length ∧
      (tr.nodes.filter (fun n => !n.isLeaf)).length = ft.length - 1 ∧
      tr.nodes.length = 2 * ft.length - 1 ∧ tr.root = tr.nodes.length - 1 ∧
      tr.nodes.filter Node.isLeaf = ft.map (fun e => .leaf e.sym e.count) ∧
      (tr.nodes[tr.root]?.map Node.freq) = some (countSum ft) ∧
      (∀ (k f l r : Nat), tr.nodes[k]? = some (Node.internal f l r) → l < k ∧ r < k ∧ keyBefore tr.nodes l r) ∧
      (∀ (j k f l r f' l' r' : Nat), j ≤ k → tr.nodes[j]? = some (Node.internal f l r) → tr.nodes[k]? = some (Node.internal f' l' r') →
        f ≤ f') ∧
      ∀ s' : State, s'.ft = some ft → ∃ t', exec .treeBuild s' = .next t' ∧ t'.tree = some tr

/-- R24: the TREE of a state that meets the invariant is a node array of M = 2N - 1 nodes with its leaves first in FT order, and
with no sharing and no cycles. (The spec marks this an inference of its own.) -/
def Obligations.TreeValuesAreTrees : Prop :=
  ∀ (s : State) (t : Tree), s.Inv → s.tree = some t →
    Tree.wf t ∧ ∃ ft, s.ft = some ft ∧ ft ≠ [] ∧ t.nodes.length = 2 * ft.length - 1 ∧
      t.nodes.take ft.length = ft.map (fun e => .leaf e.sym e.count)

/-- R160, R161: CODE_DERIVE gives the leaf of entry i the branch labels of the path from the root to leaf i; a tree of one leaf
gives the code "0". INV is the inverse of CT. Without a TREE it raises NotReady. -/
def Obligations.CodesAreLeafPaths : Prop :=
  ∀ s : State,
    (s.tree = none → exec .codeDerive s = .next ((s.discarded .codeDerive).failed 8 0x02 0x03)) ∧
    (s.Inv → ∀ t ft, s.tree = some t → s.ft = some ft →
      ∃ ct, exec .codeDerive s = .next { s with ct := some ct }.succeeded ∧
        ct.map CodeEntry.sym = ft.map FtEntry.sym ∧ (∀ b x, invLookup ct b = some x ↔ ⟨x, b⟩ ∈ ct) ∧
        (ft.length = 1 → ct.map CodeEntry.code = [[false]]) ∧
        (2 ≤ ft.length → ∀ i e, ct[i]? = some e → e.code ≠ [] ∧ walk t.nodes t.root e.code = some i))

/-- R162: in a valid CT no code is empty, no code is a prefix of a different entry's code, the symbols are FT's, and a code's length
is its leaf's depth (the walk along it ends at the leaf). (The spec marks this an inference of its own.) -/
def Obligations.CodesArePrefixFree : Prop :=
  ∀ (s : State) (ct : CodeTable), s.Inv → s.ct = some ct →
    (∀ e ∈ ct, e.code ≠ []) ∧
    (∀ (i j : Nat) (a b : CodeEntry), ct[i]? = some a → ct[j]? = some b → i ≠ j → ¬ a.code <+: b.code) ∧
    ∃ ft t, s.ft = some ft ∧ s.tree = some t ∧ ct.map CodeEntry.sym = ft.map FtEntry.sym ∧
      (2 ≤ ft.length → ∀ i e, ct[i]? = some e → walk t.nodes t.root e.code = some i)

/-- R163: with two or more codes every bit string splits in exactly one way into codes and a proper prefix of a code; with one code
exactly the strings of zeros split into codes. (The spec marks this an inference of its own.) -/
def Obligations.BitStringsSplitInOneWay : Prop :=
  ∀ (s : State) (ct : CodeTable), s.Inv → s.ct = some ct →
    (2 ≤ ct.length → ∀ b : Bits,
      (∃ (es : CodeTable) (r : Bits), (∀ e ∈ es, e ∈ ct) ∧ b = es.flatMap CodeEntry.code ++ r ∧ ∃ e ∈ ct, r <+: e.code ∧ r ≠ e.code) ∧
      (∀ (es : CodeTable) (r : Bits) (es' : CodeTable) (r' : Bits), (∀ e ∈ es, e ∈ ct) → (∀ e ∈ es', e ∈ ct) →
        b = es.flatMap CodeEntry.code ++ r → b = es'.flatMap CodeEntry.code ++ r' →
        (∃ e ∈ ct, r <+: e.code ∧ r ≠ e.code) → (∃ e ∈ ct, r' <+: e.code ∧ r' ≠ e.code) → es = es' ∧ r = r')) ∧
    (ct.length = 1 → ∀ b : Bits,
      (∃ es : CodeTable, (∀ e ∈ es, e ∈ ct) ∧ b = es.flatMap CodeEntry.code) ↔ ∀ x ∈ b, x = false)

/-- R11: a code has at most 45 bits, because the counts sum to at most COUNT_MAX. (The spec marks this an inference of its own.) -/
def Obligations.CodesHaveAtMost45Bits : Prop :=
  ∀ (s : State) (ct : CodeTable), s.Inv → s.ct = some ct → ∀ e ∈ ct, e.code.length ≤ 45

/-- R180, R181: BIT_PACK's errors in their order, and its success: PAYLOAD's bits are the padding count, the codes of the input in
order and the padding; PAD is the padding count and PBITS the payload's length. -/
def Obligations.BitPackEncodesTheInput : Prop :=
  ∀ s : State,
    (s.ct = none → exec .bitPack s = .next ((s.discarded .bitPack).failed 8 0x04 0x04)) ∧
    ∀ ct, s.ct = some ct →
      (s.caps.inSym < s.inSymLen.toNat → exec .bitPack s = .next ((s.discarded .bitPack).failed 9 1 0x04)) ∧
      (s.inSymLen.toNat ≤ s.caps.inSym →
        (∀ i < s.inSymLen.toNat, codeOf ct (s.inSym i) = none → (∀ j < i, codeOf ct (s.inSym j) ≠ none) →
          exec .bitPack s = .next ((s.discarded .bitPack).failed 2 (BitVec.ofNat 32 i) 0x04)) ∧
        ∀ codes len p, CodesOf ct s.inSyms codes → len = codes.flatten.length → p = (8 - len % 8) % 8 →
          (s.caps.payload < (8 + len + p) / 8 →
            exec .bitPack s = .next ((s.discarded .bitPack).failed 9 5 0x04)) ∧
          ((8 + len + p) / 8 ≤ s.caps.payload →
            ∃ bytes, exec .bitPack s = .next
                { s with payload := some bytes, pad := BitVec.ofNat 8 p, pbits := BitVec.ofNat 64 len }.succeeded ∧
              bytes.flatMap bits8 = bits8 (BitVec.ofNat 8 p) ++ codes.flatten ++ List.replicate p false))

/-- R183: after a successful BIT_PACK the first byte of PAYLOAD is p <= 7, the length is (8 + L + p) / 8 = ceil((8 + L) / 8), L is
the counts times the code lengths when FT was counted from the input, and the bits after the first byte are the codes and p zeros.
(The spec marks this an inference of its own.) -/
def Obligations.PackedPayloadsHaveTheStatedShape : Prop :=
  ∀ (s t : State) (ct : CodeTable), s.Inv → s.ct = some ct → exec .bitPack s = .next t → t.status.err = false →
    ∃ b rest codes, t.payload = some (b :: rest) ∧ b = t.pad ∧ b.toNat ≤ 7 ∧
      rest.length + 1 = (8 + t.pbits.toNat + b.toNat) / 8 ∧ rest.length + 1 = (8 + t.pbits.toNat + 7) / 8 ∧
      (s.ft = some (freqTable s.inSyms) →
        t.pbits.toNat =
          ((freqTable s.inSyms).map (fun e => e.count * ((codeOf ct e.sym).getD []).length)).sum) ∧
      CodesOf ct s.inSyms codes ∧ codes.flatten.length = t.pbits.toNat ∧
      rest.flatMap bits8 = codes.flatten ++ List.replicate b.toNat false

/-- R200, R201: CONT_SERIALIZE writes header length, entry count, the (symbol, count) pairs and the payload, every field 4 bytes
big-endian; it fails with NotReady or when the container exceeds OUT_BYTE_CAP. -/
def Obligations.SerializeWritesTheContainer : Prop :=
  ∀ s : State,
    ((s.ft = none ∨ s.payload = none) → exec .contSerialize s = .next
      ((s.discarded .contSerialize).failed 8 (BitVec.ofNat 32 (missingBits s [.ft, .payload])) 0x05)) ∧
    ∀ ft pl c, s.ft = some ft → s.payload = some pl →
      c = be32 (4 + 8 * ft.length) ++ be32 ft.length ++ ft.flatMap (fun e => be32 e.sym ++ be32 e.count) ++ pl →
      c.length = 8 + 8 * ft.length + pl.length ∧
      (s.caps.outByte < c.length → exec .contSerialize s = .next ((s.discarded .contSerialize).failed 9 3 0x05)) ∧
      (c.length ≤ s.caps.outByte → exec .contSerialize s = .next { s with outBytes := some c }.succeeded)

/-- R69 for the container's fields: 4 bytes, most significant first, and reading one back gives it. -/
def Obligations.BigEndianFieldsRoundTrip : Prop :=
  (∀ v < 2 ^ 32, beVal (be32 v) = v) ∧
  (∀ a b c d : Byte, be32 (beVal [a, b, c, d]) = [a, b, c, d] ∧
    beVal [a, b, c, d] = a.toNat * 2 ^ 24 + b.toNat * 2 ^ 16 + c.toNat * 2 ^ 8 + d.toNat)

/-- R202, R203: CONT_DESERIALIZE's checks in their order, each with its detail word, and its success. Entry i's symbol and count are
the fields at offsets 8 + 8i and 12 + 8i of the container. -/
def Obligations.DeserializeChecksInOrder : Prop :=
  ∀ (s : State) (b : List Byte) (m hl n : Nat) (bad : Nat → Nat → Prop),
    b = s.inBytes → m = s.inByteLen.toNat → hl = fieldAt b 0 → n = fieldAt b 4 →
    (∀ i sub, bad i sub ↔
      (sub = 4 ∧ symMax < fieldAt b (8 + 8 * i)) ∨
      (sub = 5 ∧ fieldAt b (8 + 8 * i) ≤ symMax ∧ 0 < i ∧ fieldAt b (8 + 8 * i) ≤ fieldAt b (8 * i)) ∨
      (sub = 6 ∧ fieldAt b (8 + 8 * i) ≤ symMax ∧ (i = 0 ∨ fieldAt b (8 * i) < fieldAt b (8 + 8 * i)) ∧
        fieldAt b (12 + 8 * i) = 0)) →
    (s.caps.inByte < m →
      exec .contDeserialize s = .next ((s.discarded .contDeserialize).failed 9 2 0x06)) ∧
    (m ≤ s.caps.inByte → m < 4 →
      exec .contDeserialize s = .next ((s.discarded .contDeserialize).failed 3 1 0x06)) ∧
    (m ≤ s.caps.inByte → 4 ≤ m → m - 4 < hl →
      exec .contDeserialize s = .next ((s.discarded .contDeserialize).failed 3 2 0x06)) ∧
    (m ≤ s.caps.inByte → 4 ≤ m → hl ≤ m - 4 → hl < 4 ∨ hl ≠ 4 + 8 * n →
      exec .contDeserialize s = .next ((s.discarded .contDeserialize).failed 3 3 0x06)) ∧
    (m ≤ s.caps.inByte → 4 ≤ m → hl ≤ m - 4 → hl = 4 + 8 * n →
      (∀ i < n, ∀ sub, bad i sub → (∀ j < i, ∀ sub', ¬ bad j sub') →
        exec .contDeserialize s =
          .next ((s.discarded .contDeserialize).failed 3 (BitVec.ofNat 32 (sub + 256 * i)) 0x06)) ∧
      ((∀ i < n, ∀ sub, ¬ bad i sub) →
        ∀ ft : FreqTable, ft = (List.range n).map (fun i => ⟨fieldAt b (8 + 8 * i), fieldAt b (12 + 8 * i)⟩) →
          (countMax < countSum ft →
            exec .contDeserialize s = .next ((s.discarded .contDeserialize).failed 3 7 0x06)) ∧
          (countSum ft ≤ countMax → s.caps.payload < m - 4 - hl →
            exec .contDeserialize s = .next ((s.discarded .contDeserialize).failed 9 5 0x06)) ∧
          (countSum ft ≤ countMax → m - 4 - hl ≤ s.caps.payload →
            exec .contDeserialize s = .next
              { s with ft := some ft, tree := none, ct := none, payload := some (b.drop (4 + hl)) }.succeeded)))

/-- The container format is exact (R200, R203, D11): CONT_DESERIALIZE reads back every container of a legal table, and what it
accepts is the container of the legal table and the payload it writes. -/
def Obligations.ContainersReadBackExactly : Prop :=
  (∀ (s : State) (ft : FreqTable) (pl : List Byte), FreqTable.wf ft → s.inBytes = containerBytes ft pl →
    s.inByteLen.toNat ≤ s.caps.inByte → pl.length ≤ s.caps.payload →
    exec .contDeserialize s = .next { s with ft := some ft, tree := none, ct := none, payload := some pl }.succeeded) ∧
  (∀ s t : State, exec .contDeserialize s = .next t → t.status.err = false →
    ∃ ft pl, t.ft = some ft ∧ t.payload = some pl ∧ FreqTable.wf ft ∧ s.inBytes = containerBytes ft pl)

/-- R204: PAYLOAD_CHECK compares PAYLOAD's length with ceil((8 + Lx) / 8), where Lx sums each FT entry's count times its code's
length, and writes no register; every FT symbol has a code. -/
def Obligations.PayloadCheckComparesTheImpliedLength : Prop :=
  ∀ s : State,
    ((s.ft = none ∨ s.ct = none ∨ s.payload = none) → exec .payloadCheck s = .next
      (s.failed 8 (BitVec.ofNat 32 (missingBits s [.ft, .ct, .payload])) 0x07)) ∧
    ∀ ft ct pl, s.ft = some ft → s.ct = some ct → s.payload = some pl →
      (s.Inv → ∃ codes, CodesOf ct (ft.map FtEntry.sym) codes) ∧
      ∀ codes expected, CodesOf ct (ft.map FtEntry.sym) codes →
        expected = (8 + ((ft.zip codes).map (fun x => x.1.count * x.2.length)).sum + 7) / 8 →
        (pl.length < expected → exec .payloadCheck s = .next (s.failed 4 (BitVec.ofNat 32 expected) 0x07)) ∧
        (expected ≤ pl.length → exec .payloadCheck s = .next s.succeeded)

/-- R230, R231: BIT_UNPACK's errors in their order, and its success. The payload bits are split into codes from the left: a split
with nothing left over is the output, more codes than OUT_SYM_CAP is CapacityExceeded(4), a rest that no code begins is
DecodeError(3). -/
def Obligations.BitUnpackDecodesThePayload : Prop :=
  ∀ s : State,
    ((s.ct = none ∨ s.payload = none) → exec .bitUnpack s = .next
      ((s.discarded .bitUnpack).failed 8 (BitVec.ofNat 32 (missingBits s [.ct, .payload])) 0x08)) ∧
    ∀ ct, s.ct = some ct →
      (s.payload = some [] → exec .bitUnpack s = .next ((s.discarded .bitUnpack).failed 5 1 0x08)) ∧
      ∀ b rest r, s.payload = some (b :: rest) → r = 8 * rest.length →
        (¬ ((b.toNat ≤ 7 ∧ b.toNat ≤ r) ∨ (b.toNat = 8 ∧ r = 8)) → exec .bitUnpack s = .next
          ((s.discarded .bitUnpack).failed 5 (BitVec.ofNat 32 (2 + 256 * b.toNat)) 0x08)) ∧
        ((b.toNat ≤ 7 ∧ b.toNat ≤ r) ∨ (b.toNat = 8 ∧ r = 8) → s.Inv →
          ∀ out codes left, CodesOf ct out codes →
            (rest.flatMap bits8).take (r - b.toNat) = codes.flatten ++ left →
            (left = [] → out.length ≤ s.caps.outSym → exec .bitUnpack s = .next
              { s with outSyms := some out, pad := b, pbits := BitVec.ofNat 64 (r - b.toNat) }.succeeded) ∧
            (s.caps.outSym < out.length →
              exec .bitUnpack s = .next ((s.discarded .bitUnpack).failed 9 4 0x08)) ∧
            (left ≠ [] → (∀ e ∈ ct, ¬ e.code <+: left) → out.length ≤ s.caps.outSym →
              exec .bitUnpack s = .next ((s.discarded .bitUnpack).failed 5 3 0x08)))

/-- R232: BIT_UNPACK with the CT a payload was packed with gives back the input, if it fits OUT_SYM_CAP. (The spec marks
this an inference of its own.) -/
def Obligations.UnpackReversesPack : Prop :=
  ∀ s t u : State, s.Inv → exec .bitPack s = .next t → t.status.err = false →
    u.ct = s.ct → u.payload = t.payload → s.inSymLen.toNat ≤ u.caps.outSym →
    exec .bitUnpack u = .next { u with outSyms := some s.inSyms, pad := t.pad, pbits := t.pbits }.succeeded

/-- R251: a composite is its primitive commands in order. If each succeeds, it ends in their last state; if one fails, it reports
that step's code, detail and stage, and discards its whole "writes" column. -/
def Obligations.CompositesRunTheirStepsInOrder : Prop :=
  ∀ (i : Instr) (s : State), i = .compress ∨ i = .decompress →
    (∀ t, succeedInTurn (compositeSteps i) s t → exec i s = .next t) ∧
    (∀ before j after u v, compositeSteps i = before ++ j :: after → succeedInTurn before s u → exec j u = .next v →
      v.status.err = true →
      exec i s = .next ((s.discarded i).failed v.status.errCode v.errInfo v.status.stage))

/-- R253: COMPRESS of a non-empty input of symbols that fits the capacities writes all its registers, in particular OUT_BYTES with
the container of the input's table and its packed codes. Every input symbol has a code. -/
def Obligations.CompressWritesTheContainer : Prop :=
  ∀ (s : State) (ft : FreqTable) (ct : CodeTable),
    ft = freqTable s.inSyms → ct = deriveCodes (build ft) →
    1 ≤ s.inSymLen.toNat → s.inSymLen.toNat ≤ s.caps.inSym → (∀ i < s.inSymLen.toNat, s.inSym i ≤ symMax) →
    (∃ codes, CodesOf ct s.inSyms codes) ∧
    ∀ codes len p, CodesOf ct s.inSyms codes → len = codes.flatten.length → p = (8 - len % 8) % 8 →
      (8 + len + p) / 8 ≤ s.caps.payload → 8 + 8 * ft.length + (8 + len + p) / 8 ≤ s.caps.outByte →
      ∃ bytes, bytes.flatMap bits8 = bits8 (BitVec.ofNat 8 p) ++ codes.flatten ++ List.replicate p false ∧
        exec .compress s = .next
          { s with
            ft := some ft, tree := some (build ft), ct := some ct, payload := some bytes, pad := BitVec.ofNat 8 p
            pbits := BitVec.ofNat 64 len, outBytes := some (containerBytes ft bytes) }.succeeded

/-- R254: DECOMPRESS of a container of a legal non-empty table whose payload is long enough and splits into codes writes all its
registers, in particular OUT_SYMS with the decoded symbols. -/
def Obligations.DecompressReadsTheContainer : Prop :=
  ∀ (s : State) (ft : FreqTable) (ct : CodeTable) (b : Byte) (rest : List Byte) (r : Nat) (out : List Nat)
    (codes : List Bits),
    FreqTable.wf ft → ft ≠ [] → ct = deriveCodes (build ft) → s.inBytes = containerBytes ft (b :: rest) →
    s.inByteLen.toNat ≤ s.caps.inByte → rest.length + 1 ≤ s.caps.payload → expectedBytes ft ct ≤ rest.length + 1 →
    r = 8 * rest.length → (b.toNat ≤ 7 ∧ b.toNat ≤ r) ∨ (b.toNat = 8 ∧ r = 8) → CodesOf ct out codes →
    (rest.flatMap bits8).take (r - b.toNat) = codes.flatten → out.length ≤ s.caps.outSym →
    exec .decompress s = .next
      { s with
        ft := some ft, tree := some (build ft), ct := some ct, payload := some (b :: rest), pad := b
        pbits := BitVec.ofNat 64 (r - b.toNat), outSyms := some out }.succeeded

/-- R253's and R254's lists of errors: a failed composite reports one of the listed codes, details and stages, so NotReady,
MissingCode and InternalInvariant cannot occur in one. InvalidInput at stage 2 of DECOMPRESS is that of a header with N = 0, and the
detail of TruncatedPayload is the length the container's table implies. -/
def Obligations.CompositesFailOnlyAsListed : Prop :=
  (∀ s t : State, exec .compress s = .next t → t.status.err = true →
    (t.status.errCode = 9 ∧ t.errInfo = 1 ∧ t.status.stage = 0x01) ∨
    (t.status.errCode = 1 ∧ t.status.stage = 0x01 ∧
      ∃ i < s.inSymLen.toNat, t.errInfo = BitVec.ofNat 32 i ∧ symMax < s.inSym i) ∨
    (t.status.errCode = 1 ∧ t.errInfo = 0 ∧ t.status.stage = 0x02 ∧ s.inSymLen = 0) ∨
    (t.status.errCode = 9 ∧ t.errInfo = 5 ∧ t.status.stage = 0x04) ∨
    (t.status.errCode = 9 ∧ t.errInfo = 3 ∧ t.status.stage = 0x05)) ∧
  (∀ s t : State, exec .decompress s = .next t → t.status.err = true →
    (t.status.errCode = 9 ∧ t.errInfo = 2 ∧ t.status.stage = 0x06) ∨
    (t.status.errCode = 3 ∧ t.status.stage = 0x06 ∧ 1 ≤ t.errInfo.toNat % 256 ∧ t.errInfo.toNat % 256 ≤ 7) ∨
    (t.status.errCode = 9 ∧ t.errInfo = 5 ∧ t.status.stage = 0x06) ∨
    (t.status.errCode = 1 ∧ t.errInfo = 0 ∧ t.status.stage = 0x02 ∧ fieldAt s.inBytes 4 = 0) ∨
    (t.status.errCode = 4 ∧ t.status.stage = 0x07 ∧
      ∃ ft ct pl, FreqTable.wf ft ∧ ft ≠ [] ∧ s.inBytes = containerBytes ft pl ∧ ct = deriveCodes (build ft) ∧
        pl.length < expectedBytes ft ct ∧ t.errInfo = BitVec.ofNat 32 (expectedBytes ft ct)) ∨
    (t.status.errCode = 5 ∧ t.status.stage = 0x08 ∧ 1 ≤ t.errInfo.toNat % 256 ∧ t.errInfo.toNat % 256 ≤ 3) ∨
    (t.status.errCode = 9 ∧ t.errInfo = 4 ∧ t.status.stage = 0x08))

/-- R205: the container a successful COMPRESS writes: its header length field is the header's length, its payload has exactly the
expected length, it carries the input's frequency table, and CONT_DESERIALIZE of it returns the FT and PAYLOAD it was written from.
(The spec marks this an inference of its own.) -/
def Obligations.CompressedContainersAreSelfDescribing : Prop :=
  ∀ s t : State, exec .compress s = .next t → t.status.err = false →
    ∃ ft ct pl c, t.ft = some ft ∧ t.ct = some ct ∧ t.payload = some pl ∧ t.outBytes = some c ∧
      ft = freqTable s.inSyms ∧ fieldAt c 0 = 4 + 8 * ft.length ∧ c = be32 (fieldAt c 0) ++ headerBytes ft ++ pl ∧
      (headerBytes ft).length = fieldAt c 0 ∧ pl.length = expectedBytes ft ct ∧
      ∀ u : State, u.caps = s.caps → u.inBytes = c → u.inByteLen.toNat ≤ u.caps.inByte →
        exec .contDeserialize u =
          .next { u with ft := some ft, tree := none, ct := none, payload := some pl }.succeeded

/-- R255: what a composite writes and reports depends only on its input, its length register and the capacities.
(The spec marks this an inference of its own.) -/
def Obligations.CompositesIgnoreOldWorkingRegisters : Prop :=
  (∀ s s' t t' : State, s.caps = s'.caps → s.inSymLen = s'.inSymLen → s.inSyms = s'.inSyms →
    exec .compress s = .next t → exec .compress s' = .next t' →
    t.ft = t'.ft ∧ t.tree = t'.tree ∧ t.ct = t'.ct ∧ t.payload = t'.payload ∧ t.pad = t'.pad ∧ t.pbits = t'.pbits ∧
    t.outBytes = t'.outBytes ∧ t.errInfo = t'.errInfo ∧ t.status.err = t'.status.err ∧
    t.status.errCode = t'.status.errCode ∧ t.status.stage = t'.status.stage) ∧
  (∀ s s' t t' : State, s.caps = s'.caps → s.inByteLen = s'.inByteLen → s.inBytes = s'.inBytes →
    exec .decompress s = .next t → exec .decompress s' = .next t' →
    t.ft = t'.ft ∧ t.tree = t'.tree ∧ t.ct = t'.ct ∧ t.payload = t'.payload ∧ t.pad = t'.pad ∧ t.pbits = t'.pbits ∧
    t.outSyms = t'.outSyms ∧ t.errInfo = t'.errInfo ∧ t.status.err = t'.status.err ∧
    t.status.errCode = t'.status.errCode ∧ t.status.stage = t'.status.stage)

/-- R256: DECOMPRESS of the container COMPRESS wrote, loaded unchanged, gives back the input. (The spec marks this an inference
of its own.) -/
def Obligations.DecompressReversesCompress : Prop :=
  ∀ s t u : State, ∀ c : List Byte, s.caps.wf → 1 ≤ s.inSymLen.toNat → s.inSymLen.toNat ≤ s.caps.outSym →
    exec .compress s = .next t → t.status.err = false → t.outBytes = some c →
    u.caps = s.caps → u.inBytes = c → c.length ≤ u.caps.inByte →
    ∃ v, exec .decompress u = .next v ∧ v.status.err = false ∧ v.outSyms = some s.inSyms ∧
      v.ft = t.ft ∧ v.tree = t.tree ∧ v.ct = t.ct ∧ v.payload = t.payload ∧ v.pad = t.pad ∧ v.pbits = t.pbits

/-! The invariant and reset (spec/70_reset_and_hazards.md). -/

/-- The state after power-on reset meets the invariant, for every legal choice of the capacities (R9, R300), and so does
`State.reset`. -/
def Obligations.ResetMeetsTheInvariant : Prop :=
  (∀ c : Caps, c.wf → (State.powerOn c).Inv) ∧ State.reset.Inv

/-- Every step from a state that meets the invariant answers a next state that meets it: a valid TREE is always the tree of the
valid FT and a valid CT its codes (R29), every register value is legal (R23 to R28, R34, R36, R40), the input RAMs stay canonical
and in range, and the phase agrees with CMD (R22, R38). -/
def Obligations.StepKeepsTheInvariant : Prop := ∀ s : State, s.Inv → SafeOutcome (step s)

/-- R300 with the reset values of R32: every register as the host reads it after power-on. That no byte of the input RAMs is
written stands for their unspecified contents (the model's choice, assumption 2), and that State.reset is the power-on state of
the free capacities is the model's choice too (assumption 1). -/
def Obligations.PowerOnClearsTheBlock : Prop :=
  (∀ c : Caps, ∃ s : State, s = State.powerOn c ∧
    s.phase = .idle ∧ s.ft = none ∧ s.tree = none ∧ s.ct = none ∧ s.payload = none ∧ s.outBytes = none ∧
    s.outSyms = none ∧ s.irq = false ∧ s.pad = 0 ∧ s.pbits = 0 ∧ s.caps = c ∧ (∀ a, memGet s.mem a = none) ∧
    (∀ a ∈ [0x04, 0x08, 0x0C, 0x10, 0x14, 0x18, 0x1C, 0x20, 0x24, 0x28, 0x2C, 0x30, 0x34, 0x38, 0x3C, 0x40],
      s.busValue (BitVec.ofNat 32 a) = 0) ∧
    s.busValue 0x00 = 0x48554631 ∧ s.busValue 0x44 = BitVec.ofNat 32 c.inSym ∧ s.busValue 0x48 = BitVec.ofNat 32 c.inByte ∧
    s.busValue 0x4C = BitVec.ofNat 32 c.outByte ∧ s.busValue 0x50 = BitVec.ofNat 32 c.outSym ∧
    s.busValue 0x54 = BitVec.ofNat 32 c.payload ∧ s.busValue 0x58 = 0x10FFFF) ∧
  State.reset = State.powerOn Config.caps

/-- R301: a CTRL write with bit 0 = 1, in either phase, takes the block to the power-on state, but the input RAMs keep their
contents. (That the host's queue, its answers and the draw counter stay is the model's choice, assumption 9.) -/
def Obligations.SoftResetKeepsOnlyTheRams : Prop :=
  ∀ (s : State) (v : Word), v.getLsbD 0 = true →
    s.busWrite 0x00000004 v =
      { State.powerOn s.caps with mem := s.mem, draws := s.draws, bus := s.bus, reads := s.reads } ∧
    ∀ a, (s.busWrite 0x00000004 v).ramByte a = s.ramByte a

/-! The host bus (spec/10_state.md, spec/20_memory.md). -/

/-- R33: a CTRL write sets IRQ_EN, acknowledges DONE and clears the sticky bits, in either phase, and changes nothing else; CTRL reads
back IRQ_EN in bit 1. -/
def Obligations.CtrlWritesControlTheFlags : Prop :=
  ∀ (s : State) (v : Word),
    (v.getLsbD 0 = false →
      s.busWrite 0x00000004 v =
        { s with
          irqEn := v.getLsbD 1
          status := { s.status with
            done := if v.getLsbD 2 then false else s.status.done
            busErr := if v.getLsbD 3 then false else s.status.busErr
            overrun := if v.getLsbD 3 then false else s.status.overrun } }) ∧
    (v.getLsbD 0 = true → s.busWrite 0x00000004 v = s.softReset) ∧
    s.busValue 0x00000004 = if s.irqEn then 2 else 0

/-- R38: in IDLE every word written to CMD is accepted: CMD, BUSY, and no error or DONE left of the last command; while BUSY the word
is discarded and sets OVERRUN. CMD reads back the last accepted word. (The delay and the draw it takes are the model's choice,
assumption 4.) -/
def Obligations.CmdWritesAreAcceptedWhenIdle : Prop :=
  ∀ (s : State) (w : Word),
    (s.phase = .idle →
      ∃ delay, s.busWrite 0x00000008 w =
        { s with
          cmd := w, phase := .busy w 0, errInfo := 0, latency := delay, draws := s.draws + 1
          status := { s.status with done := false, err := false, errCode := 0, stage := 0 } }) ∧
    (s.phase ≠ .idle → s.busWrite 0x00000008 w = { s with status := { s.status with overrun := true } }) ∧
    s.busValue 0x00000008 = s.cmd

/-- R65: a misaligned access and a write to a dead address only set BUSERR (a misaligned read returns 0); a reserved read returns 0; an
aligned read changes nothing of the block and, in IDLE, returns its address's word, and the same word again; BUSERR stays until
CTRL.CLR_STICKY or a reset. (That misaligned and reserved reads return 0 while BUSY too is deduced, assumption 12.) -/
def Obligations.IneffectiveAccessesOnlySetBusErr : Prop :=
  (∀ (s : State) (a : Word), a.toNat % 4 ≠ 0 →
    s.busRead a = { s with status := { s.status with busErr := true }, reads := s.reads ++ [0] }) ∧
  (∀ (s : State) (a v : Word), a.toNat % 4 ≠ 0 ∨ deadAddress s.caps a.toNat →
    s.busWrite a v = { s with status := { s.status with busErr := true } }) ∧
  (∀ (s : State) (a : Word), a.toNat % 4 = 0 →
    (0x5C ≤ a.toNat ∧ a.toNat < 0x10000000) ∨ 0x90000000 ≤ a.toNat →
    s.busRead a = { s with reads := s.reads ++ [0] }) ∧
  (∀ (s : State) (a : Word), a.toNat % 4 = 0 → { s.busRead a with reads := s.reads, draws := s.draws } = s) ∧
  (∀ (s : State) (a : Word), a.toNat % 4 = 0 → s.phase = .idle →
    s.busRead a = { s with reads := s.reads ++ [s.busValue a] } ∧
      (s.busRead a).busRead a = { s with reads := s.reads ++ [s.busValue a, s.busValue a] }) ∧
  (∀ s t : State, step s = .next t → s.status.busErr = true → t.status.busErr = false →
    ∃ v rest, s.bus = .write 0x00000004 v :: rest ∧ (v.getLsbD 0 = true ∨ v.getLsbD 3 = true))

/-- R310: while BUSY a write to CMD, a length register or an input RAM word in range is refused and sets OVERRUN; a write R65 makes
ineffective sets BUSERR and not OVERRUN. R34: OVERRUN stays until CTRL.CLR_STICKY or a reset. (That a word of IN_BYTES partly beyond
IN_BYTE_CAP is in range is deduced, assumption 16.) -/
def Obligations.BusyEngineRefusesWrites : Prop :=
  (∀ (s : State) (a v : Word), s.phase ≠ .idle →
    (a.toNat % 4 = 0 →
      a.toNat ∈ [0x08, 0x18, 0x1C] ∨
      (0x10000000 ≤ a.toNat ∧ a.toNat < 0x10000000 + 4 * s.caps.inSym ∧ a.toNat < 0x20000000) ∨
      (0x20000000 ≤ a.toNat ∧ a.toNat < 0x20000000 + s.caps.inByte ∧ a.toNat < 0x30000000) →
      s.busWrite a v = { s with status := { s.status with overrun := true } }) ∧
    (a.toNat % 4 ≠ 0 ∨ deadAddress s.caps a.toNat →
      s.busWrite a v = { s with status := { s.status with busErr := true } })) ∧
  (∀ s t : State, step s = .next t → s.status.overrun = true → t.status.overrun = false →
    ∃ v rest, s.bus = .write 0x00000004 v :: rest ∧ (v.getLsbD 0 = true ∨ v.getLsbD 3 = true))

/-- R311 in the model's terms (assumption 3): while BUSY an aligned read of a listed register or window returns a fresh free value;
every other aligned read returns its address's word. (That a reserved address reads 0 while BUSY is deduced, assumption 12.) -/
def Obligations.BusyReadsOfResultsAreDraws : Prop :=
  ∀ (s : State) (a : Word), s.phase ≠ .idle → a.toNat % 4 = 0 →
    (unspecifiedWhileBusy a.toNat →
      s.busRead a = { s with reads := s.reads ++ [Config.freeRead s.draws], draws := s.draws + 1 }) ∧
    (¬ unspecifiedWhileBusy a.toNat → s.busRead a = { s with reads := s.reads ++ [s.busValue a] })

/-- R62: word i of the IN_SYMS window is IN_SYMS[i]; a write in IDLE stores all 32 bits and no other byte; beyond IN_SYM_CAP a word reads
0 and a write only sets BUSERR. -/
def Obligations.InSymsWindowHoldsTheSymbols : Prop :=
  ∀ (s : State) (i : Nat) (a v : Word), i < 2 ^ 26 → a = BitVec.ofNat 32 (0x10000000 + 4 * i) →
    (i < s.caps.inSym →
      (s.busValue a).toNat = s.inSym i ∧
      (s.phase = .idle →
        (s.busWrite a v).busValue a = v ∧ { s.busWrite a v with mem := s.mem } = s ∧
        ∀ x, x < 0x10000000 + 4 * i ∨ 0x10000000 + 4 * i + 4 ≤ x → (s.busWrite a v).ramByte x = s.ramByte x)) ∧
    (s.caps.inSym ≤ i →
      s.busValue a = 0 ∧ s.busWrite a v = { s with status := { s.status with busErr := true } })

/-- R63: word k of the IN_BYTES window is bytes 4k to 4k + 3, big-endian; a byte at or beyond IN_BYTE_CAP reads 0 and is not stored; no
other byte changes; a word out of range only sets BUSERR. (That a word partly beyond IN_BYTE_CAP is stored without BUSERR is deduced,
assumption 16.) -/
def Obligations.InBytesWindowIsBigEndian : Prop :=
  ∀ (s : State) (k : Nat) (a v : Word), k < 2 ^ 26 → a = BitVec.ofNat 32 (0x20000000 + 4 * k) →
    (∀ byte : Nat → Byte, (∀ j, byte j = if 4 * k + j < s.caps.inByte then s.ramByte (0x20000000 + 4 * k + j) else 0) →
      s.busValue a = word4 (byte 0) (byte 1) (byte 2) (byte 3)) ∧
    (4 * k < s.caps.inByte → s.phase = .idle →
      (∀ j < 4, 4 * k + j < s.caps.inByte →
        (s.busWrite a v).ramByte (0x20000000 + 4 * k + j) = v.extractLsb' (24 - 8 * j) 8) ∧
      (∀ x, x < 0x20000000 + 4 * k ∨ 0x20000000 + 4 * k + 4 ≤ x ∨ 0x20000000 + s.caps.inByte ≤ x →
        (s.busWrite a v).ramByte x = s.ramByte x) ∧
      { s.busWrite a v with mem := s.mem } = s) ∧
    (s.caps.inByte ≤ 4 * k → s.busWrite a v = { s with status := { s.status with busErr := true } })

/-- R64: the OUT_BYTES and PAYLOAD windows pack four bytes a word, big-endian, and the OUT_SYMS window one symbol a word; beyond the
list, and while the register is `none`, a word reads 0. -/
def Obligations.OutputWindowsShowTheirRegisters : Prop :=
  ∀ (s : State) (k : Nat), k < 2 ^ 26 →
    (∀ l, (s.outBytes = some l ∨ (s.outBytes = none ∧ l = [])) →
      s.busValue (BitVec.ofNat 32 (0x30000000 + 4 * k)) =
        word4 (l.getD (4 * k) 0) (l.getD (4 * k + 1) 0) (l.getD (4 * k + 2) 0) (l.getD (4 * k + 3) 0)) ∧
    (∀ l, (s.payload = some l ∨ (s.payload = none ∧ l = [])) →
      s.busValue (BitVec.ofNat 32 (0x50000000 + 4 * k)) =
        word4 (l.getD (4 * k) 0) (l.getD (4 * k + 1) 0) (l.getD (4 * k + 2) 0) (l.getD (4 * k + 3) 0)) ∧
    (∀ l, (s.outSyms = some l ∨ (s.outSyms = none ∧ l = [])) →
      s.busValue (BitVec.ofNat 32 (0x40000000 + 4 * k)) = BitVec.ofNat 32 (l.getD k 0))

/-- R66, R67, R68: the FT, TREE and CT windows: two words an entry, four words a node, four words an entry; every other word reads 0. -/
def Obligations.TableWindowsShowTheirRegisters : Prop :=
  ∀ s : State,
    (∀ i < 2 ^ 25, ∀ ft, (s.ft = some ft ∨ (s.ft = none ∧ ft = [])) →
      (∀ e, ft[i]? = some e →
        s.busValue (BitVec.ofNat 32 (0x60000000 + 8 * i)) = BitVec.ofNat 32 e.sym ∧
        s.busValue (BitVec.ofNat 32 (0x60000000 + 8 * i + 4)) = BitVec.ofNat 32 e.count) ∧
      (ft.length ≤ i → ∀ j < 2, s.busValue (BitVec.ofNat 32 (0x60000000 + 8 * i + 4 * j)) = 0)) ∧
    (∀ i < 2 ^ 24, ∀ ns, ((∃ r, s.tree = some ⟨ns, r⟩) ∨ (s.tree = none ∧ ns = [])) →
      (∀ x f, ns[i]? = some (.leaf x f) →
        s.busValue (BitVec.ofNat 32 (0x70000000 + 16 * i)) = 0x80000000 ||| BitVec.ofNat 32 x ∧
        s.busValue (BitVec.ofNat 32 (0x70000000 + 16 * i + 4)) = BitVec.ofNat 32 f ∧
        s.busValue (BitVec.ofNat 32 (0x70000000 + 16 * i + 8)) = 0xFFFFFFFF ∧
        s.busValue (BitVec.ofNat 32 (0x70000000 + 16 * i + 12)) = 0xFFFFFFFF) ∧
      (∀ f l r, ns[i]? = some (.internal f l r) →
        s.busValue (BitVec.ofNat 32 (0x70000000 + 16 * i)) = 0 ∧
        s.busValue (BitVec.ofNat 32 (0x70000000 + 16 * i + 4)) = BitVec.ofNat 32 f ∧
        s.busValue (BitVec.ofNat 32 (0x70000000 + 16 * i + 8)) = BitVec.ofNat 32 l ∧
        s.busValue (BitVec.ofNat 32 (0x70000000 + 16 * i + 12)) = BitVec.ofNat 32 r) ∧
      (ns.length ≤ i → ∀ j < 4, s.busValue (BitVec.ofNat 32 (0x70000000 + 16 * i + 4 * j)) = 0)) ∧
    (∀ i < 2 ^ 24, ∀ ct, (s.ct = some ct ∨ (s.ct = none ∧ ct = [])) →
      (∀ e, ct[i]? = some e →
        s.busValue (BitVec.ofNat 32 (0x80000000 + 16 * i)) = BitVec.ofNat 32 e.sym ∧
        s.busValue (BitVec.ofNat 32 (0x80000000 + 16 * i + 4)) = BitVec.ofNat 32 e.code.length ∧
        s.busValue (BitVec.ofNat 32 (0x80000000 + 16 * i + 8)) = BitVec.ofNat 32 (codeNumber e.code / 2 ^ 32) ∧
        s.busValue (BitVec.ofNat 32 (0x80000000 + 16 * i + 12)) = BitVec.ofNat 32 (codeNumber e.code % 2 ^ 32)) ∧
      (ct.length ≤ i → ∀ j < 4, s.busValue (BitVec.ofNat 32 (0x80000000 + 16 * i + 4 * j)) = 0))

/-- R37: bit k of VALID is 1 exactly when the working register with that VALID bit holds a value; bits 31:6 read 0. -/
def Obligations.ValidShowsWhichRegistersHold : Prop :=
  ∀ s : State,
    (s.busValue 0x14).getLsbD 0 = s.ft.isSome ∧ (s.busValue 0x14).getLsbD 1 = s.tree.isSome ∧
    (s.busValue 0x14).getLsbD 2 = s.ct.isSome ∧ (s.busValue 0x14).getLsbD 3 = s.payload.isSome ∧
    (s.busValue 0x14).getLsbD 4 = s.outBytes.isSome ∧ (s.busValue 0x14).getLsbD 5 = s.outSyms.isSome ∧
    ∀ k, 6 ≤ k → (s.busValue 0x14).getLsbD k = false

/-- R39: the length registers report the sizes of their working registers exactly (they fit in 32 bits), and 0 for `none`; TREE_ROOT is
M - 1. R30, R31 and R275, in what they say of the input length registers: in IDLE the host writes any 32-bit value, a too large one
included, to IN_SYM_LEN and IN_BYTE_LEN, which changes nothing else, and reads it back. -/
def Obligations.LengthRegistersReportSizes : Prop :=
  (∀ (s : State) (v : Word), s.phase = .idle →
    s.busWrite 0x18 v = { s with inSymLen := v } ∧ s.busWrite 0x1C v = { s with inByteLen := v }) ∧
  (∀ s : State, s.busValue 0x18 = s.inSymLen ∧ s.busValue 0x1C = s.inByteLen) ∧
  ∀ s : State, s.Inv →
    (∀ l, s.outBytes = some l → (s.busValue 0x20).toNat = l.length) ∧ (s.outBytes = none → s.busValue 0x20 = 0) ∧
    (∀ l, s.outSyms = some l → (s.busValue 0x24).toNat = l.length) ∧ (s.outSyms = none → s.busValue 0x24 = 0) ∧
    (∀ l, s.payload = some l → (s.busValue 0x28).toNat = l.length) ∧ (s.payload = none → s.busValue 0x28 = 0) ∧
    (∀ ft, s.ft = some ft → (s.busValue 0x2C).toNat = ft.length) ∧ (s.ft = none → s.busValue 0x2C = 0) ∧
    (∀ t, s.tree = some t → (s.busValue 0x30).toNat = t.nodes.length ∧ (s.busValue 0x34).toNat = t.nodes.length - 1) ∧
    (s.tree = none → s.busValue 0x30 = 0 ∧ s.busValue 0x34 = 0)

/-- R34 and R40: the fields of STATUS as the host reads it, its reserved bits 0, and PAD and PBITS; in a state that meets the invariant
PBITS is at most 2^31. -/
def Obligations.StatusPadAndPbitsReadAsLaidOut : Prop :=
  ∀ s : State,
    (s.busValue 0x0C).getLsbD 0 = s.isBusy ∧ (s.busValue 0x0C).getLsbD 1 = s.status.done ∧
    (s.busValue 0x0C).getLsbD 2 = s.status.err ∧ (s.busValue 0x0C).extractLsb' 3 5 = 0 ∧
    (s.busValue 0x0C).extractLsb' 8 4 = s.status.errCode ∧ (s.busValue 0x0C).extractLsb' 12 4 = 0 ∧
    (s.busValue 0x0C).extractLsb' 16 8 = s.status.stage ∧ (s.busValue 0x0C).extractLsb' 24 6 = 0 ∧
    (s.busValue 0x0C).getLsbD 30 = s.status.busErr ∧ (s.busValue 0x0C).getLsbD 31 = s.status.overrun ∧
    s.busValue 0x10 = s.errInfo ∧ (s.busValue 0x38).toNat = s.pad.toNat ∧
    (s.busValue 0x40).toNat * 2 ^ 32 + (s.busValue 0x3C).toNat = s.pbits.toNat ∧ (s.Inv → s.pbits.toNat ≤ 2 ^ 31)

/-- R35: ID, SYM_MAX and the CAP_ registers read their constants, and no step changes a capacity. -/
def Obligations.ConstantRegistersNeverChange : Prop :=
  (∀ s : State, s.busValue 0x00 = 0x48554631 ∧ s.busValue 0x58 = 0x0010FFFF ∧
    (s.caps.wf → (s.busValue 0x44).toNat = s.caps.inSym ∧ (s.busValue 0x48).toNat = s.caps.inByte ∧
      (s.busValue 0x4C).toNat = s.caps.outByte ∧ (s.busValue 0x50).toNat = s.caps.outSym ∧
      (s.busValue 0x54).toNat = s.caps.payload)) ∧
  ∀ s t : State, step s = .next t → t.caps = s.caps

/-- R276: IRQ is DONE and IRQ_EN. It rises with a completion when IRQ_EN = 1, and falls with ACK, the next acceptance or a reset;
IRQ_EN = 0 masks it and leaves DONE. No other step clears DONE, and only the engine's completion sets it. -/
def Obligations.IrqFollowsDoneAndEnable : Prop :=
  ∀ s : State,
    s.irq = (s.status.done && s.irqEn) ∧
    (∀ i t, exec i s = .next t → t.irq = s.irqEn) ∧
    (∀ v : Word, v.getLsbD 0 = true ∨ v.getLsbD 2 = true ∨ v.getLsbD 1 = false → (s.busWrite 0x04 v).irq = false) ∧
    (∀ v : Word, v.getLsbD 0 = false → v.getLsbD 1 = false → v.getLsbD 2 = false →
      (s.busWrite 0x04 v).status.done = s.status.done) ∧
    (∀ w : Word, s.phase = .idle → (s.busWrite 0x08 w).irq = false) ∧ (∀ c, (State.powerOn c).irq = false) ∧
    (∀ t, step s = .next t → s.status.done = true → t.status.done = false →
      ∃ a v rest, s.bus = .write a v :: rest ∧
        ((a = 0x04 ∧ (v.getLsbD 0 = true ∨ v.getLsbD 2 = true)) ∨ (a = 0x08 ∧ s.phase = .idle))) ∧
    (∀ t, step s = .next t → s.status.done = false → t.status.done = true → s.engineTurn = true)

/-! Host and engine. -/

/-- R70, R310: a host access made while BUSY either is a soft reset or leaves the running command, its inputs and every working
register as they were. -/
def Obligations.InputsCannotChangeUnderACommand : Prop :=
  ∀ (s t : State) (w : Word) (k : Nat), s.phase = .busy w k → s.engineTurn = false → step s = .next t →
    (t.phase = .idle ∧ ∃ v rest, s.bus = .write 0x00000004 v :: rest ∧ v.getLsbD 0 = true) ∨
    (t.phase = .busy w k ∧ t.cmd = s.cmd ∧ t.mem = s.mem ∧ t.inSymLen = s.inSymLen ∧ t.inByteLen = s.inByteLen ∧
      t.ft = s.ft ∧ t.tree = s.tree ∧ t.ct = s.ct ∧ t.payload = s.payload ∧ t.outBytes = s.outBytes ∧
      t.outSyms = s.outSyms ∧ t.pad = s.pad ∧ t.pbits = s.pbits ∧ t.errInfo = s.errInfo ∧ t.caps = s.caps)

/-- Program P6's two outcomes (U4), for any command and any write to an input word in range, in the model's terms (assumption 4): with
latency 0 the command completes first and the write takes effect; with latency 1 or more the write is refused with OVERRUN. In both
the command ends with the same working registers. -/
def Obligations.RacingWriteHasBothOutcomes : Prop :=
  ∀ (s r : State) (i : Instr) (w v : Word) (j n : Nat),
    s.caps.wf → s.phase = .busy w 0 → decode w = .ok i → j < s.caps.inSym →
    s.bus = [.write (BitVec.ofNat 32 (0x10000000 + 4 * j)) v] → exec i s = .next r →
    (Host.Core.run core 2 { s with latency := 0 } =
      .next { r.busWrite (BitVec.ofNat 32 (0x10000000 + 4 * j)) v with latency := 0, bus := [] }) ∧
    (Host.Core.run core 2 { s with latency := n + 1 } =
      .next { r with latency := n, bus := [], status := { r.status with overrun := true } })

/-- R96 with R62 and R63: LDSYM and LDBYTES from IDLE load the command's operands. After them the input symbols are the list's numbers
and the input bytes the list's bytes; the other length register and every byte outside the written words are as before. -/
def Obligations.LoadScriptsFillTheInputs : Prop :=
  (∀ (s : State) (xs : List Word) (rest : List HostOp), s.caps.wf → s.phase = .idle → xs.length ≤ s.caps.inSym →
    ∃ t, Host.Core.run core (scriptLdSym xs).length { s with bus := scriptLdSym xs ++ rest } = .next t ∧
      t.inSyms = xs.map BitVec.toNat ∧ t.bus = rest ∧ t.phase = .idle ∧ t.inByteLen = s.inByteLen ∧
      ∀ a, a < 0x10000000 ∨ 0x10000000 + 4 * xs.length ≤ a → t.ramByte a = s.ramByte a) ∧
  (∀ (s : State) (bs : List Byte) (rest : List HostOp), s.caps.wf → s.phase = .idle → bs.length ≤ s.caps.inByte →
    ∃ t, Host.Core.run core (scriptLdBytes bs).length { s with bus := scriptLdBytes bs ++ rest } = .next t ∧
      t.inBytes = bs ∧ t.bus = rest ∧ t.phase = .idle ∧ t.inSymLen = s.inSymLen ∧
      ∀ a, a < 0x20000000 ∨ 0x20000000 + 4 * ((bs.length + 3) / 4) ≤ a → t.ramByte a = s.ramByte a)
end

