-- ==== Sys2Proof/Laws/State.lean ====
section
/-! SUPPORT. One lemma per field per update of `State`: what each named update leaves in each field. -/

namespace Sys2Proof.Machine

variable (s : State)

/-! `State.writeFt`. -/

@[simp] theorem State.writeFt_caps (v : Option FreqTable) : (s.writeFt v).caps = s.caps := rfl
@[simp] theorem State.writeFt_phase (v : Option FreqTable) : (s.writeFt v).phase = s.phase := rfl
@[simp] theorem State.writeFt_irqEn (v : Option FreqTable) : (s.writeFt v).irqEn = s.irqEn := rfl
@[simp] theorem State.writeFt_cmd (v : Option FreqTable) : (s.writeFt v).cmd = s.cmd := rfl
@[simp] theorem State.writeFt_status (v : Option FreqTable) : (s.writeFt v).status = s.status := rfl
@[simp] theorem State.writeFt_errInfo (v : Option FreqTable) : (s.writeFt v).errInfo = s.errInfo := rfl
@[simp] theorem State.writeFt_inSymLen (v : Option FreqTable) : (s.writeFt v).inSymLen = s.inSymLen := rfl
@[simp] theorem State.writeFt_inByteLen (v : Option FreqTable) : (s.writeFt v).inByteLen = s.inByteLen := rfl
@[simp] theorem State.writeFt_ft (v : Option FreqTable) : (s.writeFt v).ft = v := rfl
@[simp] theorem State.writeFt_tree (v : Option FreqTable) : (s.writeFt v).tree = none := rfl
@[simp] theorem State.writeFt_ct (v : Option FreqTable) : (s.writeFt v).ct = none := rfl
@[simp] theorem State.writeFt_payload (v : Option FreqTable) : (s.writeFt v).payload = s.payload := rfl
@[simp] theorem State.writeFt_outBytes (v : Option FreqTable) : (s.writeFt v).outBytes = s.outBytes := rfl
@[simp] theorem State.writeFt_outSyms (v : Option FreqTable) : (s.writeFt v).outSyms = s.outSyms := rfl
@[simp] theorem State.writeFt_pad (v : Option FreqTable) : (s.writeFt v).pad = s.pad := rfl
@[simp] theorem State.writeFt_pbits (v : Option FreqTable) : (s.writeFt v).pbits = s.pbits := rfl
@[simp] theorem State.writeFt_mem (v : Option FreqTable) : (s.writeFt v).mem = s.mem := rfl
@[simp] theorem State.writeFt_latency (v : Option FreqTable) : (s.writeFt v).latency = s.latency := rfl
@[simp] theorem State.writeFt_draws (v : Option FreqTable) : (s.writeFt v).draws = s.draws := rfl
@[simp] theorem State.writeFt_bus (v : Option FreqTable) : (s.writeFt v).bus = s.bus := rfl
@[simp] theorem State.writeFt_reads (v : Option FreqTable) : (s.writeFt v).reads = s.reads := rfl

/-! `State.writeTree`. -/

@[simp] theorem State.writeTree_caps (v : Option Tree) : (s.writeTree v).caps = s.caps := rfl
@[simp] theorem State.writeTree_phase (v : Option Tree) : (s.writeTree v).phase = s.phase := rfl
@[simp] theorem State.writeTree_irqEn (v : Option Tree) : (s.writeTree v).irqEn = s.irqEn := rfl
@[simp] theorem State.writeTree_cmd (v : Option Tree) : (s.writeTree v).cmd = s.cmd := rfl
@[simp] theorem State.writeTree_status (v : Option Tree) : (s.writeTree v).status = s.status := rfl
@[simp] theorem State.writeTree_errInfo (v : Option Tree) : (s.writeTree v).errInfo = s.errInfo := rfl
@[simp] theorem State.writeTree_inSymLen (v : Option Tree) : (s.writeTree v).inSymLen = s.inSymLen := rfl
@[simp] theorem State.writeTree_inByteLen (v : Option Tree) : (s.writeTree v).inByteLen = s.inByteLen := rfl
@[simp] theorem State.writeTree_ft (v : Option Tree) : (s.writeTree v).ft = s.ft := rfl
@[simp] theorem State.writeTree_tree (v : Option Tree) : (s.writeTree v).tree = v := rfl
@[simp] theorem State.writeTree_ct (v : Option Tree) : (s.writeTree v).ct = none := rfl
@[simp] theorem State.writeTree_payload (v : Option Tree) : (s.writeTree v).payload = s.payload := rfl
@[simp] theorem State.writeTree_outBytes (v : Option Tree) : (s.writeTree v).outBytes = s.outBytes := rfl
@[simp] theorem State.writeTree_outSyms (v : Option Tree) : (s.writeTree v).outSyms = s.outSyms := rfl
@[simp] theorem State.writeTree_pad (v : Option Tree) : (s.writeTree v).pad = s.pad := rfl
@[simp] theorem State.writeTree_pbits (v : Option Tree) : (s.writeTree v).pbits = s.pbits := rfl
@[simp] theorem State.writeTree_mem (v : Option Tree) : (s.writeTree v).mem = s.mem := rfl
@[simp] theorem State.writeTree_latency (v : Option Tree) : (s.writeTree v).latency = s.latency := rfl
@[simp] theorem State.writeTree_draws (v : Option Tree) : (s.writeTree v).draws = s.draws := rfl
@[simp] theorem State.writeTree_bus (v : Option Tree) : (s.writeTree v).bus = s.bus := rfl
@[simp] theorem State.writeTree_reads (v : Option Tree) : (s.writeTree v).reads = s.reads := rfl

/-! `State.writeCt`. -/

@[simp] theorem State.writeCt_caps (v : Option CodeTable) : (s.writeCt v).caps = s.caps := rfl
@[simp] theorem State.writeCt_phase (v : Option CodeTable) : (s.writeCt v).phase = s.phase := rfl
@[simp] theorem State.writeCt_irqEn (v : Option CodeTable) : (s.writeCt v).irqEn = s.irqEn := rfl
@[simp] theorem State.writeCt_cmd (v : Option CodeTable) : (s.writeCt v).cmd = s.cmd := rfl
@[simp] theorem State.writeCt_status (v : Option CodeTable) : (s.writeCt v).status = s.status := rfl
@[simp] theorem State.writeCt_errInfo (v : Option CodeTable) : (s.writeCt v).errInfo = s.errInfo := rfl
@[simp] theorem State.writeCt_inSymLen (v : Option CodeTable) : (s.writeCt v).inSymLen = s.inSymLen := rfl
@[simp] theorem State.writeCt_inByteLen (v : Option CodeTable) : (s.writeCt v).inByteLen = s.inByteLen := rfl
@[simp] theorem State.writeCt_ft (v : Option CodeTable) : (s.writeCt v).ft = s.ft := rfl
@[simp] theorem State.writeCt_tree (v : Option CodeTable) : (s.writeCt v).tree = s.tree := rfl
@[simp] theorem State.writeCt_ct (v : Option CodeTable) : (s.writeCt v).ct = v := rfl
@[simp] theorem State.writeCt_payload (v : Option CodeTable) : (s.writeCt v).payload = s.payload := rfl
@[simp] theorem State.writeCt_outBytes (v : Option CodeTable) : (s.writeCt v).outBytes = s.outBytes := rfl
@[simp] theorem State.writeCt_outSyms (v : Option CodeTable) : (s.writeCt v).outSyms = s.outSyms := rfl
@[simp] theorem State.writeCt_pad (v : Option CodeTable) : (s.writeCt v).pad = s.pad := rfl
@[simp] theorem State.writeCt_pbits (v : Option CodeTable) : (s.writeCt v).pbits = s.pbits := rfl
@[simp] theorem State.writeCt_mem (v : Option CodeTable) : (s.writeCt v).mem = s.mem := rfl
@[simp] theorem State.writeCt_latency (v : Option CodeTable) : (s.writeCt v).latency = s.latency := rfl
@[simp] theorem State.writeCt_draws (v : Option CodeTable) : (s.writeCt v).draws = s.draws := rfl
@[simp] theorem State.writeCt_bus (v : Option CodeTable) : (s.writeCt v).bus = s.bus := rfl
@[simp] theorem State.writeCt_reads (v : Option CodeTable) : (s.writeCt v).reads = s.reads := rfl

/-! `State.completeOk`. -/

@[simp] theorem State.completeOk_caps : (s.completeOk).caps = s.caps := rfl
@[simp] theorem State.completeOk_phase : (s.completeOk).phase = .idle := rfl
@[simp] theorem State.completeOk_irqEn : (s.completeOk).irqEn = s.irqEn := rfl
@[simp] theorem State.completeOk_cmd : (s.completeOk).cmd = s.cmd := rfl
@[simp] theorem State.completeOk_status : (s.completeOk).status = { s.status with done := true, err := false, errCode := 0, stage := 0 } := rfl
@[simp] theorem State.completeOk_errInfo : (s.completeOk).errInfo = 0 := rfl
@[simp] theorem State.completeOk_inSymLen : (s.completeOk).inSymLen = s.inSymLen := rfl
@[simp] theorem State.completeOk_inByteLen : (s.completeOk).inByteLen = s.inByteLen := rfl
@[simp] theorem State.completeOk_ft : (s.completeOk).ft = s.ft := rfl
@[simp] theorem State.completeOk_tree : (s.completeOk).tree = s.tree := rfl
@[simp] theorem State.completeOk_ct : (s.completeOk).ct = s.ct := rfl
@[simp] theorem State.completeOk_payload : (s.completeOk).payload = s.payload := rfl
@[simp] theorem State.completeOk_outBytes : (s.completeOk).outBytes = s.outBytes := rfl
@[simp] theorem State.completeOk_outSyms : (s.completeOk).outSyms = s.outSyms := rfl
@[simp] theorem State.completeOk_pad : (s.completeOk).pad = s.pad := rfl
@[simp] theorem State.completeOk_pbits : (s.completeOk).pbits = s.pbits := rfl
@[simp] theorem State.completeOk_mem : (s.completeOk).mem = s.mem := rfl
@[simp] theorem State.completeOk_latency : (s.completeOk).latency = s.latency := rfl
@[simp] theorem State.completeOk_draws : (s.completeOk).draws = s.draws := rfl
@[simp] theorem State.completeOk_bus : (s.completeOk).bus = s.bus := rfl
@[simp] theorem State.completeOk_reads : (s.completeOk).reads = s.reads := rfl

/-! `State.completeErr`. -/

@[simp] theorem State.completeErr_caps (f : Failure) : (s.completeErr f).caps = s.caps := rfl
@[simp] theorem State.completeErr_phase (f : Failure) : (s.completeErr f).phase = .idle := rfl
@[simp] theorem State.completeErr_irqEn (f : Failure) : (s.completeErr f).irqEn = s.irqEn := rfl
@[simp] theorem State.completeErr_cmd (f : Failure) : (s.completeErr f).cmd = s.cmd := rfl
@[simp] theorem State.completeErr_status (f : Failure) : (s.completeErr f).status = { s.status with done := true, err := true, errCode := f.kind.code, stage := f.stage } := rfl
@[simp] theorem State.completeErr_errInfo (f : Failure) : (s.completeErr f).errInfo = f.info := rfl
@[simp] theorem State.completeErr_inSymLen (f : Failure) : (s.completeErr f).inSymLen = s.inSymLen := rfl
@[simp] theorem State.completeErr_inByteLen (f : Failure) : (s.completeErr f).inByteLen = s.inByteLen := rfl
@[simp] theorem State.completeErr_ft (f : Failure) : (s.completeErr f).ft = s.ft := rfl
@[simp] theorem State.completeErr_tree (f : Failure) : (s.completeErr f).tree = s.tree := rfl
@[simp] theorem State.completeErr_ct (f : Failure) : (s.completeErr f).ct = s.ct := rfl
@[simp] theorem State.completeErr_payload (f : Failure) : (s.completeErr f).payload = s.payload := rfl
@[simp] theorem State.completeErr_outBytes (f : Failure) : (s.completeErr f).outBytes = s.outBytes := rfl
@[simp] theorem State.completeErr_outSyms (f : Failure) : (s.completeErr f).outSyms = s.outSyms := rfl
@[simp] theorem State.completeErr_pad (f : Failure) : (s.completeErr f).pad = s.pad := rfl
@[simp] theorem State.completeErr_pbits (f : Failure) : (s.completeErr f).pbits = s.pbits := rfl
@[simp] theorem State.completeErr_mem (f : Failure) : (s.completeErr f).mem = s.mem := rfl
@[simp] theorem State.completeErr_latency (f : Failure) : (s.completeErr f).latency = s.latency := rfl
@[simp] theorem State.completeErr_draws (f : Failure) : (s.completeErr f).draws = s.draws := rfl
@[simp] theorem State.completeErr_bus (f : Failure) : (s.completeErr f).bus = s.bus := rfl
@[simp] theorem State.completeErr_reads (f : Failure) : (s.completeErr f).reads = s.reads := rfl

/-! `State.acceptWord`. -/

@[simp] theorem State.acceptWord_caps (w : Word) : (s.acceptWord w).caps = s.caps := rfl
@[simp] theorem State.acceptWord_phase (w : Word) : (s.acceptWord w).phase = .busy w 0 := rfl
@[simp] theorem State.acceptWord_irqEn (w : Word) : (s.acceptWord w).irqEn = s.irqEn := rfl
@[simp] theorem State.acceptWord_cmd (w : Word) : (s.acceptWord w).cmd = w := rfl
@[simp] theorem State.acceptWord_status (w : Word) : (s.acceptWord w).status = { s.status with done := false, err := false, errCode := 0, stage := 0 } := rfl
@[simp] theorem State.acceptWord_errInfo (w : Word) : (s.acceptWord w).errInfo = 0 := rfl
@[simp] theorem State.acceptWord_inSymLen (w : Word) : (s.acceptWord w).inSymLen = s.inSymLen := rfl
@[simp] theorem State.acceptWord_inByteLen (w : Word) : (s.acceptWord w).inByteLen = s.inByteLen := rfl
@[simp] theorem State.acceptWord_ft (w : Word) : (s.acceptWord w).ft = s.ft := rfl
@[simp] theorem State.acceptWord_tree (w : Word) : (s.acceptWord w).tree = s.tree := rfl
@[simp] theorem State.acceptWord_ct (w : Word) : (s.acceptWord w).ct = s.ct := rfl
@[simp] theorem State.acceptWord_payload (w : Word) : (s.acceptWord w).payload = s.payload := rfl
@[simp] theorem State.acceptWord_outBytes (w : Word) : (s.acceptWord w).outBytes = s.outBytes := rfl
@[simp] theorem State.acceptWord_outSyms (w : Word) : (s.acceptWord w).outSyms = s.outSyms := rfl
@[simp] theorem State.acceptWord_pad (w : Word) : (s.acceptWord w).pad = s.pad := rfl
@[simp] theorem State.acceptWord_pbits (w : Word) : (s.acceptWord w).pbits = s.pbits := rfl
@[simp] theorem State.acceptWord_mem (w : Word) : (s.acceptWord w).mem = s.mem := rfl
@[simp] theorem State.acceptWord_latency (w : Word) : (s.acceptWord w).latency = s.latency := rfl
@[simp] theorem State.acceptWord_draws (w : Word) : (s.acceptWord w).draws = s.draws := rfl
@[simp] theorem State.acceptWord_bus (w : Word) : (s.acceptWord w).bus = s.bus := rfl
@[simp] theorem State.acceptWord_reads (w : Word) : (s.acceptWord w).reads = s.reads := rfl

/-! `State.accept`. -/

@[simp] theorem State.accept_caps (w : Word) : (s.accept w).caps = s.caps := rfl
@[simp] theorem State.accept_phase (w : Word) : (s.accept w).phase = .busy w 0 := rfl
@[simp] theorem State.accept_irqEn (w : Word) : (s.accept w).irqEn = s.irqEn := rfl
@[simp] theorem State.accept_cmd (w : Word) : (s.accept w).cmd = w := rfl
@[simp] theorem State.accept_status (w : Word) : (s.accept w).status = { s.status with done := false, err := false, errCode := 0, stage := 0 } := rfl
@[simp] theorem State.accept_errInfo (w : Word) : (s.accept w).errInfo = 0 := rfl
@[simp] theorem State.accept_inSymLen (w : Word) : (s.accept w).inSymLen = s.inSymLen := rfl
@[simp] theorem State.accept_inByteLen (w : Word) : (s.accept w).inByteLen = s.inByteLen := rfl
@[simp] theorem State.accept_ft (w : Word) : (s.accept w).ft = s.ft := rfl
@[simp] theorem State.accept_tree (w : Word) : (s.accept w).tree = s.tree := rfl
@[simp] theorem State.accept_ct (w : Word) : (s.accept w).ct = s.ct := rfl
@[simp] theorem State.accept_payload (w : Word) : (s.accept w).payload = s.payload := rfl
@[simp] theorem State.accept_outBytes (w : Word) : (s.accept w).outBytes = s.outBytes := rfl
@[simp] theorem State.accept_outSyms (w : Word) : (s.accept w).outSyms = s.outSyms := rfl
@[simp] theorem State.accept_pad (w : Word) : (s.accept w).pad = s.pad := rfl
@[simp] theorem State.accept_pbits (w : Word) : (s.accept w).pbits = s.pbits := rfl
@[simp] theorem State.accept_mem (w : Word) : (s.accept w).mem = s.mem := rfl
@[simp] theorem State.accept_latency (w : Word) : (s.accept w).latency = Config.freeLatency s.draws := rfl
@[simp] theorem State.accept_draws (w : Word) : (s.accept w).draws = s.draws + 1 := rfl
@[simp] theorem State.accept_bus (w : Word) : (s.accept w).bus = s.bus := rfl
@[simp] theorem State.accept_reads (w : Word) : (s.accept w).reads = s.reads := rfl

/-! `State.softReset`. -/

@[simp] theorem State.softReset_caps : (s.softReset).caps = s.caps := rfl
@[simp] theorem State.softReset_phase : (s.softReset).phase = .idle := rfl
@[simp] theorem State.softReset_irqEn : (s.softReset).irqEn = false := rfl
@[simp] theorem State.softReset_cmd : (s.softReset).cmd = 0 := rfl
@[simp] theorem State.softReset_status : (s.softReset).status = Status.reset := rfl
@[simp] theorem State.softReset_errInfo : (s.softReset).errInfo = 0 := rfl
@[simp] theorem State.softReset_inSymLen : (s.softReset).inSymLen = 0 := rfl
@[simp] theorem State.softReset_inByteLen : (s.softReset).inByteLen = 0 := rfl
@[simp] theorem State.softReset_ft : (s.softReset).ft = none := rfl
@[simp] theorem State.softReset_tree : (s.softReset).tree = none := rfl
@[simp] theorem State.softReset_ct : (s.softReset).ct = none := rfl
@[simp] theorem State.softReset_payload : (s.softReset).payload = none := rfl
@[simp] theorem State.softReset_outBytes : (s.softReset).outBytes = none := rfl
@[simp] theorem State.softReset_outSyms : (s.softReset).outSyms = none := rfl
@[simp] theorem State.softReset_pad : (s.softReset).pad = 0 := rfl
@[simp] theorem State.softReset_pbits : (s.softReset).pbits = 0 := rfl
@[simp] theorem State.softReset_mem : (s.softReset).mem = s.mem := rfl
@[simp] theorem State.softReset_latency : (s.softReset).latency = 0 := rfl
@[simp] theorem State.softReset_draws : (s.softReset).draws = s.draws := rfl
@[simp] theorem State.softReset_bus : (s.softReset).bus = s.bus := rfl
@[simp] theorem State.softReset_reads : (s.softReset).reads = s.reads := rfl

/-! `State.setBusErr`. -/

@[simp] theorem State.setBusErr_caps : (s.setBusErr).caps = s.caps := rfl
@[simp] theorem State.setBusErr_phase : (s.setBusErr).phase = s.phase := rfl
@[simp] theorem State.setBusErr_irqEn : (s.setBusErr).irqEn = s.irqEn := rfl
@[simp] theorem State.setBusErr_cmd : (s.setBusErr).cmd = s.cmd := rfl
@[simp] theorem State.setBusErr_status : (s.setBusErr).status = { s.status with busErr := true } := rfl
@[simp] theorem State.setBusErr_errInfo : (s.setBusErr).errInfo = s.errInfo := rfl
@[simp] theorem State.setBusErr_inSymLen : (s.setBusErr).inSymLen = s.inSymLen := rfl
@[simp] theorem State.setBusErr_inByteLen : (s.setBusErr).inByteLen = s.inByteLen := rfl
@[simp] theorem State.setBusErr_ft : (s.setBusErr).ft = s.ft := rfl
@[simp] theorem State.setBusErr_tree : (s.setBusErr).tree = s.tree := rfl
@[simp] theorem State.setBusErr_ct : (s.setBusErr).ct = s.ct := rfl
@[simp] theorem State.setBusErr_payload : (s.setBusErr).payload = s.payload := rfl
@[simp] theorem State.setBusErr_outBytes : (s.setBusErr).outBytes = s.outBytes := rfl
@[simp] theorem State.setBusErr_outSyms : (s.setBusErr).outSyms = s.outSyms := rfl
@[simp] theorem State.setBusErr_pad : (s.setBusErr).pad = s.pad := rfl
@[simp] theorem State.setBusErr_pbits : (s.setBusErr).pbits = s.pbits := rfl
@[simp] theorem State.setBusErr_mem : (s.setBusErr).mem = s.mem := rfl
@[simp] theorem State.setBusErr_latency : (s.setBusErr).latency = s.latency := rfl
@[simp] theorem State.setBusErr_draws : (s.setBusErr).draws = s.draws := rfl
@[simp] theorem State.setBusErr_bus : (s.setBusErr).bus = s.bus := rfl
@[simp] theorem State.setBusErr_reads : (s.setBusErr).reads = s.reads := rfl

/-! `State.setOverrun`. -/

@[simp] theorem State.setOverrun_caps : (s.setOverrun).caps = s.caps := rfl
@[simp] theorem State.setOverrun_phase : (s.setOverrun).phase = s.phase := rfl
@[simp] theorem State.setOverrun_irqEn : (s.setOverrun).irqEn = s.irqEn := rfl
@[simp] theorem State.setOverrun_cmd : (s.setOverrun).cmd = s.cmd := rfl
@[simp] theorem State.setOverrun_status : (s.setOverrun).status = { s.status with overrun := true } := rfl
@[simp] theorem State.setOverrun_errInfo : (s.setOverrun).errInfo = s.errInfo := rfl
@[simp] theorem State.setOverrun_inSymLen : (s.setOverrun).inSymLen = s.inSymLen := rfl
@[simp] theorem State.setOverrun_inByteLen : (s.setOverrun).inByteLen = s.inByteLen := rfl
@[simp] theorem State.setOverrun_ft : (s.setOverrun).ft = s.ft := rfl
@[simp] theorem State.setOverrun_tree : (s.setOverrun).tree = s.tree := rfl
@[simp] theorem State.setOverrun_ct : (s.setOverrun).ct = s.ct := rfl
@[simp] theorem State.setOverrun_payload : (s.setOverrun).payload = s.payload := rfl
@[simp] theorem State.setOverrun_outBytes : (s.setOverrun).outBytes = s.outBytes := rfl
@[simp] theorem State.setOverrun_outSyms : (s.setOverrun).outSyms = s.outSyms := rfl
@[simp] theorem State.setOverrun_pad : (s.setOverrun).pad = s.pad := rfl
@[simp] theorem State.setOverrun_pbits : (s.setOverrun).pbits = s.pbits := rfl
@[simp] theorem State.setOverrun_mem : (s.setOverrun).mem = s.mem := rfl
@[simp] theorem State.setOverrun_latency : (s.setOverrun).latency = s.latency := rfl
@[simp] theorem State.setOverrun_draws : (s.setOverrun).draws = s.draws := rfl
@[simp] theorem State.setOverrun_bus : (s.setOverrun).bus = s.bus := rfl
@[simp] theorem State.setOverrun_reads : (s.setOverrun).reads = s.reads := rfl

/-! `State.answer`. -/

@[simp] theorem State.answer_caps (v : Word) : (s.answer v).caps = s.caps := rfl
@[simp] theorem State.answer_phase (v : Word) : (s.answer v).phase = s.phase := rfl
@[simp] theorem State.answer_irqEn (v : Word) : (s.answer v).irqEn = s.irqEn := rfl
@[simp] theorem State.answer_cmd (v : Word) : (s.answer v).cmd = s.cmd := rfl
@[simp] theorem State.answer_status (v : Word) : (s.answer v).status = s.status := rfl
@[simp] theorem State.answer_errInfo (v : Word) : (s.answer v).errInfo = s.errInfo := rfl
@[simp] theorem State.answer_inSymLen (v : Word) : (s.answer v).inSymLen = s.inSymLen := rfl
@[simp] theorem State.answer_inByteLen (v : Word) : (s.answer v).inByteLen = s.inByteLen := rfl
@[simp] theorem State.answer_ft (v : Word) : (s.answer v).ft = s.ft := rfl
@[simp] theorem State.answer_tree (v : Word) : (s.answer v).tree = s.tree := rfl
@[simp] theorem State.answer_ct (v : Word) : (s.answer v).ct = s.ct := rfl
@[simp] theorem State.answer_payload (v : Word) : (s.answer v).payload = s.payload := rfl
@[simp] theorem State.answer_outBytes (v : Word) : (s.answer v).outBytes = s.outBytes := rfl
@[simp] theorem State.answer_outSyms (v : Word) : (s.answer v).outSyms = s.outSyms := rfl
@[simp] theorem State.answer_pad (v : Word) : (s.answer v).pad = s.pad := rfl
@[simp] theorem State.answer_pbits (v : Word) : (s.answer v).pbits = s.pbits := rfl
@[simp] theorem State.answer_mem (v : Word) : (s.answer v).mem = s.mem := rfl
@[simp] theorem State.answer_latency (v : Word) : (s.answer v).latency = s.latency := rfl
@[simp] theorem State.answer_draws (v : Word) : (s.answer v).draws = s.draws := rfl
@[simp] theorem State.answer_bus (v : Word) : (s.answer v).bus = s.bus := rfl
@[simp] theorem State.answer_reads (v : Word) : (s.answer v).reads = s.reads ++ [v] := rfl

/-! `State.tick`. -/

@[simp] theorem State.tick_caps : (s.tick).caps = s.caps := rfl
@[simp] theorem State.tick_phase : (s.tick).phase = s.phase := rfl
@[simp] theorem State.tick_irqEn : (s.tick).irqEn = s.irqEn := rfl
@[simp] theorem State.tick_cmd : (s.tick).cmd = s.cmd := rfl
@[simp] theorem State.tick_status : (s.tick).status = s.status := rfl
@[simp] theorem State.tick_errInfo : (s.tick).errInfo = s.errInfo := rfl
@[simp] theorem State.tick_inSymLen : (s.tick).inSymLen = s.inSymLen := rfl
@[simp] theorem State.tick_inByteLen : (s.tick).inByteLen = s.inByteLen := rfl
@[simp] theorem State.tick_ft : (s.tick).ft = s.ft := rfl
@[simp] theorem State.tick_tree : (s.tick).tree = s.tree := rfl
@[simp] theorem State.tick_ct : (s.tick).ct = s.ct := rfl
@[simp] theorem State.tick_payload : (s.tick).payload = s.payload := rfl
@[simp] theorem State.tick_outBytes : (s.tick).outBytes = s.outBytes := rfl
@[simp] theorem State.tick_outSyms : (s.tick).outSyms = s.outSyms := rfl
@[simp] theorem State.tick_pad : (s.tick).pad = s.pad := rfl
@[simp] theorem State.tick_pbits : (s.tick).pbits = s.pbits := rfl
@[simp] theorem State.tick_mem : (s.tick).mem = s.mem := rfl
@[simp] theorem State.tick_latency : (s.tick).latency = s.latency - 1 := rfl
@[simp] theorem State.tick_draws : (s.tick).draws = s.draws := rfl
@[simp] theorem State.tick_bus : (s.tick).bus = s.bus := rfl
@[simp] theorem State.tick_reads : (s.tick).reads = s.reads := rfl

/-! `State.succeeded`. -/

@[simp] theorem State.succeeded_caps : (s.succeeded).caps = s.caps := rfl
@[simp] theorem State.succeeded_phase : (s.succeeded).phase = .idle := rfl
@[simp] theorem State.succeeded_irqEn : (s.succeeded).irqEn = s.irqEn := rfl
@[simp] theorem State.succeeded_cmd : (s.succeeded).cmd = s.cmd := rfl
@[simp] theorem State.succeeded_status : (s.succeeded).status = { done := true, err := false, errCode := 0, stage := 0, busErr := s.status.busErr, overrun := s.status.overrun } := rfl
@[simp] theorem State.succeeded_errInfo : (s.succeeded).errInfo = 0 := rfl
@[simp] theorem State.succeeded_inSymLen : (s.succeeded).inSymLen = s.inSymLen := rfl
@[simp] theorem State.succeeded_inByteLen : (s.succeeded).inByteLen = s.inByteLen := rfl
@[simp] theorem State.succeeded_ft : (s.succeeded).ft = s.ft := rfl
@[simp] theorem State.succeeded_tree : (s.succeeded).tree = s.tree := rfl
@[simp] theorem State.succeeded_ct : (s.succeeded).ct = s.ct := rfl
@[simp] theorem State.succeeded_payload : (s.succeeded).payload = s.payload := rfl
@[simp] theorem State.succeeded_outBytes : (s.succeeded).outBytes = s.outBytes := rfl
@[simp] theorem State.succeeded_outSyms : (s.succeeded).outSyms = s.outSyms := rfl
@[simp] theorem State.succeeded_pad : (s.succeeded).pad = s.pad := rfl
@[simp] theorem State.succeeded_pbits : (s.succeeded).pbits = s.pbits := rfl
@[simp] theorem State.succeeded_mem : (s.succeeded).mem = s.mem := rfl
@[simp] theorem State.succeeded_latency : (s.succeeded).latency = s.latency := rfl
@[simp] theorem State.succeeded_draws : (s.succeeded).draws = s.draws := rfl
@[simp] theorem State.succeeded_bus : (s.succeeded).bus = s.bus := rfl
@[simp] theorem State.succeeded_reads : (s.succeeded).reads = s.reads := rfl

/-! `State.failed`. -/

@[simp] theorem State.failed_caps (c : BitVec 4) (i : Word) (g : Byte) : (s.failed c i g).caps = s.caps := rfl
@[simp] theorem State.failed_phase (c : BitVec 4) (i : Word) (g : Byte) : (s.failed c i g).phase = .idle := rfl
@[simp] theorem State.failed_irqEn (c : BitVec 4) (i : Word) (g : Byte) : (s.failed c i g).irqEn = s.irqEn := rfl
@[simp] theorem State.failed_cmd (c : BitVec 4) (i : Word) (g : Byte) : (s.failed c i g).cmd = s.cmd := rfl
@[simp] theorem State.failed_status (c : BitVec 4) (i : Word) (g : Byte) : (s.failed c i g).status = { done := true, err := true, errCode := c, stage := g, busErr := s.status.busErr, overrun := s.status.overrun } := rfl
@[simp] theorem State.failed_errInfo (c : BitVec 4) (i : Word) (g : Byte) : (s.failed c i g).errInfo = i := rfl
@[simp] theorem State.failed_inSymLen (c : BitVec 4) (i : Word) (g : Byte) : (s.failed c i g).inSymLen = s.inSymLen := rfl
@[simp] theorem State.failed_inByteLen (c : BitVec 4) (i : Word) (g : Byte) : (s.failed c i g).inByteLen = s.inByteLen := rfl
@[simp] theorem State.failed_ft (c : BitVec 4) (i : Word) (g : Byte) : (s.failed c i g).ft = s.ft := rfl
@[simp] theorem State.failed_tree (c : BitVec 4) (i : Word) (g : Byte) : (s.failed c i g).tree = s.tree := rfl
@[simp] theorem State.failed_ct (c : BitVec 4) (i : Word) (g : Byte) : (s.failed c i g).ct = s.ct := rfl
@[simp] theorem State.failed_payload (c : BitVec 4) (i : Word) (g : Byte) : (s.failed c i g).payload = s.payload := rfl
@[simp] theorem State.failed_outBytes (c : BitVec 4) (i : Word) (g : Byte) : (s.failed c i g).outBytes = s.outBytes := rfl
@[simp] theorem State.failed_outSyms (c : BitVec 4) (i : Word) (g : Byte) : (s.failed c i g).outSyms = s.outSyms := rfl
@[simp] theorem State.failed_pad (c : BitVec 4) (i : Word) (g : Byte) : (s.failed c i g).pad = s.pad := rfl
@[simp] theorem State.failed_pbits (c : BitVec 4) (i : Word) (g : Byte) : (s.failed c i g).pbits = s.pbits := rfl
@[simp] theorem State.failed_mem (c : BitVec 4) (i : Word) (g : Byte) : (s.failed c i g).mem = s.mem := rfl
@[simp] theorem State.failed_latency (c : BitVec 4) (i : Word) (g : Byte) : (s.failed c i g).latency = s.latency := rfl
@[simp] theorem State.failed_draws (c : BitVec 4) (i : Word) (g : Byte) : (s.failed c i g).draws = s.draws := rfl
@[simp] theorem State.failed_bus (c : BitVec 4) (i : Word) (g : Byte) : (s.failed c i g).bus = s.bus := rfl
@[simp] theorem State.failed_reads (c : BitVec 4) (i : Word) (g : Byte) : (s.failed c i g).reads = s.reads := rfl

end Sys2Proof.Machine
end

