-- ==== Sys2Proof/Laws/Memory.lean ====
section
/-! SUPPORT. The laws of the input RAMs and of the big-endian fields: read after write,
    and that every memory operation keeps the
canonical form. -/

namespace Sys2Proof.Machine

/-! Read after write. -/

theorem memGet_memSet (m : Memory) (a x : Nat) (b : Byte) :
    memGet (memSet m a b) x = if x = a then some b else memGet m x := by
  induction m with
  | nil => simp [memSet, memGet, eq_comm]
  | cons c m ih =>
    obtain ⟨k, d⟩ := c
    unfold memSet
    split
    · simp [memGet, eq_comm]
    · split
      · rename_i _ heq
        subst heq
        by_cases hx : x = a
        · simp [memGet, hx]
        · simp [memGet, hx, Ne.symm hx]
      · rename_i _ hne
        simp only [memGet, ih]
        by_cases hx : x = a
        · simp [hx, Ne.symm hne]
        · simp [hx]

theorem memGet_memSet_same (m : Memory) (a : Nat) (b : Byte) : memGet (memSet m a b) a = some b := by
  simp [memGet_memSet m a a b]

theorem memGet_memSet_other (m : Memory) (a x : Nat) (b : Byte) (hx : x ≠ a) :
    memGet (memSet m a b) x = memGet m x := by
  simp [memGet_memSet m a x b, hx]

/-! The canonical form. -/

theorem mem_memSet {m : Memory} {a : Nat} {b : Byte} {c : Host.Cell} (h : c ∈ memSet m a b) : c = (a, b) ∨ c ∈ m := by
  induction m with
  | nil => simpa [memSet] using h
  | cons d m ih =>
    obtain ⟨k, e⟩ := d
    unfold memSet at h
    split at h
    · simpa using h
    · split at h
      · simp only [List.mem_cons] at h ⊢; tauto
      · simp only [List.mem_cons] at h ⊢
        rcases h with h | h
        · exact .inr (.inl h)
        · rcases ih h with h | h <;> tauto

theorem memSet_wf {m : Memory} (a : Nat) (b : Byte) (h : Memory.wf m) : Memory.wf (memSet m a b) := by
  induction m with
  | nil => simp [memSet, Memory.wf]
  | cons d m ih =>
    obtain ⟨k, e⟩ := d
    have hk := List.pairwise_cons.1 h
    unfold memSet
    split
    · rename_i hlt
      refine List.pairwise_cons.2 ⟨fun c hc => ?_, h⟩
      rcases List.mem_cons.1 hc with rfl | hc
      · exact hlt
      · exact Nat.lt_trans hlt (hk.1 c hc)
    · split
      · rename_i _ heq
        exact List.pairwise_cons.2 ⟨fun c hc => heq ▸ hk.1 c hc, hk.2⟩
      · rename_i h1 h2
        refine List.pairwise_cons.2 ⟨fun c hc => ?_, ih hk.2⟩
        rcases mem_memSet hc with rfl | hc
        · show k < a; omega
        · exact hk.1 c hc

theorem memStore_wf {m : Memory} (a : Nat) (bs : List Byte) (h : Memory.wf m) : Memory.wf (memStore m a bs) := by
  induction bs generalizing m a with
  | nil => exact h
  | cons b bs ih => exact ih (a + 1) (memSet_wf a b h)

theorem mem_memStore {m : Memory} {a : Nat} {bs : List Byte} {c : Host.Cell} (h : c ∈ memStore m a bs) :
    (a ≤ c.1 ∧ c.1 < a + bs.length) ∨ c ∈ m := by
  induction bs generalizing m a with
  | nil => exact .inr h
  | cons b bs ih =>
    rcases ih h with h | h
    · simp only [List.length_cons]; omega
    · rcases mem_memSet h with rfl | h
      · simp only [List.length_cons]; omega
      · exact .inr h

/-- What a store of bytes leaves at every address. -/
theorem memGet_memStore (m : Memory) (a : Nat) (bs : List Byte) (x : Nat) :
    memGet (memStore m a bs) x = if a ≤ x ∧ x < a + bs.length then bs[x - a]? else memGet m x := by
  induction bs generalizing m a with
  | nil => simp [memStore]
  | cons b bs ih =>
    simp only [memStore, ih (memSet m a b) (a + 1), List.length_cons]
    by_cases h1 : a + 1 ≤ x ∧ x < a + 1 + bs.length
    · obtain ⟨j, hj⟩ : ∃ j, x - a = j + 1 := ⟨x - a - 1, by omega⟩
      have : x - (a + 1) = j := by omega
      simp [h1, hj, this, show a ≤ x ∧ x < a + (bs.length + 1) by omega]
    · rw [if_neg h1, memGet_memSet m a x b]
      by_cases hx : x = a
      · simp [hx]
      · simp [hx, show ¬ (a ≤ x ∧ x < a + (bs.length + 1)) by omega]

theorem reset_mem_wf : Memory.wf State.reset.mem := List.Pairwise.nil

/-! Big-endian fields. -/

@[simp] theorem be32_length (v : Nat) : (be32 v).length = 4 := by simp [be32]

theorem beVal_four (a b c d : Byte) :
    beVal [a, b, c, d] = a.toNat * 2 ^ 24 + b.toNat * 2 ^ 16 + c.toNat * 2 ^ 8 + d.toNat := by
  simp only [beVal, List.foldl]; omega

theorem beVal_four_lt (a b c d : Byte) : beVal [a, b, c, d] < 2 ^ 32 := by
  rw [beVal_four]; have := a.isLt; have := b.isLt; have := c.isLt; have := d.isLt; omega

theorem beVal_be32 {v : Nat} (h : v < 2 ^ 32) : beVal (be32 v) = v := by
  simp only [be32, beVal_four, BitVec.toNat_ofNat]; omega

theorem be32_beVal (a b c d : Byte) : be32 (beVal [a, b, c, d]) = [a, b, c, d] := by
  rw [beVal_four]
  have := a.isLt; have := b.isLt; have := c.isLt; have := d.isLt
  simp only [be32, List.cons.injEq, and_true]
  refine ⟨?_, ?_, ?_, ?_⟩ <;> apply BitVec.eq_of_toNat_eq <;> simp only [BitVec.toNat_ofNat] <;> omega

/-- A list of four bytes is the field of its value. -/
theorem be32_beVal_of_length {bs : List Byte} (h : bs.length = 4) : be32 (beVal bs) = bs := by
  match bs, h with
  | [a, b, c, d], _ => exact be32_beVal a b c d

theorem beVal_lt_of_length {bs : List Byte} (h : bs.length = 4) : beVal bs < 2 ^ 32 := by
  match bs, h with
  | [a, b, c, d], _ => exact beVal_four_lt a b c d

theorem ofNat_beVal_eq_word4 (a b c d : Byte) : BitVec.ofNat 32 (beVal [a, b, c, d]) = word4 a b c d := by
  have hd : (d.setWidth 32).toNat < 2 ^ 8 := by simpa using Nat.lt_of_le_of_lt (Nat.mod_le _ _) d.isLt
  apply BitVec.eq_of_toNat_eq
  rw [beVal_four]
  have := a.isLt; have := b.isLt; have := c.isLt; have := d.isLt
  simp only [word4, BitVec.toNat_ofNat, BitVec.toNat_or, BitVec.toNat_shiftLeft, BitVec.toNat_setWidth, Nat.shiftLeft_eq]
  rw [Nat.mod_eq_of_lt (by omega : a.toNat < 2 ^ 32), Nat.mod_eq_of_lt (by omega : b.toNat < 2 ^ 32),
    Nat.mod_eq_of_lt (by omega : c.toNat < 2 ^ 32), Nat.mod_eq_of_lt (by omega : d.toNat < 2 ^ 32),
    Nat.mod_eq_of_lt (by omega : a.toNat * 2 ^ 24 < 2 ^ 32), Nat.mod_eq_of_lt (by omega : b.toNat * 2 ^ 16 < 2 ^ 32),
    Nat.mod_eq_of_lt (by omega : c.toNat * 2 ^ 8 < 2 ^ 32)]
  have e1 : a.toNat * 2 ^ 24 ||| b.toNat * 2 ^ 16 = a.toNat * 2 ^ 24 + b.toNat * 2 ^ 16 := by
    rw [Nat.mul_comm, Nat.two_pow_add_eq_or_of_lt (by omega)]
  have e2 : (a.toNat * 2 ^ 24 + b.toNat * 2 ^ 16) ||| c.toNat * 2 ^ 8 =
      a.toNat * 2 ^ 24 + b.toNat * 2 ^ 16 + c.toNat * 2 ^ 8 := by
    rw [show a.toNat * 2 ^ 24 + b.toNat * 2 ^ 16 = 2 ^ 16 * (a.toNat * 2 ^ 8 + b.toNat) by omega,
      Nat.two_pow_add_eq_or_of_lt (by omega)]
  have e3 : (a.toNat * 2 ^ 24 + b.toNat * 2 ^ 16 + c.toNat * 2 ^ 8) ||| d.toNat =
      a.toNat * 2 ^ 24 + b.toNat * 2 ^ 16 + c.toNat * 2 ^ 8 + d.toNat := by
    rw [show a.toNat * 2 ^ 24 + b.toNat * 2 ^ 16 + c.toNat * 2 ^ 8 =
        2 ^ 8 * (a.toNat * 2 ^ 16 + b.toNat * 2 ^ 8 + c.toNat) by omega,
      Nat.two_pow_add_eq_or_of_lt (by omega)]
  rw [e1, e2, e3, Nat.mod_eq_of_lt (by omega)]

end Sys2Proof.Machine
end

