-- ==== Sys2Proof/Laws/Ops.lean ====
section
/-! SUPPORT. What the shared operations do: completion, discarding, NotReady, running a unit,
    and the one shape of every command. -/

namespace Sys2Proof.Machine

/-! Completion (R272, R273). -/

theorem completeOk_eq_succeeded (s : State) : s.completeOk = s.succeeded := rfl

theorem completeErr_eq_failed (s : State) (f : Failure) : s.completeErr f = s.failed f.kind.code f.info f.stage := rfl

theorem discardWrites_eq_discarded (s : State) (i : Instr) : s.discardWrites i = s.discarded i := by
  cases i <;> rfl

@[simp] theorem complete_ok (s t : State) (i : Instr) : s.complete i (.ok t) = t.succeeded := rfl

@[simp] theorem complete_error (s : State) (i : Instr) (f : Failure) :
    s.complete i (.error f) = (s.discarded i).failed f.kind.code f.info f.stage := by
  rw [← discardWrites_eq_discarded]; rfl

@[simp] theorem finish_ok (i : Instr) (s t : State) : finish i s (.ok t) = .next t.succeeded := rfl

@[simp] theorem finish_error (i : Instr) (s : State) (f : Failure) :
    finish i s (.error f) = .next ((s.discarded i).failed f.kind.code f.info f.stage) := by
  simp [finish]

theorem errCode_bounds (k : ErrKind) : 1 ≤ k.code.toNat ∧ k.code.toNat ≤ 9 := by cases k <;> decide

/-! Running one unit (R251). -/

theorem runUnit_ok {i : Instr} {u : State → Except Raise State} {s t : State} (h : u s = .ok t) :
    runUnit i u s = .ok t := by simp [runUnit, h]

theorem runUnit_error {i : Instr} {u : State → Except Raise State} {s : State} {r : Raise} (h : u s = .error r) :
    runUnit i u s = .error ⟨r.kind, r.info, opcode i⟩ := by simp [runUnit, h]

theorem runUnit_eq_ok {i : Instr} {u : State → Except Raise State} {s t : State} :
    runUnit i u s = .ok t ↔ u s = .ok t := by
  unfold runUnit; cases u s <;> simp

theorem runUnit_eq_error {i : Instr} {u : State → Except Raise State} {s : State} {f : Failure} :
    runUnit i u s = .error f ↔ ∃ r, u s = .error r ∧ f = ⟨r.kind, r.info, opcode i⟩ := by
  unfold runUnit; cases u s <;> simp [eq_comm]

/-! NotReady (R274). -/

/-- The detail word of a failed `require`: the missing VALID bits. -/
theorem notReady_info (s : State) (rs : List WorkReg) (h : rs ∈ [[.ft], [.tree], [.ct], [.ft, .payload],
    [.ft, .ct, .payload], [.ct, .payload]]) :
    s.notReady rs = ⟨.notReady, BitVec.ofNat 32 (missingBits s rs)⟩ := by
  have e : ∀ r, s.holds r = match r with
      | .ft => s.ft.isSome | .tree => s.tree.isSome | .ct => s.ct.isSome
      | .payload => s.payload.isSome | .outBytes => s.outBytes.isSome | .outSyms => s.outSyms.isSome := by
    intro r; cases r <;> rfl
  unfold State.notReady State.validWord missingBits
  simp only [funext e]
  generalize s.ft.isSome = a, s.tree.isSome = b, s.ct.isSome = c, s.payload.isSome = d, s.outBytes.isSome = e',
      s.outSyms.isSome = f
  simp only [List.mem_cons, List.not_mem_nil, or_false] at h
  rcases h with rfl | rfl | rfl | rfl | rfl | rfl <;> revert a b c d e' f <;> decide

/-! The one shape of every command: it completes. -/

/-- What a command's steps gave, before completion. -/
def resultOf (i : Instr) (s : State) : Except Failure State :=
  match i with
  | .nop => .ok s
  | .freqAnalyze => runUnit .freqAnalyze freqAnalyze s
  | .treeBuild => runUnit .treeBuild treeBuild s
  | .codeDerive => runUnit .codeDerive codeDerive s
  | .bitPack => runUnit .bitPack bitPack s
  | .contSerialize => runUnit .contSerialize contSerialize s
  | .contDeserialize => runUnit .contDeserialize contDeserialize s
  | .payloadCheck => runUnit .payloadCheck payloadCheck s
  | .bitUnpack => runUnit .bitUnpack bitUnpack s
  | .compress => compressSteps s
  | .decompress => decompressSteps s

theorem exec_eq_finish (i : Instr) (s : State) : exec i s = finish i s (resultOf i s) := by cases i <;> rfl

/-- Everything a command can do: complete with success, or complete with failure after R273. -/
theorem exec_cases (i : Instr) (s : State) :
    (∃ t, resultOf i s = .ok t ∧ exec i s = .next t.succeeded) ∨
    (∃ f, resultOf i s = .error f ∧ exec i s = .next ((s.discarded i).failed f.kind.code f.info f.stage)) := by
  rw [exec_eq_finish]
  cases h : resultOf i s with
  | ok t => exact .inl ⟨t, rfl, rfl⟩
  | error f => exact .inr ⟨f, rfl, finish_error i s f⟩

theorem exec_of_ok {i : Instr} {s t : State} (h : resultOf i s = .ok t) : exec i s = .next t.succeeded := by
  rw [exec_eq_finish, h, finish_ok]

theorem exec_of_error {i : Instr} {s : State} {f : Failure} (h : resultOf i s = .error f) :
    exec i s = .next ((s.discarded i).failed f.kind.code f.info f.stage) := by
  rw [exec_eq_finish, h, finish_error]

/-- A command that completed without an error was successful. -/
theorem ok_of_exec {i : Instr} {s t : State} (h : exec i s = .next t) (he : t.status.err = false) :
    ∃ u, resultOf i s = .ok u ∧ t = u.succeeded := by
  rcases exec_cases i s with ⟨u, hu, hx⟩ | ⟨f, _, hx⟩
  · rw [hx] at h; exact ⟨u, hu, by injection h with h; exact h.symm⟩
  · rw [hx] at h; injection h with h; subst h; simp at he

/-- A command that completed with an error reports its failure. -/
theorem error_of_exec {i : Instr} {s t : State} (h : exec i s = .next t) (he : t.status.err = true) :
    ∃ f, resultOf i s = .error f ∧ t = (s.discarded i).failed f.kind.code f.info f.stage := by
  rcases exec_cases i s with ⟨u, _, hx⟩ | ⟨f, hf, hx⟩
  · rw [hx] at h; injection h with h; subst h; simp at he
  · rw [hx] at h; exact ⟨f, hf, by injection h with h; exact h.symm⟩

/-! Composition of a composite's steps (R251). -/

theorem andThen_eq_ok {r : Except Failure State} {g : State → Except Failure State} {t : State} :
    andThen r g = .ok t ↔ ∃ u, r = .ok u ∧ g u = .ok t := by
  unfold andThen; cases r <;> simp

theorem andThen_eq_error {r : Except Failure State} {g : State → Except Failure State} {f : Failure} :
    andThen r g = .error f ↔ r = .error f ∨ ∃ u, r = .ok u ∧ g u = .error f := by
  unfold andThen; cases r <;> simp

@[simp] theorem andThen_ok (u : State) (g : State → Except Failure State) : andThen (.ok u) g = g u := rfl

@[simp] theorem andThen_error (f : Failure) (g : State → Except Failure State) : andThen (.error f) g = .error f := rfl

end Sys2Proof.Machine
end

