-- ==== Sys2Proof/Laws/Bits.lean ====
section
/-! SUPPORT. Bit strings, bytes and padding (R181, R182): unpacking reverses packing, and the padded stream is whole bytes. -/

namespace Sys2Proof.Machine

@[simp] theorem bits8_length (b : Byte) : (bits8 b).length = 8 := by simp [bits8]

theorem bits8_ofNat_bitsVal (b7 b6 b5 b4 b3 b2 b1 b0 : Bool) :
    bits8 (BitVec.ofNat 8 (bitsVal [b7, b6, b5, b4, b3, b2, b1, b0])) = [b7, b6, b5, b4, b3, b2, b1, b0] := by
  revert b7 b6 b5 b4 b3 b2 b1 b0; decide

theorem bits8_injective {a b : Byte} (h : bits8 a = bits8 b) : a = b := by
  simp only [bits8, List.cons.injEq, and_true] at h
  apply BitVec.eq_of_getLsbD_eq
  intro i hi
  match i, hi with
  | 0, _ | 1, _ | 2, _ | 3, _ | 4, _ | 5, _ | 6, _ | 7, _ => simp_all

theorem ofNat_bitsVal_bits8 (b : Byte) : BitVec.ofNat 8 (bitsVal (bits8 b)) = b :=
  bits8_injective (bits8_ofNat_bitsVal _ _ _ _ _ _ _ _)

theorem toBytes_bits8_append (b : Byte) (s : Bits) : toBytes (bits8 b ++ s) = b :: toBytes s :=
  congrArg (· :: toBytes s) (ofNat_bitsVal_bits8 b)

/-- A bit string of whole bytes is what its bytes unpack to (R182). -/
theorem unpackBits_toBytes : ∀ (n : Nat) (s : Bits), s.length = 8 * n → unpackBits (toBytes s) = s ∧ (toBytes s).length = n
  | 0, s, h => by
    have : s = [] := List.length_eq_zero_iff.1 (by omega)
    subst this; simp [toBytes, unpackBits]
  | n + 1, b7 :: b6 :: b5 :: b4 :: b3 :: b2 :: b1 :: b0 :: rest, h => by
    obtain ⟨h1, h2⟩ := unpackBits_toBytes n rest (by simp only [List.length_cons] at h; omega)
    refine ⟨?_, by simp [toBytes, h2]⟩
    have : unpackBits (toBytes (b7 :: b6 :: b5 :: b4 :: b3 :: b2 :: b1 :: b0 :: rest)) =
        bits8 (BitVec.ofNat 8 (bitsVal [b7, b6, b5, b4, b3, b2, b1, b0])) ++ unpackBits (toBytes rest) := rfl
    rw [this, bits8_ofNat_bitsVal, h1]; rfl
  | n + 1, [], h | n + 1, [_], h | n + 1, [_, _], h | n + 1, [_, _, _], h | n + 1, [_, _, _, _], h
  | n + 1, [_, _, _, _, _], h | n + 1, [_, _, _, _, _, _], h | n + 1, [_, _, _, _, _, _, _], h => by
    simp only [List.length_cons, List.length_nil] at h; omega

@[simp] theorem unpackBits_cons (b : Byte) (bs : List Byte) : unpackBits (b :: bs) = bits8 b ++ unpackBits bs := rfl

theorem unpackBits_length (bs : List Byte) : (unpackBits bs).length = 8 * bs.length := by
  induction bs with
  | nil => rfl
  | cons b bs ih => rw [unpackBits_cons, List.length_append, ih, bits8_length, List.length_cons]; omega

theorem unpackBits_injective {a b : List Byte} (h : unpackBits a = unpackBits b) : a = b := by
  induction a generalizing b with
  | nil =>
    have := congrArg List.length h
    rw [unpackBits_length, unpackBits_length] at this
    exact (List.length_eq_zero_iff.1 (by simpa using this.symm)).symm
  | cons x a ih =>
    match b with
    | [] =>
      have := congrArg List.length h
      rw [unpackBits_length, unpackBits_length] at this; simp at this
    | y :: b =>
      rw [unpackBits_cons, unpackBits_cons] at h
      obtain ⟨h1, h2⟩ := List.append_inj h (by simp)
      rw [bits8_injective h1, ih h2]

/-! Padding (R181). -/

theorem padCount_le (n : Nat) : padCount n ≤ 7 := by unfold padCount; omega

theorem add_padCount_mod (n : Nat) : (n + padCount n) % 8 = 0 := by unfold padCount; omega

theorem paddedStream_length (p : Bits) : (paddedStream p).length = 8 + p.length + padCount p.length := by
  simp [paddedStream]; omega

/-- R182: the check of the byte conversion never fires. -/
theorem paddedStream_length_mod (p : Bits) : (paddedStream p).length % 8 = 0 := by
  have := add_padCount_mod p.length
  rw [paddedStream_length]; omega

theorem packBits_unpack (p : Bits) : unpackBits (packBits p) = paddedStream p :=
  (unpackBits_toBytes ((paddedStream p).length / 8) _ (by have := paddedStream_length_mod p; omega)).1

theorem packBits_length (p : Bits) : (packBits p).length = (8 + p.length + padCount p.length) / 8 := by
  have h := (unpackBits_toBytes ((paddedStream p).length / 8) (paddedStream p)
    (by have := paddedStream_length_mod p; omega)).2
  rw [paddedStream_length] at h; exact h

/-- The packed buffer: its first byte is the padding count, and the rest unpacks to the payload and the padding (R183). -/
theorem packBits_eq_cons (p : Bits) : ∃ rest, packBits p = BitVec.ofNat 8 (padCount p.length) :: rest ∧
    unpackBits rest = p ++ List.replicate (padCount p.length) false := by
  refine ⟨toBytes (p ++ List.replicate (padCount p.length) false), ?_, ?_⟩
  · unfold packBits paddedStream
    rw [List.append_assoc]; exact toBytes_bits8_append _ _
  · refine (unpackBits_toBytes ((p.length + padCount p.length) / 8) _ ?_).1
    have := add_padCount_mod p.length
    rw [List.length_append, List.length_replicate]; omega

theorem padCount_toNat (n : Nat) : (BitVec.ofNat 8 (padCount n)).toNat = padCount n := by
  have := padCount_le n
  rw [BitVec.toNat_ofNat]; omega

/-- The payload bits of a packed buffer are the payload (R232). -/
theorem payloadBits_pack {p : Bits} {rest : List Byte} (h : unpackBits rest = p ++ List.replicate (padCount p.length) false) :
    payloadBits (padCount p.length) rest = p := by
  have hl := congrArg List.length h
  rw [unpackBits_length, List.length_append, List.length_replicate] at hl
  unfold payloadBits
  rw [h, hl, Nat.add_sub_cancel, List.take_left']
  rfl

/-! Codes as numbers (R68). -/

theorem bitsVal_append_one (s : Bits) (b : Bool) : bitsVal (s ++ [b]) = 2 * bitsVal s + b.toNat := by
  simp only [bitsVal, List.foldl_append, List.foldl_cons, List.foldl_nil]; omega

theorem bitsVal_lt (s : Bits) : bitsVal s < 2 ^ s.length := by
  induction s using List.reverseRecOn with
  | nil => simp [bitsVal]
  | append_singleton s b ih =>
    have := b.toNat_le
    rw [bitsVal_append_one, List.length_append, List.length_singleton, Nat.pow_succ]; omega

theorem codeNumber_eq_bitsVal (s : Bits) : codeNumber s = bitsVal s := by
  induction s using List.reverseRecOn with
  | nil => rfl
  | append_singleton s b ih =>
    rw [bitsVal_append_one, ← ih]
    unfold codeNumber
    rw [List.length_append, List.length_singleton, List.range_succ, List.map_append, List.sum_append, List.map_singleton,
      List.sum_singleton]
    congr 1
    · rw [← List.sum_map_mul_left]
      congr 1
      apply List.map_congr_left
      intro k hk
      have hk := List.mem_range.1 hk
      rw [List.getElem?_append_left hk]
      split
      · rw [← Nat.pow_succ']; congr 1; omega
      · rfl
    · cases b <;> simp

end Sys2Proof.Machine
end

