-- ==== Sys2Proof/Laws/Bus.lean ====
section
/-! SUPPORT. Everything a host access can do (R65, R310, R311), said once, and what it does to the input RAMs. -/

namespace Sys2Proof.Machine

theorem aligned_iff (a : Word) : aligned a = true ↔ a.toNat % 4 = 0 := by simp [aligned]

theorem isBusy_iff (s : State) : s.isBusy = true ↔ s.phase ≠ .idle := by
  unfold State.isBusy; cases s.phase <;> simp

theorem isBusy_eq_false_iff (s : State) : s.isBusy = false ↔ s.phase = .idle := by
  unfold State.isBusy; cases s.phase <;> simp

/-! Addresses. -/

theorem regionOf_regs_iff (a : Word) : regionOf a = .regs ↔ a.toNat < 2 ^ 28 := by
  unfold regionOf
  constructor
  · intro h; split at h <;> first | omega | cases h
  · intro h; have : a.toNat / 2 ^ 28 = 0 := by omega
    rw [this]; rfl

theorem regionOf_inSyms_iff (a : Word) : regionOf a = .inSyms ↔ 0x10000000 ≤ a.toNat ∧ a.toNat < 0x20000000 := by
  unfold regionOf
  constructor
  · intro h; split at h <;> first | omega | cases h
  · intro h; have : a.toNat / 2 ^ 28 = 1 := by omega
    rw [this]; rfl

theorem regionOf_inBytes_iff (a : Word) : regionOf a = .inBytes ↔ 0x20000000 ≤ a.toNat ∧ a.toNat < 0x30000000 := by
  unfold regionOf
  constructor
  · intro h; split at h <;> first | omega | cases h
  · intro h; have : a.toNat / 2 ^ 28 = 2 := by omega
    rw [this]; rfl

theorem toNat_ofNat_of_lt {n : Nat} (h : n < 2 ^ 32) : (BitVec.ofNat 32 n).toNat = n := by
  rw [BitVec.toNat_ofNat, Nat.mod_eq_of_lt h]

theorem windowOffset_ofNat {base k : Nat} (hb : base % 2 ^ 28 = 0) (h : base + k < 2 ^ 32) (hk : k < 2 ^ 28) :
    windowOffset (BitVec.ofNat 32 (base + k)) = k := by
  unfold windowOffset; rw [toNat_ofNat_of_lt h]; omega

/-! Reads (R65, R311). -/

/-- Everything a read can do. It appends one word to the answers. -/
theorem busRead_cases (s : State) (a : Word) :
    (a.toNat % 4 ≠ 0 ∧ s.busRead a = s.setBusErr.answer 0) ∨
    (a.toNat % 4 = 0 ∧ s.phase ≠ .idle ∧ hiddenWhileBusy a = true ∧
      s.busRead a = { s.answer (Config.freeRead s.draws) with draws := s.draws + 1 }) ∨
    (a.toNat % 4 = 0 ∧ (s.phase = .idle ∨ hiddenWhileBusy a = false) ∧ s.busRead a = s.answer (s.busValue a)) := by
  unfold State.busRead
  split
  · rename_i h
    rw [aligned_iff] at h
    split
    · rename_i hb
      rw [Bool.and_eq_true, isBusy_iff] at hb
      exact .inr (.inl ⟨h, hb.1, hb.2, rfl⟩)
    · rename_i hb
      rw [Bool.and_eq_true, not_and_or, Bool.not_eq_true, isBusy_eq_false_iff, Bool.not_eq_true] at hb
      exact .inr (.inr ⟨h, hb, rfl⟩)
  · rename_i h
    rw [aligned_iff] at h
    exact .inl ⟨h, rfl⟩

/-- A read changes nothing but BUSERR, the draw counter and the answers. -/
theorem busRead_frame (s : State) (a : Word) :
    { s.busRead a with status := s.status, draws := s.draws, reads := s.reads } = s ∧
    (s.busRead a).status = { s.status with busErr := (s.busRead a).status.busErr } ∧
    (s.status.busErr = true → (s.busRead a).status.busErr = true) := by
  rcases busRead_cases s a with ⟨_, h⟩ | ⟨_, _, _, h⟩ | ⟨_, _, h⟩ <;> rw [h] <;>
    simp [State.setBusErr, State.answer]

/-! Writes (R33, R38, R62, R63, R65, R310). -/

/-- Everything a write can do. -/
theorem busWrite_cases (s : State) (a v : Word) :
    (s.writeEffective a = false ∧ s.busWrite a v = s.setBusErr) ∨
    (s.writeEffective a = true ∧ isCtrl a = true ∧ s.busWrite a v = s.writeCtrl v) ∨
    (s.writeEffective a = true ∧ isCtrl a = false ∧ s.phase ≠ .idle ∧ s.busWrite a v = s.setOverrun) ∨
    (s.writeEffective a = true ∧ isCtrl a = false ∧ s.phase = .idle ∧ s.busWrite a v = s.writeIdle a v) := by
  unfold State.busWrite
  cases he : s.writeEffective a
  · simp
  · cases hc : isCtrl a
    · cases hb : s.isBusy
      · have := (isBusy_eq_false_iff s).1 hb; simp [this]
      · have := (isBusy_iff s).1 hb; simp [this]
    · simp

/-- CMD is at 0x08 and nowhere else (R32). -/
theorem regAt_cmd {off : Nat} (h : regAt off = some .cmd) : off = 8 := by
  have key : ∀ x ∈ registerMap, x.2 = HostReg.cmd → x.1 = 8 := by decide
  obtain ⟨l1, l2, e, _⟩ := List.lookup_eq_some_iff.1 h
  exact key (off, .cmd) (by rw [e]; simp) rfl

/-- Everything an effective write in IDLE to anything but CTRL can do. -/
theorem writeIdle_cases (s : State) (a v : Word) :
    (a = 0x08 ∧ s.writeIdle a v = s.accept v) ∨ s.writeIdle a v = { s with inSymLen := v } ∨
    s.writeIdle a v = { s with inByteLen := v } ∨ s.writeIdle a v = s ∨
    (regionOf a ≠ .regs ∧ s.writeIdle a v = s.writeRam a v) := by
  unfold State.writeIdle
  split
  · rename_i hr
    split
    · rename_i hc
      refine .inl ⟨BitVec.eq_of_toNat_eq ?_, rfl⟩
      have h28 := (regionOf_regs_iff a).1 hr
      have h8 := regAt_cmd hc
      simp only [windowOffset] at h8
      simp
      omega
    all_goals simp
  · rename_i h
    exact .inr (.inr (.inr (.inr ⟨h, rfl⟩)))

/-- Everything a CTRL write can do. -/
theorem writeCtrl_cases (s : State) (v : Word) :
    (v.getLsbD 0 = true ∧ s.writeCtrl v = s.softReset) ∨
    (v.getLsbD 0 = false ∧ s.writeCtrl v =
      { s with
        irqEn := v.getLsbD 1
        status := { s.status with
          done := s.status.done && !v.getLsbD 2
          busErr := s.status.busErr && !v.getLsbD 3
          overrun := s.status.overrun && !v.getLsbD 3 } }) := by
  unfold State.writeCtrl
  cases h : v.getLsbD 0 <;> simp

/-- A write to the input RAMs changes nothing but them. -/
theorem writeRam_frame (s : State) (a v : Word) : { s.writeRam a v with mem := s.mem } = s := rfl

theorem be32_take_length (v n : Nat) : ((be32 v).take n).length = min n 4 := by
  rw [List.length_take, be32_length]

/-- An effective write to the input RAMs writes within their ranges. -/
theorem writeRam_range {s : State} {a v : Word} (he : s.writeEffective a = true) (hr : regionOf a ≠ .regs) {x : Host.Cell}
    (hx : x ∈ (s.writeRam a v).mem) : ramAddr s.caps x.1 ∨ x ∈ s.mem := by
  unfold State.writeEffective at he
  rw [Bool.and_eq_true, aligned_iff] at he
  obtain ⟨h4, he⟩ := he
  rcases mem_memStore hx with h | h
  · left
    rw [be32_take_length] at h
    cases hreg : regionOf a <;> simp only [hreg] at he hr h
    case regs => simp at hr
    case inSyms =>
      have := (regionOf_inSyms_iff a).1 hreg
      have he := of_decide_eq_true he
      simp only [windowOffset] at he
      simp at h
      left; omega
    case inBytes =>
      have := (regionOf_inBytes_iff a).1 hreg
      have he := of_decide_eq_true he
      simp only [windowOffset] at he
      simp only [windowOffset, if_true] at h
      right; omega
    all_goals simp at he
  · exact .inr h

theorem writeRam_wf {s : State} (a v : Word) (h : Memory.wf s.mem) : Memory.wf (s.writeRam a v).mem :=
  memStore_wf _ _ h

/-- No write breaks the canonical form of the input RAMs. -/
theorem busWrite_mem_wf {s : State} (a v : Word) (h : Memory.wf s.mem) : Memory.wf (s.busWrite a v).mem := by
  rcases busWrite_cases s a v with ⟨_, e⟩ | ⟨_, _, e⟩ | ⟨_, _, _, e⟩ | ⟨_, _, _, e⟩ <;> rw [e]
  · exact h
  · rcases writeCtrl_cases s v with ⟨_, e⟩ | ⟨_, e⟩ <;> rw [e] <;> exact h
  · exact h
  · rcases writeIdle_cases s a v with ⟨_, e⟩ | e | e | e | ⟨_, e⟩ <;> rw [e]
    · exact h
    · exact h
    · exact h
    · exact h
    · exact writeRam_wf a v h

theorem busRead_mem (s : State) (a : Word) : (s.busRead a).mem = s.mem := by
  have h := congrArg State.mem (busRead_frame s a).1
  exact h

/-- No write changes a capacity. -/
theorem busWrite_caps (s : State) (a v : Word) : (s.busWrite a v).caps = s.caps := by
  rcases busWrite_cases s a v with ⟨_, e⟩ | ⟨_, _, e⟩ | ⟨_, _, _, e⟩ | ⟨_, _, _, e⟩ <;> rw [e]
  · rfl
  · rcases writeCtrl_cases s v with ⟨_, e⟩ | ⟨_, e⟩ <;> rw [e] <;> rfl
  · rfl
  · rcases writeIdle_cases s a v with ⟨_, e⟩ | e | e | e | ⟨_, e⟩ <;> rw [e] <;> rfl

theorem busRead_caps (s : State) (a : Word) : (s.busRead a).caps = s.caps := by
  have h := congrArg State.caps (busRead_frame s a).1
  exact h

/-! The register map and the windows (R32, R61, R65, R311). -/

theorem regAt_writable {off : Nat} :
    (regAt off).any HostReg.writable = true ↔ off = 4 ∨ off = 8 ∨ off = 0x18 ∨ off = 0x1C := by
  constructor
  · intro h
    unfold regAt at h
    cases hl : registerMap.lookup off with
    | none => rw [hl] at h; cases h
    | some r =>
      rw [hl] at h
      have : (off, r) ∈ registerMap := by
        obtain ⟨l1, l2, e, _⟩ := List.lookup_eq_some_iff.1 hl
        rw [e]; simp
      simp [registerMap] at this
      rcases this with ⟨rfl, rfl⟩ | this
      · simp [HostReg.writable] at h
      · simp at h
        have key : ∀ x ∈ registerMap, x.2.writable = true → x.1 = 4 ∨ x.1 = 8 ∨ x.1 = 0x18 ∨ x.1 = 0x1C := by decide
        obtain ⟨l1, l2, e, _⟩ := List.lookup_eq_some_iff.1 hl
        exact key (off, r) (by rw [e]; simp) h
  · rintro (rfl | rfl | rfl | rfl) <;> decide

/-- Where an address lies. -/
theorem regionOf_cases (a : Word) :
    (regionOf a = .regs ∧ a.toNat < 0x10000000 ∧ windowOffset a = a.toNat) ∨
    (regionOf a = .inSyms ∧ 0x10000000 ≤ a.toNat ∧ a.toNat < 0x20000000 ∧ windowOffset a = a.toNat - 0x10000000) ∨
    (regionOf a = .inBytes ∧ 0x20000000 ≤ a.toNat ∧ a.toNat < 0x30000000 ∧ windowOffset a = a.toNat - 0x20000000) ∨
    (regionOf a = .reserved ∧ 0x90000000 ≤ a.toNat) ∨
    (regionOf a ≠ .regs ∧ regionOf a ≠ .inSyms ∧ regionOf a ≠ .inBytes ∧ regionOf a ≠ .reserved ∧
        (regionOf a).hiddenWhileBusy = true ∧ 0x30000000 ≤ a.toNat ∧ a.toNat < 0x90000000) := by
  have := a.isLt
  unfold windowOffset regionOf
  split <;> simp [Region.hiddenWhileBusy] <;> (try simp only [imp_false] at *) <;> omega

/-- R65: the writes that have an effect. -/
theorem writeEffective_iff (s : State) (a : Word) : s.writeEffective a = true ↔ a.toNat % 4 = 0 ∧
    ((a.toNat = 4 ∨ a.toNat = 8 ∨ a.toNat = 0x18 ∨ a.toNat = 0x1C) ∨
     (0x10000000 ≤ a.toNat ∧ a.toNat < 0x10000000 + 4 * s.caps.inSym ∧ a.toNat < 0x20000000) ∨
      (0x20000000 ≤ a.toNat ∧ a.toNat < 0x20000000 + s.caps.inByte ∧ a.toNat < 0x30000000)) := by
  unfold State.writeEffective
  rw [Bool.and_eq_true, aligned_iff]
  apply and_congr_right
  intro h4
  rcases regionOf_cases a with ⟨h, h1, h2⟩ | ⟨h, h1, h1', h2⟩ | ⟨h, h1, h1', h2⟩ | ⟨h, h1⟩ | ⟨n1, n2, n3, n4, _, h1, h2⟩
  · simp only [h]; rw [regAt_writable, h2]; omega
  · simp only [h, decide_eq_true_eq, h2]; omega
  · simp only [h, decide_eq_true_eq, h2]; omega
  · simp only [h]; simp; omega
  · constructor
    · intro h; split at h <;> simp_all
    · omega

theorem writeEffective_dead (s : State) (a : Word)
    (h : a.toNat % 4 ≠ 0 ∨ deadAddress s.caps a.toNat) : s.writeEffective a = false := by
  rw [← Bool.not_eq_true, writeEffective_iff]
  unfold deadAddress at h
  omega

theorem busWrite_dead (s : State) (a v : Word)
    (h : a.toNat % 4 ≠ 0 ∨ deadAddress s.caps a.toNat) : s.busWrite a v = { s with status := { s.status with busErr :=
    true } } := by
  unfold State.busWrite; rw [writeEffective_dead s a h]; rfl

theorem isCtrl_iff (a : Word) : isCtrl a = true ↔ a.toNat = 4 := by
  constructor
  · intro h
    unfold isCtrl at h
    simp only [Bool.and_eq_true, beq_iff_eq] at h
    obtain ⟨h1, h2⟩ := h
    have h1' := (regionOf_regs_iff a).1 h1
    have key : ∀ x ∈ registerMap, x.2 = HostReg.ctrl → x.1 = 4 := by decide
    unfold regAt at h2
    obtain ⟨l1, l2, e, _⟩ := List.lookup_eq_some_iff.1 h2
    have := key (windowOffset a, .ctrl) (by rw [e]; simp) rfl
    simp only [windowOffset] at this; omega
  · intro h
    have : a = 4 := by apply BitVec.eq_of_toNat_eq; simpa using h
    subst this; decide

theorem regAt_none {off : Nat} (h : 0x5C ≤ off) : regAt off = none := by
  unfold regAt
  rw [List.lookup_eq_none_iff]
  have key : ∀ x ∈ registerMap, x.1 < 0x5C := by decide
  intro x hx; have := key x hx; simp; omega

theorem hiddenWhileBusy_iff (a : Word) (h4 : a.toNat % 4 = 0) : hiddenWhileBusy a = true ↔ unspecifiedWhileBusy a.toNat := by
  unfold hiddenWhileBusy unspecifiedWhileBusy
  rcases regionOf_cases a with ⟨h0, h1, h2⟩ | ⟨h0, h1, h1', h2⟩ | ⟨h0, h1, h1', h2⟩ | ⟨h0, h1⟩ | ⟨n1, n2, n3, n4, hh, h1, h2⟩
  · rw [h0, h2]
    simp only [Region.hiddenWhileBusy, Bool.false_or, beq_self_eq_true, Bool.true_and]
    by_cases hs : a.toNat < 0x5C
    · have key : ∀ n < 0x5C, n % 4 = 0 → ((regAt n).any HostReg.hiddenWhileBusy = true ↔ n = 0x10 ∨ n = 0x14 ∨ (0x20 ≤ n ∧
        n ≤ 0x40)) := by decide
      rw [key _ hs h4]; omega
    · rw [regAt_none (by omega)]; simp; omega
  · rw [h0]; simp [Region.hiddenWhileBusy]; omega
  · rw [h0]; simp [Region.hiddenWhileBusy]; omega
  · rw [h0]; simp [Region.hiddenWhileBusy]; omega
  · rw [hh]; simp; omega

/-- The range and the offset of an address given as a range number and an offset. -/
theorem regionOf_ofNat {b k : Nat} (hb : b < 16) (hk : k < 2 ^ 28) :
    regionOf (BitVec.ofNat 32 (b * 2 ^ 28 + k)) = (match b with
      | 0 => .regs | 1 => .inSyms | 2 => .inBytes | 3 => .outBytes | 4 => .outSyms | 5 => .payload | 6 => .ft | 7 => .tree
      | 8 => .ct | _ => .reserved) ∧
    windowOffset (BitVec.ofNat 32 (b * 2 ^ 28 + k)) = k := by
  unfold regionOf windowOffset
  rw [toNat_ofNat_of_lt (by omega), show (b * 2 ^ 28 + k) / 2 ^ 28 = b by omega]
  exact ⟨rfl, by omega⟩

/-- What a store to the RAMs leaves at every address. -/
theorem ramByte_memStore (s : State) (a : Nat) (bs : List Byte) (x : Nat) :
    ({ s with mem := memStore s.mem a bs } : State).ramByte x =
      if a ≤ x ∧ x < a + bs.length then (bs[x - a]?).getD (Config.powerOnByte x) else s.ramByte x := by
  unfold State.ramByte
  simp only [memGet_memStore]
  split <;> rfl

theorem ramWord_toNat (s : State) (a : Nat) : (s.ramWord a).toNat = beVal [s.ramByte a, s.ramByte (a + 1), s.ramByte (a + 2),
    s.ramByte (a + 3)] := by
  unfold State.ramWord
  rw [toNat_ofNat_of_lt (beVal_four_lt ..)]

/-- A write to the RAMs in IDLE. -/
theorem busWrite_ram (s : State) (a v : Word) (hp : s.phase = .idle) (he : s.writeEffective a = true)
    (hr : regionOf a ≠ .regs) : s.busWrite a v = s.writeRam a v := by
  have hc : isCtrl a = false := by
    unfold isCtrl
    have : (regionOf a == Region.regs) = false := by simpa using hr
    rw [this]; rfl
  unfold State.busWrite
  rw [he, hc, (isBusy_eq_false_iff s).2 hp]
  simp only [if_true, if_false, Bool.false_eq_true]
  unfold State.writeIdle
  split
  · rename_i h; exact absurd h hr
  · rfl

/-! The host's turn (R96). -/

/-- Bit 0 of the word STATUS reads as is BUSY (R34), in either phase. -/
theorem busValue_status_bit0 (s : State) : (s.busValue statusAddr).getLsbD 0 = s.isBusy := by
  show s.statusWord.getLsbD 0 = s.isBusy
  unfold State.statusWord
  cases s.isBusy <;> simp

/-- A read of STATUS returns its word in either phase (R311). -/
theorem busRead_status (s : State) : s.busRead statusAddr = s.answer (s.busValue statusAddr) := by
  rcases busRead_cases s statusAddr with ⟨h, _⟩ | ⟨_, _, h, _⟩ | ⟨_, _, h⟩
  · exact absurd rfl h
  · exact absurd h (by decide)
  · exact h

/-- Everything the host's turn can do. -/
theorem hostStep_cases (s : State) :
    (s.bus = [] ∧ s.hostStep = s) ∨
    (∃ a rest, s.bus = .read a :: rest ∧ s.hostStep = { s with bus := rest }.busRead a) ∨
    (∃ a v rest, s.bus = .write a v :: rest ∧ s.hostStep = { s with bus := rest }.busWrite a v) ∨
    (∃ rest, s.bus = .wait :: rest ∧ s.phase ≠ .idle ∧ s.hostStep = s.busRead statusAddr) ∨
    (∃ rest, s.bus = .wait :: rest ∧ s.phase = .idle ∧ s.hostStep = { s with bus := rest }.busRead statusAddr) := by
  unfold State.hostStep
  split
  · rename_i h; exact .inl ⟨h, rfl⟩
  · rename_i a rest h; exact .inr (.inl ⟨a, rest, h, rfl⟩)
  · rename_i a v rest h; exact .inr (.inr (.inl ⟨a, v, rest, h, rfl⟩))
  · rename_i rest h
    cases hb : s.isBusy
    · exact .inr (.inr (.inr (.inr ⟨rest, h, (isBusy_eq_false_iff s).1 hb, by simp⟩)))
    · exact .inr (.inr (.inr (.inl ⟨rest, h, (isBusy_iff s).1 hb, by simp⟩)))

theorem hostStep_mem_wf {s : State} (h : Memory.wf s.mem) : Memory.wf s.hostStep.mem := by
  rcases hostStep_cases s with ⟨_, e⟩ | ⟨a, rest, _, e⟩ | ⟨a, v, rest, _, e⟩ | ⟨rest, _, _, e⟩ | ⟨rest, _, _, e⟩ <;> rw [e]
  · exact h
  · rw [busRead_mem]; exact h
  · exact busWrite_mem_wf (s := { s with bus := rest }) a v h
  · rw [busRead_mem]; exact h
  · rw [busRead_mem]; exact h

theorem hostStep_caps (s : State) : s.hostStep.caps = s.caps := by
  rcases hostStep_cases s with ⟨_, e⟩ | ⟨a, rest, _, e⟩ | ⟨a, v, rest, _, e⟩ | ⟨rest, _, _, e⟩ | ⟨rest, _, _, e⟩ <;> rw [e]
  · rw [busRead_caps]
  · rw [busWrite_caps]
  · rw [busRead_caps]
  · rw [busRead_caps]

end Sys2Proof.Machine
end

