-- ==== Sys2Proof/Laws/Frequency.lean ====
section
/-! SUPPORT. The frequency table of a sequence (R120, R121, R23): its counts, its order, and that counts determine it. -/

namespace Sys2Proof.Machine

/-! Counts. -/

@[simp] theorem tableCount_nil (y : Nat) : tableCount [] y = 0 := rfl

theorem tableCount_cons (e : FtEntry) (ft : FreqTable) (y : Nat) :
    tableCount (e :: ft) y = (if e.sym = y then e.count else 0) + tableCount ft y := by
  unfold tableCount
  by_cases h : e.sym = y <;> simp [h]

theorem tableCount_countSym (ft : FreqTable) (x y : Nat) :
    tableCount (countSym ft x) y = tableCount ft y + if x = y then 1 else 0 := by
  induction ft with
  | nil => simp [countSym, tableCount_cons]
  | cons e ft ih =>
    unfold countSym
    split
    · simp only [tableCount_cons]; omega
    · split
      · rename_i _ h; subst h
        by_cases hy : e.sym = y
        · simp [tableCount_cons, hy]; omega
        · simp [tableCount_cons, hy]
      · rw [tableCount_cons, ih, tableCount_cons]; omega

theorem tableCount_foldl (xs : List Nat) (ft : FreqTable) (y : Nat) :
    tableCount (xs.foldl countSym ft) y = tableCount ft y + xs.count y := by
  induction xs generalizing ft with
  | nil => simp
  | cons x xs ih => rw [List.foldl_cons, ih, tableCount_countSym, List.count_cons]; simp; omega

theorem tableCount_freqTable (xs : List Nat) (y : Nat) : tableCount (freqTable xs) y = xs.count y := by
  simp [freqTable, tableCount_foldl]

theorem countSum_cons (e : FtEntry) (ft : FreqTable) : countSum (e :: ft) = e.count + countSum ft := by simp [countSum]

theorem countSum_countSym (ft : FreqTable) (x : Nat) : countSum (countSym ft x) = countSum ft + 1 := by
  induction ft with
  | nil => simp [countSym, countSum]
  | cons e ft ih =>
    unfold countSym
    split
    · simp only [countSum_cons]; omega
    · split
      · simp only [countSum_cons]; omega
      · rw [countSum_cons, ih, countSum_cons]; omega

theorem countSum_freqTable (xs : List Nat) : countSum (freqTable xs) = xs.length := by
  have : ∀ ft, countSum (xs.foldl countSym ft) = countSum ft + xs.length := by
    induction xs with
    | nil => simp
    | cons x xs ih => intro ft; rw [List.foldl_cons, ih, countSum_countSym, List.length_cons]; omega
  have h := this []
  simpa [freqTable, countSum] using h

/-! Order. -/

theorem mem_countSym {ft : FreqTable} {x : Nat} {e : FtEntry} (h : e ∈ countSym ft x) :
    e ∈ ft ∨ (e.sym = x ∧ 1 ≤ e.count) := by
  induction ft with
  | nil => simp only [countSym, List.mem_singleton] at h; subst h; simp
  | cons d ft ih =>
    unfold countSym at h
    split at h
    · rcases List.mem_cons.1 h with rfl | h
      · simp
      · exact .inl h
    · split at h
      · rcases List.mem_cons.1 h with rfl | h
        · simp
        · exact .inl (List.mem_cons_of_mem _ h)
      · rcases List.mem_cons.1 h with rfl | h
        · simp
        · rcases ih h with h | h
          · exact .inl (List.mem_cons_of_mem _ h)
          · exact .inr h

theorem countSym_ascends {ft : FreqTable} (x : Nat) (h : ft.Pairwise (fun a b => a.sym < b.sym)) :
    (countSym ft x).Pairwise (fun a b => a.sym < b.sym) := by
  induction ft with
  | nil => simp [countSym]
  | cons e ft ih =>
    have he := List.pairwise_cons.1 h
    unfold countSym
    split
    · rename_i hlt
      refine List.pairwise_cons.2 ⟨fun d hd => ?_, h⟩
      rcases List.mem_cons.1 hd with rfl | hd
      · exact hlt
      · exact Nat.lt_trans hlt (he.1 d hd)
    · split
      · rename_i _ heq
        exact List.pairwise_cons.2 ⟨fun d hd => by have := he.1 d hd; simp only; omega, he.2⟩
      · rename_i h1 h2
        refine List.pairwise_cons.2 ⟨fun d hd => ?_, ih he.2⟩
        rcases mem_countSym hd with hd | hd
        · exact he.1 d hd
        · omega

theorem freqTable_ascends (xs : List Nat) : (freqTable xs).Pairwise (fun a b => a.sym < b.sym) := by
  have : ∀ ft : FreqTable, ft.Pairwise (fun a b => a.sym < b.sym) →
      (xs.foldl countSym ft).Pairwise (fun a b => a.sym < b.sym) := by
    induction xs with
    | nil => intro ft h; exact h
    | cons x xs ih => intro ft h; exact ih _ (countSym_ascends x h)
  exact this [] List.Pairwise.nil

theorem mem_foldl_countSym {xs : List Nat} {ft : FreqTable} {e : FtEntry} (h : e ∈ xs.foldl countSym ft) :
    e ∈ ft ∨ (e.sym ∈ xs ∧ 1 ≤ e.count) := by
  induction xs generalizing ft with
  | nil => exact .inl h
  | cons x xs ih =>
    rcases ih h with h | h
    · rcases mem_countSym h with h | ⟨h1, h2⟩
      · exact .inl h
      · exact .inr ⟨by simp [h1], h2⟩
    · exact .inr ⟨List.mem_cons_of_mem _ h.1, h.2⟩

theorem mem_freqTable {xs : List Nat} {e : FtEntry} (h : e ∈ freqTable xs) : e.sym ∈ xs ∧ 1 ≤ e.count :=
  (mem_foldl_countSym h).resolve_left (by simp)

/-! In an ascending table an entry is its symbol's count. -/

theorem tableCount_of_lt {ft : FreqTable} {y : Nat} (h : ∀ e ∈ ft, y < e.sym) : tableCount ft y = 0 := by
  induction ft with
  | nil => rfl
  | cons e ft ih =>
    have := h e List.mem_cons_self
    rw [tableCount_cons, ih (fun d hd => h d (List.mem_cons_of_mem _ hd)), if_neg (by omega)]

theorem tableCount_of_mem {ft : FreqTable} {e : FtEntry} (h : ft.Pairwise (fun a b => a.sym < b.sym)) (he : e ∈ ft) :
    tableCount ft e.sym = e.count := by
  induction ft with
  | nil => simp at he
  | cons d ft ih =>
    have hd := List.pairwise_cons.1 h
    rw [tableCount_cons]
    rcases List.mem_cons.1 he with rfl | he
    · rw [if_pos rfl, tableCount_of_lt hd.1]; omega
    · have := hd.1 e he
      rw [if_neg (by omega), ih hd.2 he]; omega

theorem exists_mem_of_tableCount {ft : FreqTable} {x : Nat} (h : tableCount ft x ≠ 0) : ∃ e ∈ ft, e.sym = x := by
  induction ft with
  | nil => simp at h
  | cons d ft ih =>
    rw [tableCount_cons] at h
    by_cases hd : d.sym = x
    · exact ⟨d, List.mem_cons_self, hd⟩
    · rw [if_neg hd] at h
      obtain ⟨e, he, hx⟩ := ih (by omega)
      exact ⟨e, List.mem_cons_of_mem _ he, hx⟩

/-- The entries of a sequence's frequency table: the symbols that occur, with their numbers of occurrences. -/
theorem mem_freqTable_iff (xs : List Nat) (x c : Nat) : ⟨x, c⟩ ∈ freqTable xs ↔ 1 ≤ c ∧ c = xs.count x := by
  constructor
  · intro h
    have := tableCount_of_mem (freqTable_ascends xs) h
    rw [tableCount_freqTable] at this
    exact ⟨(mem_freqTable h).2, this.symm⟩
  · rintro ⟨h1, rfl⟩
    obtain ⟨e, he, rfl⟩ := exists_mem_of_tableCount (ft := freqTable xs) (x := x) (by rw [tableCount_freqTable]; omega)
    have := tableCount_of_mem (freqTable_ascends xs) he
    rw [tableCount_freqTable] at this
    rw [this]; exact he

/-- An ascending table is determined by its entries. -/
theorem eq_of_same_entries {ft ft' : FreqTable} (h : ft.Pairwise (fun a b => a.sym < b.sym))
    (h' : ft'.Pairwise (fun a b => a.sym < b.sym)) (hm : ∀ e, e ∈ ft ↔ e ∈ ft') : ft = ft' := by
  have nd : ∀ {l : FreqTable}, l.Pairwise (fun a b => a.sym < b.sym) → l.Nodup := fun hl =>
    hl.imp (fun hab heq => by rw [heq] at hab; exact Nat.lt_irrefl _ hab)
  have hp := (List.perm_ext_iff_of_nodup (nd h) (nd h')).2 hm
  exact hp.eq_of_pairwise (fun a b _ _ hab hba => absurd hab (Nat.lt_asymm hba)) h h'

/-- R121: the table depends only on how often each symbol occurs. -/
theorem freqTable_of_perm {xs ys : List Nat} (h : xs.Perm ys) : freqTable xs = freqTable ys :=
  eq_of_same_entries (freqTable_ascends xs) (freqTable_ascends ys) fun ⟨x, c⟩ => by
    rw [mem_freqTable_iff, mem_freqTable_iff, h.count_eq]

theorem length_le_countSum {ft : FreqTable} (h : ∀ e ∈ ft, 1 ≤ e.count) : ft.length ≤ countSum ft := by
  induction ft with
  | nil => simp
  | cons e ft ih =>
    have h1 := h e List.mem_cons_self
    have := ih (fun d hd => h d (List.mem_cons_of_mem _ hd))
    rw [countSum_cons, List.length_cons]; omega

/-- R10: a table of symbols has at most SYM_MAX + 1 entries. -/
theorem length_le_symMax {ft : FreqTable} (h : ft.Pairwise (fun a b => a.sym < b.sym)) (hs : ∀ e ∈ ft, e.sym ≤ symMax) :
    ft.length ≤ symMax + 1 := by
  have nd : (ft.map FtEntry.sym).Nodup := by
    rw [List.nodup_iff_pairwise_ne, List.pairwise_map]; exact h.imp (fun hab => by omega)
  have := List.Nodup.length_le_of_subset (l₂ := List.range (symMax + 1)) nd (fun x hx => by
    obtain ⟨e, he, rfl⟩ := List.mem_map.1 hx
    exact List.mem_range.2 (by have := hs e he; omega))
  simpa using this

theorem freqTable_wf {xs : List Nat} (hs : ∀ x ∈ xs, x ≤ symMax) (hl : xs.length ≤ countMax) :
    FreqTable.wf (freqTable xs) :=
  ⟨fun e he => hs _ (mem_freqTable he).1, freqTable_ascends xs, fun _ he => (mem_freqTable he).2,
    by rw [countSum_freqTable]; exact hl⟩

theorem freqTable_eq_nil {xs : List Nat} : freqTable xs = [] ↔ xs = [] := by
  constructor
  · intro h
    have := countSum_freqTable xs
    rw [h] at this
    exact List.length_eq_zero_iff.1 (by simpa [countSum] using this.symm)
  · rintro rfl; rfl

/-! The unit (R120). -/

theorem freqAnalyze_capacity {s : State} (h : s.caps.inSym < s.inSymLen.toNat) :
    freqAnalyze s = .error ⟨.capacityExceeded, 1⟩ := by simp [freqAnalyze, h]

theorem inSyms_length (s : State) : s.inSyms.length = s.inSymLen.toNat := by simp [State.inSyms]

theorem inSyms_getElem (s : State) {i : Nat} (h : i < s.inSyms.length) : s.inSyms[i] = s.inSym i := by
  simp [State.inSyms]

theorem mem_inSyms {s : State} {x : Nat} : x ∈ s.inSyms ↔ ∃ i < s.inSymLen.toNat, s.inSym i = x := by
  simp [State.inSyms]

/-- The lowest index of an input word that meets a condition. -/
theorem findIdx_inSyms {s : State} {p : Nat → Bool} {i : Nat} (hi : i < s.inSymLen.toNat) (h : p (s.inSym i) = true)
    (hb : ∀ j < i, p (s.inSym j) = false) : s.inSyms.findIdx? p = some i := by
  rw [List.findIdx?_eq_some_iff_getElem]
  refine ⟨by rw [inSyms_length]; exact hi, ?_, fun j hj => ?_⟩
  · rw [inSyms_getElem]; exact h
  · rw [inSyms_getElem, hb j hj]; simp

theorem freqAnalyze_invalid {s : State} {i : Nat} (hc : s.inSymLen.toNat ≤ s.caps.inSym) (hi : i < s.inSymLen.toNat)
    (h : symMax < s.inSym i) (hb : ∀ j < i, s.inSym j ≤ symMax) :
    freqAnalyze s = .error ⟨.invalidInput, BitVec.ofNat 32 i⟩ := by
  have := findIdx_inSyms (s := s) (p := fun x => decide (symMax < x)) hi (by simpa using h)
    (fun j hj => by simpa using hb j hj)
  simp [freqAnalyze, Nat.not_lt.2 hc, this]

/-- What a successful FREQ_ANALYZE step did. -/
theorem freqAnalyze_eq_ok {s t : State} :
    freqAnalyze s = .ok t ↔ s.inSymLen.toNat ≤ s.caps.inSym ∧ (∀ x ∈ s.inSyms, x ≤ symMax) ∧
      t = s.writeFt (some (freqTable s.inSyms)) := by
  unfold freqAnalyze
  split
  · simp; omega
  · cases h : s.inSyms.findIdx? (fun x => decide (symMax < x)) with
    | some i =>
      simp only [reduceCtorEq, false_iff]
      rintro ⟨_, hx, _⟩
      obtain ⟨hi, hp, _⟩ := List.findIdx?_eq_some_iff_getElem.1 h
      have := hx _ (List.getElem_mem hi)
      simp at hp; omega
    | none =>
      rw [List.findIdx?_eq_none_iff] at h
      constructor
      · intro ht; injection ht with ht
        exact ⟨by omega, fun x hx => by simpa using h x hx, ht.symm⟩
      · rintro ⟨_, _, rfl⟩; rfl

/-- How a FREQ_ANALYZE step fails. -/
theorem freqAnalyze_eq_error {s : State} {r : Raise} (h : freqAnalyze s = .error r) :
    (r = ⟨.capacityExceeded, 1⟩ ∧ s.caps.inSym < s.inSymLen.toNat) ∨
    (s.inSymLen.toNat ≤ s.caps.inSym ∧ ∃ i < s.inSymLen.toNat, r = ⟨.invalidInput, BitVec.ofNat 32 i⟩ ∧ symMax < s.inSym i) :=
        by
  unfold freqAnalyze at h
  split at h
  · rename_i hc; injection h with h; exact .inl ⟨h.symm, hc⟩
  · split at h
    · rename_i hc i hi
      obtain ⟨hl, hp, _⟩ := List.findIdx?_eq_some_iff_getElem.1 hi
      rw [inSyms_length] at hl
      rw [inSyms_getElem] at hp
      injection h with h
      exact .inr ⟨by omega, i, hl, h.symm, by simpa using hp⟩
    · cases h

end Sys2Proof.Machine
end

