-- ==== Sys2Proof/Laws/Tree.lean ====
section
/-! SUPPORT. The tree builder (R140 to R142, R24): what one merge keeps, and what the finished tree is. -/

namespace Sys2Proof.Machine

/-! Keys. -/

theorem Key.lt_iff (a b : Key) : a.lt b = true ↔ a.freq < b.freq ∨ (a.freq = b.freq ∧ a.idx < b.idx) := by
  simp [Key.lt]

theorem minKey_mem (k : Key) (q : List Key) : minKey k q ∈ k :: q := by
  induction q generalizing k with
  | nil => simp [minKey]
  | cons x q ih =>
    have := ih (if x.lt k then x else k)
    show minKey (if x.lt k then x else k) q ∈ k :: x :: q
    rcases List.mem_cons.1 this with h | h
    · rw [h]; split <;> simp
    · exact List.mem_cons_of_mem _ (List.mem_cons_of_mem _ h)

theorem minKey_le (k : Key) (q : List Key) : ∀ x ∈ k :: q, x.lt (minKey k q) = false := by
  induction q generalizing k with
  | nil => intro x hx; simp only [List.mem_singleton] at hx; subst hx; simp [minKey, Key.lt]
  | cons y q ih =>
    intro x hx
    unfold minKey
    have h0 := ih (if y.lt k then y else k)
    by_cases hxq : x ∈ q
    · exact h0 x (List.mem_cons_of_mem _ hxq)
    · have hh := h0 _ List.mem_cons_self
      have hx2 : x = k ∨ x = y := by simp only [List.mem_cons] at hx; tauto
      rw [Bool.eq_false_iff, Ne, Key.lt_iff] at hh ⊢
      have ht : y.lt k = true ∨ ¬ y.lt k = true := Decidable.em _
      rcases ht with ht | ht
      · simp only [ht, if_true] at hh ⊢
        rw [Key.lt_iff] at ht
        rcases hx2 with rfl | rfl <;> omega
      · simp only [ht] at hh ⊢
        rw [Key.lt_iff] at ht
        rcases hx2 with rfl | rfl
        · exact hh
        · simp only [Bool.false_eq_true, if_false] at hh ⊢; omega

theorem popMin_eq_none {q : List Key} : popMin q = none ↔ q = [] := by cases q <;> simp [popMin]

/-- What popping does: the popped key is the least, and the rest is the queue without it. -/
theorem popMin_eq_some {q q' : List Key} {k : Key} (h : popMin q = some (k, q')) :
    q.Perm (k :: q') ∧ ∀ x ∈ q, x.lt k = false := by
  cases q with
  | nil => simp [popMin] at h
  | cons y q =>
    simp only [popMin, Option.some.injEq, Prod.mk.injEq] at h
    obtain ⟨rfl, rfl⟩ := h
    exact ⟨List.perm_cons_erase (minKey_mem y q), minKey_le y q⟩

/-! Keys of nodes. -/

theorem keyBefore_append {nodes : List Node} {a b : Nat} (x : List Node) (h : keyBefore nodes a b) :
    keyBefore (nodes ++ x) a b := by
  obtain ⟨u, v, hu, hv, huv⟩ := h
  refine ⟨u, v, ?_, ?_, huv⟩ <;> rw [List.getElem?_append_left] <;> try assumption
  · exact (List.getElem?_eq_some_iff.1 hu).1
  · exact (List.getElem?_eq_some_iff.1 hv).1

theorem keyBefore_trans {nodes : List Node} {a b c : Nat} (h : keyBefore nodes a b) (h' : keyBefore nodes b c) :
    keyBefore nodes a c := by
  obtain ⟨u, v, hu, hv, huv⟩ := h
  obtain ⟨v', w, hv', hw, hvw⟩ := h'
  rw [hv] at hv'; injection hv' with hv'; subst hv'
  exact ⟨u, w, hu, hw, by omega⟩

theorem inQueue_append {nodes : List Node} {m c : Nat} (x : List Node) (hm : m ≤ nodes.length) :
    inQueue (nodes ++ x) m c ↔ inQueue nodes m c := by
  unfold inQueue
  constructor
  · rintro ⟨h, hj⟩
    exact ⟨h, fun j y hjm hy => hj j y hjm (by rw [List.getElem?_append_left (by omega)]; exact hy)⟩
  · rintro ⟨h, hj⟩
    exact ⟨h, fun j y hjm hy => hj j y hjm (by rw [List.getElem?_append_left (by omega)] at hy; exact hy)⟩

/-- Node `m` merges the two least keys of the queue at its time, the lesser left (R140). -/
def MergeOk (nodes : List Node) (m : Nat) : Prop :=
  ∃ a b x y, nodes[m]? = some (.internal (x.freq + y.freq) a b) ∧ nodes[a]? = some x ∧ nodes[b]? = some y ∧
    inQueue nodes m a ∧ inQueue nodes m b ∧ keyBefore nodes a b ∧
    ∀ c, inQueue nodes m c → c ≠ a → c ≠ b → keyBefore nodes b c

theorem MergeOk.append {nodes : List Node} {m : Nat} (x : List Node) (h : MergeOk nodes m) (hm : m < nodes.length) :
    MergeOk (nodes ++ x) m := by
  obtain ⟨a, b, u, v, h0, ha, hb, qa, qb, hab, hr⟩ := h
  refine ⟨a, b, u, v, ?_, ?_, ?_, ?_, ?_, keyBefore_append x hab, fun c hc => ?_⟩
  · rw [List.getElem?_append_left hm]; exact h0
  · rw [List.getElem?_append_left (List.getElem?_eq_some_iff.1 ha).1]; exact ha
  · rw [List.getElem?_append_left (List.getElem?_eq_some_iff.1 hb).1]; exact hb
  · rw [inQueue_append x hm.le]; exact qa
  · rw [inQueue_append x hm.le]; exact qb
  · rw [inQueue_append x hm.le] at hc
    exact fun h1 h2 => keyBefore_append x (hr c hc h1 h2)

/-! The merge loop's invariant. -/

/-- What holds of the node array and the queue before and after every merge. -/
structure MergeInv (ft : FreqTable) (nodes : List Node) (q : List Key) : Prop where
  /-- The leaves stand first, in FT order, and only internal nodes follow. -/
  leaves : ∃ ins, nodes = leavesOf ft ++ ins ∧ ∀ x ∈ ins, x.isLeaf = false
  /-- Every internal node merged the two least keys of its time. -/
  merges : ∀ m, ft.length ≤ m → m < nodes.length → MergeOk nodes m
  /-- Every node is in the queue or a child, exactly once. -/
  perm : (q.map Key.idx ++ nodes.flatMap Node.children).Perm (List.range nodes.length)
  /-- A key holds its node's frequency. -/
  keys : ∀ k ∈ q, ∃ x, nodes[k.idx]? = some x ∧ x.freq = k.freq
  /-- What was popped comes before what is queued. -/
  popped : ∀ c ∈ nodes.flatMap Node.children, ∀ k ∈ q, keyBefore nodes c k.idx
  /-- Pops are in key order: children of an earlier node come before children of a later one. -/
  order : ∀ (m m' : Nat) (x x' : Node) (c c' : Nat), m < m' → nodes[m]? = some x → nodes[m']? = some x' → c ∈ x.children →
      c' ∈ x'.children →
    keyBefore nodes c c'
  /-- The queue's frequencies sum to the table's counts. -/
  sum : (q.map Key.freq).sum = countSum ft
  /-- Each merge takes one key off the queue and adds one node. -/
  size : nodes.length + q.length = 2 * ft.length

@[simp] theorem leavesOf_length (ft : FreqTable) : (leavesOf ft).length = ft.length := by simp [leavesOf]

theorem leavesOf_children (ft : FreqTable) : (leavesOf ft).flatMap Node.children = [] := by
  simp [leavesOf, List.flatMap_map, Node.children]

theorem leaf_of_mem_leavesOf {ft : FreqTable} {x : Node} (h : x ∈ leavesOf ft) : x.isLeaf = true := by
  obtain ⟨e, _, rfl⟩ := List.mem_map.1 h; rfl

theorem leafKeys_idx (ft : FreqTable) : (leafKeys ft).map Key.idx = List.range ft.length := by
  unfold leafKeys
  rw [List.map_map, List.range_eq_range', ← List.zipIdx_map_snd 0 ft]
  rfl

theorem leafKeys_freq (ft : FreqTable) : (leafKeys ft).map Key.freq = ft.map FtEntry.count := by
  unfold leafKeys
  rw [List.map_map]
  conv_rhs => rw [← List.zipIdx_map_fst 0 ft, List.map_map]
  rfl

theorem mergeInv_start (ft : FreqTable) : MergeInv ft (leavesOf ft) (leafKeys ft) where
  leaves := ⟨[], by simp, by simp⟩
  merges m h1 h2 := by rw [leavesOf_length] at h2; omega
  perm := by rw [leavesOf_children, List.append_nil, leafKeys_idx, leavesOf_length]
  keys k hk := by
    obtain ⟨⟨e, i⟩, he, rfl⟩ := List.mem_map.1 hk
    have := List.mem_zipIdx_iff_getElem?.1 he
    exact ⟨.leaf e.sym e.count, by simp [leavesOf, this], rfl⟩
  popped c hc := by rw [leavesOf_children] at hc; simp at hc
  order m m' x x' c c' _ hx _ hc := by
    have := leaf_of_mem_leavesOf (List.mem_of_getElem? hx)
    cases x <;> simp_all [Node.children, Node.isLeaf]
  sum := by rw [leafKeys_freq]; rfl
  size := by simp [leafKeys]; omega

theorem MergeInv.mem_queue_iff {ft : FreqTable} {nodes : List Node} {q : List Key} (h : MergeInv ft nodes q) (c : Nat) :
    inQueue nodes nodes.length c ↔ c ∈ q.map Key.idx := by
  have hnd : (q.map Key.idx ++ nodes.flatMap Node.children).Nodup := h.perm.nodup_iff.2 List.nodup_range
  have hch : c ∈ nodes.flatMap Node.children ↔ ∃ j x, j < nodes.length ∧ nodes[j]? = some x ∧ c ∈ x.children := by
    rw [List.mem_flatMap]
    constructor
    · rintro ⟨x, hx, hc⟩
      obtain ⟨j, hj, rfl⟩ := List.getElem_of_mem hx
      exact ⟨j, nodes[j], hj, List.getElem?_eq_getElem hj, hc⟩
    · rintro ⟨j, x, _, hx, hc⟩
      exact ⟨x, List.mem_of_getElem? hx, hc⟩
  have hmem : c < nodes.length ↔ c ∈ q.map Key.idx ∨ c ∈ nodes.flatMap Node.children := by
    rw [← List.mem_range, ← h.perm.mem_iff, List.mem_append]
  constructor
  · rintro ⟨h1, h2⟩
    rcases hmem.1 h1 with h3 | h3
    · exact h3
    · obtain ⟨j, x, hj, hx, hc⟩ := hch.1 h3
      exact absurd hc (h2 j x hj hx)
  · intro h1
    refine ⟨hmem.2 (.inl h1), fun j x hj hx hc => ?_⟩
    exact (List.nodup_append.1 hnd).2.2 c h1 c (hch.2 ⟨j, x, hj, hx, hc⟩) rfl

/-- One merge keeps the invariant. -/
theorem MergeInv.merge {ft : FreqTable} {nodes : List Node} {q q1 q2 : List Key} {a b : Key}
    (h : MergeInv ft nodes q) (ha : popMin q = some (a, q1)) (hb : popMin q1 = some (b, q2)) :
    MergeInv ft (nodes ++ [.internal (a.freq + b.freq) a.idx b.idx]) (⟨a.freq + b.freq, nodes.length⟩ :: q2) := by
  obtain ⟨pa, la⟩ := popMin_eq_some ha
  obtain ⟨pb, lb⟩ := popMin_eq_some hb
  have pq : q.Perm (a :: b :: q2) := pa.trans (pb.cons a)
  have hmem : ∀ k, k ∈ q ↔ k = a ∨ k = b ∨ k ∈ q2 := fun k => by rw [pq.mem_iff]; simp
  have hnd : (q.map Key.idx ++ nodes.flatMap Node.children).Nodup := h.perm.nodup_iff.2 List.nodup_range
  have hqd : (q.map Key.idx).Nodup := (List.nodup_append.1 hnd).1
  have hqd2 : (a.idx :: b.idx :: q2.map Key.idx).Nodup := by
    have := (pq.map Key.idx).nodup_iff.1 hqd; simpa using this
  have hlt : ∀ k ∈ q, k.idx < nodes.length := fun k hk => by
    rw [← List.mem_range, ← h.perm.mem_iff]
    exact List.mem_append_left _ (List.mem_map_of_mem hk)
  have ma : a ∈ q := (hmem a).2 (.inl rfl)
  have mb : b ∈ q := (hmem b).2 (.inr (.inl rfl))
  obtain ⟨x, hx, hxf⟩ := h.keys a ma
  obtain ⟨y, hy, hyf⟩ := h.keys b mb
  have kb : ∀ k k' : Key, k ∈ q → k' ∈ q → k.idx ≠ k'.idx → k'.lt k = false → keyBefore nodes k.idx k'.idx := by
    intro k k' hk hk' hne hl
    obtain ⟨u, hu, huf⟩ := h.keys k hk
    obtain ⟨v, hv, hvf⟩ := h.keys k' hk'
    rw [Bool.eq_false_iff, Ne, Key.lt_iff] at hl
    exact ⟨u, v, hu, hv, by omega⟩
  have hab : keyBefore nodes a.idx b.idx :=
    kb a b ma mb (by rw [List.nodup_cons] at hqd2; exact fun e => hqd2.1 (by simp [e])) (la b mb)
  have hb2 : ∀ k ∈ q2, keyBefore nodes b.idx k.idx := fun k hk => by
    refine kb b k mb ((hmem k).2 (.inr (.inr hk))) (fun e => ?_) (lb k (by rw [pb.mem_iff]; simp [hk]))
    rw [List.nodup_cons, List.nodup_cons] at hqd2
    exact hqd2.2.1 (by rw [e]; exact List.mem_map_of_mem hk)
  set N : Node := .internal (a.freq + b.freq) a.idx b.idx with hN
  have hgetN : (nodes ++ [N])[nodes.length]? = some N := by simp
  have hbn : keyBefore (nodes ++ [N]) b.idx nodes.length := by
    refine ⟨y, N, ?_, hgetN, ?_⟩
    · rw [List.getElem?_append_left (hlt b mb)]; exact hy
    · have := hlt b mb
      have hf : N.freq = a.freq + b.freq := rfl
      omega
  have hget : ∀ {m : Nat} {z : Node}, (nodes ++ [N])[m]? = some z → (m < nodes.length ∧
      nodes[m]? = some z) ∨ (m = nodes.length ∧ z = N) := by
    intro m z hz
    rcases Nat.lt_trichotomy m nodes.length with hm | hm | hm
    · rw [List.getElem?_append_left hm] at hz; exact .inl ⟨hm, hz⟩
    · subst hm; rw [hgetN] at hz; injection hz with hz; exact .inr ⟨rfl, hz.symm⟩
    · rw [List.getElem?_eq_none (by rw [List.length_append, List.length_singleton]; omega)] at hz; simp at hz
  have hchild : (nodes ++ [N]).flatMap Node.children = nodes.flatMap Node.children ++ [a.idx, b.idx] := by
    simp [hN, Node.children]
  have hold : ∀ c ∈ nodes.flatMap Node.children, ∀ k ∈ q, keyBefore (nodes ++ [N]) c k.idx :=
    fun c hc k hk => keyBefore_append _ (h.popped c hc k hk)
  refine ⟨?_, ?_, ?_, ?_, ?_, ?_, ?_, ?_⟩
  · obtain ⟨ins, he, hi⟩ := h.leaves
    refine ⟨ins ++ [N], by rw [he, List.append_assoc], fun z hz => ?_⟩
    rcases List.mem_append.1 hz with hz | hz
    · exact hi z hz
    · rw [List.mem_singleton.1 hz]; rfl
  · intro m h1 h2
    rw [List.length_append, List.length_singleton] at h2
    by_cases hm : m < nodes.length
    · exact (h.merges m h1 hm).append _ hm
    · obtain rfl : m = nodes.length := by omega
      have hq : ∀ c, inQueue (nodes ++ [N]) nodes.length c ↔ c ∈ q.map Key.idx := fun c => by
        rw [inQueue_append _ (Nat.le_refl _), h.mem_queue_iff]
      refine ⟨a.idx, b.idx, x, y, ?_, ?_, ?_, ?_, ?_, keyBefore_append _ hab, fun c hc h3 h4 => ?_⟩
      · rw [hgetN, hN, hxf, hyf]
      · rw [List.getElem?_append_left (hlt a ma)]; exact hx
      · rw [List.getElem?_append_left (hlt b mb)]; exact hy
      · rw [hq]; exact List.mem_map_of_mem ma
      · rw [hq]; exact List.mem_map_of_mem mb
      · rw [hq] at hc
        obtain ⟨k, hk, rfl⟩ := List.mem_map.1 hc
        rcases (hmem k).1 hk with rfl | rfl | hk
        · exact absurd rfl h3
        · exact absurd rfl h4
        · exact keyBefore_append _ (hb2 k hk)
  · rw [hchild, List.length_append, List.length_singleton, List.range_succ]
    have p1 : (q.map Key.idx).Perm (a.idx :: b.idx :: q2.map Key.idx) := by simpa using pq.map Key.idx
    have p2 := (p1.append_right (nodes.flatMap Node.children)).symm.trans h.perm
    have p3 : ((nodes.length :: q2.map Key.idx) ++ (nodes.flatMap Node.children ++ [a.idx, b.idx])).Perm
        ((a.idx :: b.idx :: q2.map Key.idx) ++ nodes.flatMap Node.children ++ [nodes.length]) := by
      rw [List.perm_iff_count]
      intro z
      simp only [List.count_append, List.count_cons, List.count_nil]
      omega
    exact p3.trans (p2.append_right _)
  · intro k hk
    rcases List.mem_cons.1 hk with rfl | hk
    · exact ⟨N, hgetN, rfl⟩
    · have hkq := (hmem k).2 (.inr (.inr hk))
      obtain ⟨z, hz, hzf⟩ := h.keys k hkq
      exact ⟨z, by rw [List.getElem?_append_left (hlt k hkq)]; exact hz, hzf⟩
  · intro c hc k hk
    rw [hchild] at hc
    have hcase : keyBefore (nodes ++ [N]) c b.idx ∨ c = b.idx := by
      rcases List.mem_append.1 hc with hc | hc
      · exact .inl (hold c hc b mb)
      · simp only [List.mem_cons, List.not_mem_nil, or_false] at hc
        rcases hc with rfl | rfl
        · exact .inl (keyBefore_append _ hab)
        · exact .inr rfl
    have hbk : keyBefore (nodes ++ [N]) b.idx k.idx := by
      rcases List.mem_cons.1 hk with rfl | hk
      · exact hbn
      · exact keyBefore_append _ (hb2 k hk)
    rcases hcase with hc | rfl
    · exact keyBefore_trans hc hbk
    · exact hbk
  · intro m m' z z' c c' hmm hz hz' hc hc'
    rcases hget hz' with ⟨hm', hz'⟩ | ⟨rfl, rfl⟩
    · rcases hget hz with ⟨_, hz⟩ | ⟨rfl, _⟩
      · exact keyBefore_append _ (h.order m m' z z' c c' hmm hz hz' hc hc')
      · omega
    · rcases hget hz with ⟨_, hz⟩ | ⟨rfl, _⟩
      · have hcf : c ∈ nodes.flatMap Node.children := List.mem_flatMap.2 ⟨z, List.mem_of_getElem? hz, hc⟩
        simp only [hN, Node.children, List.mem_cons, List.not_mem_nil, or_false] at hc'
        rcases hc' with rfl | rfl
        · exact hold c hcf a ma
        · exact hold c hcf b mb
      · omega
  · have := (pq.map Key.freq).sum_eq
    have hs := h.sum
    simp only [List.map_cons, List.sum_cons] at this ⊢
    omega
  · have := pq.length_eq
    have hs := h.size
    simp only [List.length_cons, List.length_append, List.length_nil] at this ⊢
    omega

/-- The loop runs until one key is left. -/
theorem mergeLoop_inv {ft : FreqTable} (fuel : Nat) {nodes : List Node} {q : List Key} (h : MergeInv ft nodes q)
    (hq : q ≠ []) (hf : q.length ≤ fuel + 1) :
    ∃ nodes' k, mergeLoop fuel nodes q = (nodes', [k]) ∧ MergeInv ft nodes' [k] := by
  induction fuel generalizing nodes q with
  | zero =>
    match q, hq with
    | [k], _ => exact ⟨nodes, k, rfl, h⟩
    | _ :: _ :: _, _ => simp only [List.length_cons] at hf; omega
  | succ fuel ih =>
    cases ha : popMin q with
    | none => exact absurd (popMin_eq_none.1 ha) hq
    | some p =>
      obtain ⟨a, q1⟩ := p
      have hl := (popMin_eq_some ha).1.length_eq
      cases hb : popMin q1 with
      | none =>
        have := popMin_eq_none.1 hb
        subst this
        match q, hq, hl with
        | [k], _, _ => exact ⟨nodes, k, by simp [mergeLoop, ha, hb], h⟩
      | some p =>
        obtain ⟨b, q2⟩ := p
        have hl' := (popMin_eq_some hb).1.length_eq
        simp only [mergeLoop, ha, hb]
        refine ih (h.merge ha hb) (by simp) ?_
        simp only [List.length_cons] at hl hl' ⊢; omega

/-! The finished tree. -/

/-- `build` of a non-empty table: the merge invariant with the root's key alone in the queue. -/
theorem build_inv {ft : FreqTable} (h : ft ≠ []) :
    ∃ k, k.idx = (build ft).root ∧ MergeInv ft (build ft).nodes [k] := by
  have hl : 0 < ft.length := List.length_pos_iff.2 h
  obtain ⟨nodes', k, he, hi⟩ := mergeLoop_inv ft.length (mergeInv_start ft)
    (by intro e; have := congrArg List.length e; simp [leafKeys] at this; exact h this) (by simp [leafKeys])
  refine ⟨k, ?_, ?_⟩ <;> simp only [build, he]
  · rfl
  · exact hi

theorem build_length {ft : FreqTable} (h : ft ≠ []) : (build ft).nodes.length = 2 * ft.length - 1 := by
  obtain ⟨k, _, hi⟩ := build_inv h
  have := hi.size
  have hl : 0 < ft.length := List.length_pos_iff.2 h
  simp only [List.length_singleton] at this; omega

/-- A node's children come before it. -/
theorem MergeInv.child_lt {ft : FreqTable} {nodes : List Node} {q : List Key} (hi : MergeInv ft nodes q) {m f l r : Nat}
    (h : nodes[m]? = some (.internal f l r)) : l < m ∧ r < m ∧ keyBefore nodes l r ∧
      ∃ x y, nodes[l]? = some x ∧ nodes[r]? = some y ∧ f = x.freq + y.freq := by
  have hm := (List.getElem?_eq_some_iff.1 h).1
  have hge : ft.length ≤ m := by
    by_contra hlt
    obtain ⟨ins, he, _⟩ := hi.leaves
    rw [he, List.getElem?_append_left (by rw [leavesOf_length]; omega)] at h
    have := leaf_of_mem_leavesOf (List.mem_of_getElem? h)
    simp [Node.isLeaf] at this
  obtain ⟨a, b, x, y, h0, ha, hb, qa, qb, hab, _⟩ := hi.merges m hge hm
  rw [h0] at h; injection h with h; injection h with h1 h2 h3
  subst h1 h2 h3
  exact ⟨qa.1, qb.1, hab, x, y, ha, hb, rfl⟩

theorem MergeInv.child_of_node {ft : FreqTable} {nodes : List Node} {q : List Key} (hi : MergeInv ft nodes q) {m c : Nat}
    {x : Node} (h : nodes[m]? = some x) (hc : c ∈ x.children) : c < m := by
  cases x with
  | leaf => simp [Node.children] at hc
  | internal f l r =>
    obtain ⟨h1, h2, _⟩ := hi.child_lt h
    simp only [Node.children, List.mem_cons, List.not_mem_nil, or_false] at hc
    rcases hc with rfl | rfl <;> assumption

theorem build_root {ft : FreqTable} (h : ft ≠ []) : (build ft).root + 1 = (build ft).nodes.length := by
  obtain ⟨k, hk, hi⟩ := build_inv h
  have hl : 0 < ft.length := List.length_pos_iff.2 h
  have hlen := build_length h
  have hm : (build ft).nodes.length - 1 ∈ List.range (build ft).nodes.length := List.mem_range.2 (by omega)
  rw [← hi.perm.mem_iff] at hm
  rcases List.mem_append.1 hm with hm | hm
  · simp only [List.map_cons, List.map_nil, List.mem_singleton] at hm
    rw [← hk, ← hm]; omega
  · obtain ⟨x, hx, hc⟩ := List.mem_flatMap.1 hm
    obtain ⟨j, hj, rfl⟩ := List.getElem_of_mem hx
    have := hi.child_of_node (List.getElem?_eq_getElem hj) hc
    omega

theorem build_leaf {ft : FreqTable} (h : ft ≠ []) {i : Nat} {e : FtEntry} (he : ft[i]? = some e) :
    (build ft).nodes[i]? = some (.leaf e.sym e.count) := by
  obtain ⟨k, _, hi⟩ := build_inv h
  obtain ⟨ins, hn, _⟩ := hi.leaves
  have := (List.getElem?_eq_some_iff.1 he).1
  rw [hn, List.getElem?_append_left (by rw [leavesOf_length]; exact this)]
  simp [leavesOf, he]

theorem build_internal {ft : FreqTable} (h : ft ≠ []) {m : Nat} (h1 : ft.length ≤ m) (h2 : m < (build ft).nodes.length) :
    ∃ f l r, (build ft).nodes[m]? = some (.internal f l r) := by
  obtain ⟨k, _, hi⟩ := build_inv h
  obtain ⟨a, b, x, y, h0, _⟩ := hi.merges m h1 h2
  exact ⟨_, a, b, h0⟩

theorem build_merge {ft : FreqTable} (h : ft ≠ []) {m : Nat} (h1 : ft.length ≤ m) (h2 : m < (build ft).nodes.length) :
    MergeOk (build ft).nodes m := by
  obtain ⟨k, _, hi⟩ := build_inv h
  exact hi.merges m h1 h2

/-- At the end the queue holds the root alone (R140). -/
theorem build_queue {ft : FreqTable} (h : ft ≠ []) (c : Nat) :
    inQueue (build ft).nodes (build ft).nodes.length c ↔ c = (build ft).root := by
  obtain ⟨k, hk, hi⟩ := build_inv h
  rw [hi.mem_queue_iff]; simp [hk]

theorem build_child {ft : FreqTable} (h : ft ≠ []) {m f l r : Nat} (hm : (build ft).nodes[m]? = some (.internal f l r)) :
    l < m ∧ r < m ∧ keyBefore (build ft).nodes l r ∧
      ∃ x y, (build ft).nodes[l]? = some x ∧ (build ft).nodes[r]? = some y ∧ f = x.freq + y.freq := by
  obtain ⟨k, _, hi⟩ := build_inv h
  exact hi.child_lt hm

/-- Pops are in key order (R140): children of an earlier node come before children of a later one. -/
theorem build_order {ft : FreqTable} (h : ft ≠ []) {m m' : Nat} {x x' : Node} {c c' : Nat} (hm : m < m')
    (hx : (build ft).nodes[m]? = some x) (hx' : (build ft).nodes[m']? = some x') (hc : c ∈ x.children)
    (hc' : c' ∈ x'.children) : keyBefore (build ft).nodes c c' := by
  obtain ⟨k, _, hi⟩ := build_inv h
  exact hi.order m m' x x' c c' hm hx hx' hc hc'

/-- The node array: the leaves in FT order, then internal nodes only. -/
theorem build_nodes {ft : FreqTable} (h : ft ≠ []) :
    ∃ ins, (build ft).nodes = leavesOf ft ++ ins ∧ (∀ x ∈ ins, x.isLeaf = false) ∧ ins.length = ft.length - 1 := by
  obtain ⟨k, _, hi⟩ := build_inv h
  obtain ⟨ins, he, hn⟩ := hi.leaves
  refine ⟨ins, he, hn, ?_⟩
  have := build_length h
  have hl : 0 < ft.length := List.length_pos_iff.2 h
  rw [he, List.length_append, leavesOf_length] at this; omega

/-- Every node but the root is a child exactly once (R24). -/
theorem build_perm {ft : FreqTable} (h : ft ≠ []) :
    ((build ft).root :: (build ft).nodes.flatMap Node.children).Perm (List.range (build ft).nodes.length) := by
  obtain ⟨k, hk, hi⟩ := build_inv h
  have := hi.perm
  rw [List.map_cons, List.map_nil, hk] at this; exact this

theorem build_root_freq {ft : FreqTable} (h : ft ≠ []) :
    (build ft).nodes[(build ft).root]?.map Node.freq = some (countSum ft) := by
  obtain ⟨k, hk, hi⟩ := build_inv h
  obtain ⟨x, hx, hf⟩ := hi.keys k (by simp)
  have := hi.sum
  rw [← hk, hx]
  simp only [List.map_cons, List.map_nil, List.sum_cons, List.sum_nil] at this
  simp [hf]; omega

/-- Every node but the root has a parent. -/
theorem build_parent {ft : FreqTable} (h : ft ≠ []) {c : Nat} (hc : c < (build ft).root) :
    ∃ (m : Nat) (x : Node), (build ft).nodes[m]? = some x ∧ c ∈ x.children := by
  have hm : c ∈ List.range (build ft).nodes.length := List.mem_range.2 (by have := build_root h; omega)
  rw [← (build_perm h).mem_iff] at hm
  rcases List.mem_cons.1 hm with hm | hm
  · omega
  · obtain ⟨x, hx, hcx⟩ := List.mem_flatMap.1 hm
    obtain ⟨j, hj, rfl⟩ := List.getElem_of_mem hx
    exact ⟨j, _, List.getElem?_eq_getElem hj, hcx⟩

/-! The unit (R141). -/

/-- What a TREE_BUILD step does. -/
theorem treeBuild_eq_ok {s t : State} :
    treeBuild s = .ok t ↔ ∃ ft, s.ft = some ft ∧ ft ≠ [] ∧ t = s.writeTree (some (build ft)) := by
  unfold treeBuild
  split
  · simp [*]
  · simp [*]
  · rename_i e ft h
    simp only [h, Except.ok.injEq, Option.some.injEq]
    constructor
    · rintro rfl; exact ⟨_, rfl, by simp, rfl⟩
    · rintro ⟨_, rfl, _, rfl⟩; rfl

/-- How a TREE_BUILD step fails. -/
theorem treeBuild_eq_error {s : State} {r : Raise} :
    treeBuild s = .error r ↔ (s.ft = none ∧ r = s.notReady [.ft]) ∨ (s.ft = some [] ∧ r = ⟨.invalidInput, 0⟩) := by
  unfold treeBuild
  split <;> simp [*, eq_comm]

end Sys2Proof.Machine
end

