-- ==== Sys2Proof/Laws/Codes.lean ====
section
/-! SUPPORT. The codes (R160 to R163, R11): every leaf's code is its path, codes are prefix-free,
    and their length is bounded. -/

namespace Sys2Proof.Machine

/-! Walking down (R161). -/

@[simp] theorem walk_nil (nodes : List Node) (k : Nat) : walk nodes k [] = some k := rfl

theorem walk_cons_internal {nodes : List Node} {k f l r : Nat} (h : nodes[k]? = some (.internal f l r)) (b : Bool) (bs : Bits) :
    walk nodes k (b :: bs) = walk nodes (if b then r else l) bs := by simp [walk, h]

theorem walk_cons_eq_some {nodes : List Node} {k i : Nat} {b : Bool} {bs : Bits} (h : walk nodes k (b :: bs) = some i) :
    ∃ f l r, nodes[k]? = some (.internal f l r) ∧ walk nodes (if b then r else l) bs = some i := by
  unfold walk at h
  split at h
  · rename_i f l r hk; exact ⟨f, l, r, hk, h⟩
  · simp at h

theorem walk_append (nodes : List Node) (p q : Bits) (k : Nat) :
    walk nodes k (p ++ q) = (walk nodes k p).bind fun m => walk nodes m q := by
  induction p generalizing k with
  | nil => simp
  | cons b p ih =>
    rw [List.cons_append]
    simp only [walk]
    split
    · exact ih _
    · rfl

/-- A leaf ends every walk. -/
theorem walk_leaf {nodes : List Node} {k x f : Nat} (h : nodes[k]? = some (.leaf x f)) (p : Bits) (i : Nat) :
    walk nodes k p = some i ↔ p = [] ∧ i = k := by
  cases p with
  | nil => simp [eq_comm]
  | cons b p => simp [walk, h]

/-! `pathFrom` finds the walk. -/

theorem pathFrom_sound {nodes : List Node} {fuel k i : Nat} {p : Bits} (h : pathFrom nodes fuel k i = some p) :
    walk nodes k p = some i := by
  induction fuel generalizing k p with
  | zero =>
    unfold pathFrom at h
    split at h
    · injection h with h; subst h; simp [*]
    · simp at h
  | succ fuel ih =>
    unfold pathFrom at h
    split at h
    · injection h with h; subst h; simp [*]
    · split at h
      · rename_i f l r hk
        split at h
        · rename_i q hq; injection h with h; subst h
          rw [walk_cons_internal hk]; exact ih hq
        · obtain ⟨q, hq, rfl⟩ := Option.map_eq_some_iff.1 h
          rw [walk_cons_internal hk]; exact ih hq
      · simp at h

theorem pathFrom_complete {nodes : List Node} {fuel k i : Nat} {p : Bits} (h : walk nodes k p = some i) (hf : p.length ≤ fuel) :
    ∃ q, pathFrom nodes fuel k i = some q := by
  induction fuel generalizing k p with
  | zero =>
    have : p = [] := List.length_eq_zero_iff.1 (by omega)
    subst this
    simp only [walk_nil, Option.some.injEq] at h
    exact ⟨[], by simp [pathFrom, h]⟩
  | succ fuel ih =>
    unfold pathFrom
    by_cases hki : k = i
    · exact ⟨[], by simp [hki]⟩
    · rw [if_neg hki]
      cases p with
      | nil => simp only [walk_nil, Option.some.injEq] at h; exact absurd h hki
      | cons b p =>
        obtain ⟨f, l, r, hk, hw⟩ := walk_cons_eq_some h
        simp only [hk]
        cases hl : pathFrom nodes fuel l i with
        | some q => exact ⟨false :: q, rfl⟩
        | none =>
          cases b with
          | false =>
            obtain ⟨q, hq⟩ := ih (k := l) hw (by simp only [List.length_cons] at hf; omega)
            rw [hq] at hl; simp at hl
          | true =>
            obtain ⟨q, hq⟩ := ih (k := r) hw (by simp only [List.length_cons] at hf; omega)
            exact ⟨true :: q, by simp [hq]⟩

/-! Walks in a built tree. -/

/-- Every node is reached from the root, along at most `root - i` branches. -/
theorem exists_walk {ft : FreqTable} (h : ft ≠ []) {i : Nat} (hi : i ≤ (build ft).root) :
    ∃ p : Bits, walk (build ft).nodes (build ft).root p = some i ∧ p.length ≤ (build ft).root - i := by
  generalize hd : (build ft).root - i = d
  induction d using Nat.strong_induction_on generalizing i with
  | _ d ih =>
    by_cases hr : i = (build ft).root
    · exact ⟨[], by simp [hr], Nat.zero_le _⟩
    · obtain ⟨m, x, hx, hc⟩ := build_parent h (c := i) (by omega)
      cases x with
      | leaf => simp [Node.children] at hc
      | internal f l r =>
        obtain ⟨hl, hrr, _⟩ := build_child h hx
        have hmr : m ≤ (build ft).root := by
          have := (List.getElem?_eq_some_iff.1 hx).1
          have := build_root h; omega
        simp only [Node.children, List.mem_cons, List.not_mem_nil, or_false] at hc
        obtain ⟨p, hp, hpl⟩ := ih _ (by rcases hc with rfl | rfl <;> omega) hmr rfl
        refine ⟨p ++ [if i = l then false else true], ?_, ?_⟩
        · rw [walk_append, hp, Option.bind_some, walk_cons_internal hx]
          by_cases hil : i = l
          · simp [hil]
          · rcases hc with rfl | rfl
            · exact absurd rfl hil
            · simp [hil]
        · rw [List.length_append, List.length_singleton]
          rcases hc with rfl | rfl <;> omega

theorem pathTo_walk {ft : FreqTable} (h : ft ≠ []) {i : Nat} (hi : i ≤ (build ft).root) :
    walk (build ft).nodes (build ft).root (pathTo (build ft) i) = some i := by
  obtain ⟨p, hp, hl⟩ := exists_walk h hi
  have := build_root h
  obtain ⟨q, hq⟩ := pathFrom_complete (fuel := (build ft).nodes.length) hp (by omega)
  unfold pathTo
  rw [hq]; exact pathFrom_sound hq

/-- A node has one parent, so there is one walk to it (R161). -/
theorem walk_unique {ft : FreqTable} (h : ft ≠ []) {p q : Bits} {i : Nat}
    (hp : walk (build ft).nodes (build ft).root p = some i) (hq : walk (build ft).nodes (build ft).root q = some i) : p = q :=
        by
  have hnd : ((build ft).root :: (build ft).nodes.flatMap Node.children).Nodup := (build_perm h).nodup_iff.2 List.nodup_range
  obtain ⟨hroot, hnd⟩ := List.nodup_cons.1 hnd
  have last : ∀ {p : Bits} {b : Bool} {i : Nat}, walk (build ft).nodes (build ft).root (p ++ [b]) = some i →
      ∃ m f l r, walk (build ft).nodes (build ft).root p = some m ∧ (build ft).nodes[m]? = some (.internal f l r) ∧
        i = if b then r else l := by
    intro p b i hw
    rw [walk_append] at hw
    obtain ⟨m, hm, hw⟩ := Option.bind_eq_some_iff.1 hw
    obtain ⟨f, l, r, hk, hw⟩ := walk_cons_eq_some hw
    simp only [walk_nil, Option.some.injEq] at hw
    exact ⟨m, f, l, r, hm, hk, hw.symm⟩
  have child : ∀ {m f l r : Nat} {b : Bool}, (build ft).nodes[m]? = some (.internal f l r) →
      (if b then r else l) ∈ (build ft).nodes.flatMap Node.children := by
    intro m f l r b hk
    exact List.mem_flatMap.2 ⟨_, List.mem_of_getElem? hk, by cases b <;> simp [Node.children]⟩
  have uniq : ∀ {m m' f l r f' l' r' : Nat} {b b' : Bool}, (build ft).nodes[m]? = some (.internal f l r) →
      (build ft).nodes[m']? = some (.internal f' l' r') → (if b then r else l) = (if b' then r' else l') → m = m' ∧ b = b' := by
    intro m m' f l r f' l' r' b b' hk hk' he
    have hm : m = m' := by
      by_contra hne
      rw [List.nodup_flatMap] at hnd
      have hpw := hnd.2
      rw [List.pairwise_iff_getElem] at hpw
      obtain ⟨h1, e1⟩ := List.getElem?_eq_some_iff.1 hk
      obtain ⟨h2, e2⟩ := List.getElem?_eq_some_iff.1 hk'
      have c1 : (if b then r else l) ∈ Node.children (build ft).nodes[m] := by rw [e1]; cases b <;> simp [Node.children]
      have c2 : (if b then r else l) ∈ Node.children (build ft).nodes[m'] := by
        rw [e2, he]; cases b' <;> simp [Node.children]
      rcases Nat.lt_or_gt_of_ne hne with hlt | hlt
      · exact hpw m m' h1 h2 hlt c1 c2
      · exact hpw m' m h2 h1 hlt c2 c1
    subst hm
    rw [hk] at hk'
    injection hk' with hk'; injection hk' with _ e2 e3
    subst e2 e3
    obtain ⟨hlr, _⟩ := build_child h hk
    obtain ⟨_, _, ⟨u, v, _, _, _⟩, _⟩ := build_child h hk
    have hne : l ≠ r := by
      have := (List.nodup_flatMap.1 hnd).1 _ (List.mem_of_getElem? hk)
      simpa [Node.children] using this
    refine ⟨rfl, ?_⟩
    cases b <;> cases b' <;> simp_all
  induction p using List.reverseRecOn generalizing q i with
  | nil =>
    simp only [walk_nil, Option.some.injEq] at hp
    rcases List.eq_nil_or_concat' q with rfl | ⟨q, b, rfl⟩
    · rfl
    · obtain ⟨m, f, l, r, _, hk, hi⟩ := last hq
      have := child (b := b) hk
      rw [← hi, ← hp] at this
      exact absurd this hroot
  | append_singleton p b ih =>
    obtain ⟨m, f, l, r, hm, hk, hi⟩ := last hp
    rcases List.eq_nil_or_concat' q with rfl | ⟨q, b', rfl⟩
    · simp only [walk_nil, Option.some.injEq] at hq
      have := child (b := b) hk
      rw [← hi, ← hq] at this
      exact absurd this hroot
    · obtain ⟨m', f', l', r', hm', hk', hi'⟩ := last hq
      obtain ⟨rfl, rfl⟩ := uniq hk hk' (hi.symm.trans hi')
      rw [ih hm hm']

/-- Below every node there is a leaf. -/
theorem exists_leaf_below {ft : FreqTable} (h : ft ≠ []) (k : Nat) (hk : k < (build ft).nodes.length) :
    ∃ p i, walk (build ft).nodes k p = some i ∧ i < ft.length := by
  induction k using Nat.strong_induction_on with
  | _ k ih =>
    by_cases hl : k < ft.length
    · exact ⟨[], k, rfl, hl⟩
    · obtain ⟨f, l, r, hn⟩ := build_internal h (by omega) hk
      obtain ⟨h1, h2, _⟩ := build_child h hn
      obtain ⟨p, i, hp, hi⟩ := ih l h1 (by omega)
      exact ⟨false :: p, i, by rw [walk_cons_internal hn]; exact hp, hi⟩

/-! The derived code table. -/

theorem deriveCodes_single (e : FtEntry) : deriveCodes (build [e]) = [⟨e.sym, [false]⟩] := by
  have h1 := build_leaf (ft := [e]) (by simp) (i := 0) (e := e) rfl
  have h2 := build_root (ft := [e]) (by simp)
  have h3 := build_length (ft := [e]) (by simp)
  have h4 : (build [e]).root = 0 := by simp at h3; omega
  simp [deriveCodes, h4, h1]

/-- The codes of a table: each symbol with the path to the leaf of its index. -/
def pathCodes (t : Tree) (ft : FreqTable) (n : Nat) : CodeTable := (ft.zipIdx n).map fun x => ⟨x.1.sym, pathTo t x.2⟩

theorem filterMap_leaves (t : Tree) (ft : FreqTable) (n : Nat) :
    ((leavesOf ft).zipIdx n).filterMap (fun x => match x.1 with
      | .leaf y _ => some (⟨y, pathTo t x.2⟩ : CodeEntry)
      | .internal _ _ _ => none) = pathCodes t ft n := by
  induction ft generalizing n with
  | nil => rfl
  | cons e ft ih => simpa [leavesOf, pathCodes] using ih (n + 1)

theorem filterMap_internal (t : Tree) (ins : List Node) (n : Nat) (h : ∀ x ∈ ins, x.isLeaf = false) :
    (ins.zipIdx n).filterMap (fun x => match x.1 with
      | .leaf y _ => some (⟨y, pathTo t x.2⟩ : CodeEntry)
      | .internal _ _ _ => none) = [] := by
  induction ins generalizing n with
  | nil => rfl
  | cons x ins ih =>
    have hx := h x (by simp)
    cases x with
    | leaf => simp [Node.isLeaf] at hx
    | internal => simpa using ih (n + 1) (fun y hy => h y (by simp [hy]))

/-- R160: with two symbols or more, the table gives each leaf its path, in FT order. -/
theorem deriveCodes_eq {ft : FreqTable} (h : 2 ≤ ft.length) : deriveCodes (build ft) = pathCodes (build ft) ft 0 := by
  have hne : ft ≠ [] := by rintro rfl; simp at h
  have hr := build_root hne
  have hl := build_length hne
  obtain ⟨f, l, r, hk⟩ := build_internal hne (m := (build ft).root) (by omega) (by omega)
  obtain ⟨ins, hn, hi, _⟩ := build_nodes hne
  unfold deriveCodes
  rw [hk]
  simp only
  conv_lhs => arg 2; rw [hn, List.zipIdx_append]
  rw [List.filterMap_append]
  exact (congrArg₂ (· ++ ·) (filterMap_leaves _ _ _) (filterMap_internal _ _ _ hi)).trans (List.append_nil _)

theorem deriveCodes_syms {ft : FreqTable} (h : ft ≠ []) :
    (deriveCodes (build ft)).map CodeEntry.sym = ft.map FtEntry.sym := by
  match ft, h with
  | [e], _ => rw [deriveCodes_single]; rfl
  | e :: e' :: ft, _ =>
    rw [deriveCodes_eq (by simp)]
    unfold pathCodes
    rw [List.map_map]
    have : (CodeEntry.sym ∘ fun x : FtEntry × Nat => (⟨x.1.sym, pathTo (build (e :: e' :: ft)) x.2⟩ : CodeEntry)) =
        FtEntry.sym ∘ Prod.fst := rfl
    rw [this, ← List.map_map, List.zipIdx_map_fst]

theorem deriveCodes_length {ft : FreqTable} (h : ft ≠ []) : (deriveCodes (build ft)).length = ft.length := by
  have := congrArg List.length (deriveCodes_syms h)
  simpa using this

/-- Entry i's code is the path to leaf i. -/
theorem deriveCodes_getElem {ft : FreqTable} (h : 2 ≤ ft.length) {i : Nat} {c : CodeEntry}
    (hc : (deriveCodes (build ft))[i]? = some c) : i < ft.length ∧ c.code = pathTo (build ft) i := by
  rw [deriveCodes_eq h] at hc
  unfold pathCodes at hc
  rw [List.getElem?_map, List.getElem?_zipIdx] at hc
  cases hf : ft[i]? with
  | none => simp [hf] at hc
  | some e =>
    simp only [hf, Option.map_some, Option.some.injEq] at hc
    subst hc
    exact ⟨(List.getElem?_eq_some_iff.1 hf).1, by simp⟩

/-- R160, R161: the walk along entry i's code ends at leaf i, and no code is empty. -/
theorem deriveCodes_walk {ft : FreqTable} (h : 2 ≤ ft.length) {i : Nat} {c : CodeEntry}
    (hc : (deriveCodes (build ft))[i]? = some c) :
    c.code ≠ [] ∧ walk (build ft).nodes (build ft).root c.code = some i := by
  have hne : ft ≠ [] := by rintro rfl; simp at h
  have hr := build_root hne
  have hl := build_length hne
  obtain ⟨hi, he⟩ := deriveCodes_getElem h hc
  have hw := pathTo_walk hne (i := i) (by omega)
  rw [he]
  refine ⟨fun h0 => ?_, hw⟩
  rw [h0, walk_nil, Option.some.injEq] at hw
  omega

theorem build_isLeaf {ft : FreqTable} (h : ft ≠ []) {i : Nat} (hi : i < ft.length) :
    ∃ x f, (build ft).nodes[i]? = some (.leaf x f) :=
  ⟨_, _, build_leaf h (List.getElem?_eq_getElem hi)⟩

/-- A walk to a leaf is no proper beginning of another walk. -/
theorem walk_prefix_leaf {ft : FreqTable} (h : ft ≠ []) {p q : Bits} {i j : Nat} (hi : i < ft.length)
    (hp : walk (build ft).nodes (build ft).root p = some i) (hq : walk (build ft).nodes (build ft).root q = some j)
    (hpq : p <+: q) : p = q ∧ i = j := by
  obtain ⟨r, rfl⟩ := hpq
  rw [walk_append, hp, Option.bind_some] at hq
  obtain ⟨x, f, hx⟩ := build_isLeaf h hi
  obtain ⟨rfl, rfl⟩ := (walk_leaf hx r j).1 hq
  simp

/-- R162: no code is a prefix of another entry's code. -/
theorem deriveCodes_prefixFree {ft : FreqTable} (h : ft ≠ []) {i j : Nat} {a b : CodeEntry}
    (ha : (deriveCodes (build ft))[i]? = some a) (hb : (deriveCodes (build ft))[j]? = some b) (hij : i ≠ j) :
    ¬ a.code <+: b.code := by
  have hl := deriveCodes_length h
  have hi := (List.getElem?_eq_some_iff.1 ha).1
  have hj := (List.getElem?_eq_some_iff.1 hb).1
  have h2 : 2 ≤ ft.length := by omega
  intro hp
  exact hij (walk_prefix_leaf h (by omega) (deriveCodes_walk h2 ha).2 (deriveCodes_walk h2 hb).2 hp).2

theorem deriveCodes_code_ne_nil {ft : FreqTable} (h : ft ≠ []) {e : CodeEntry} (he : e ∈ deriveCodes (build ft)) :
    e.code ≠ [] := by
  obtain ⟨i, hi⟩ := List.getElem?_of_mem he
  match ft, h with
  | [x], _ => rw [deriveCodes_single] at he; simp at he; simp [he]
  | x :: y :: ft, _ => exact (deriveCodes_walk (by simp) hi).1

/-- R25, R162: the code table of a legal frequency table is legal. -/
theorem deriveCodes_wf {ft : FreqTable} (h : ft ≠ []) (ha : ft.Pairwise (fun a b => a.sym < b.sym)) :
    CodeTable.wf (deriveCodes (build ft)) := by
  refine ⟨?_, fun e he => deriveCodes_code_ne_nil h he, ?_⟩
  · have : ((deriveCodes (build ft)).map CodeEntry.sym).Pairwise (· < ·) := by
      rw [deriveCodes_syms h]; exact List.pairwise_map.2 ha
    exact List.pairwise_map.1 this
  · rw [List.pairwise_iff_getElem]
    intro i j hi hj hij
    exact ⟨deriveCodes_prefixFree h (List.getElem?_eq_getElem hi) (List.getElem?_eq_getElem hj) (by omega),
      deriveCodes_prefixFree h (List.getElem?_eq_getElem hj) (List.getElem?_eq_getElem hi) (by omega)⟩

/-! Lookups in a code table. -/

theorem codeOf_eq_some_mem {ct : CodeTable} {x : Nat} {c : Bits} (h : codeOf ct x = some c) : ⟨x, c⟩ ∈ ct := by
  induction ct with
  | nil => simp [codeOf] at h
  | cons e ct ih =>
    unfold codeOf at h
    split at h
    · rename_i hx; injection h with h; subst hx h; simp
    · exact List.mem_cons_of_mem _ (ih h)

theorem codeOf_of_mem {ct : CodeTable} (hs : ct.Pairwise (fun a b => a.sym < b.sym)) {e : CodeEntry} (he : e ∈ ct) :
    codeOf ct e.sym = some e.code := by
  induction ct with
  | nil => simp at he
  | cons d ct ih =>
    obtain ⟨hd, hs⟩ := List.pairwise_cons.1 hs
    unfold codeOf
    rcases List.mem_cons.1 he with rfl | he
    · simp
    · rw [if_neg (by have := hd e he; omega)]; exact ih hs he

theorem codeOf_isSome {ct : CodeTable} {x : Nat} : (codeOf ct x).isSome = true ↔ x ∈ ct.map CodeEntry.sym := by
  induction ct with
  | nil => simp [codeOf]
  | cons d ct ih =>
    unfold codeOf
    split
    · rename_i h; simp [h]
    · rename_i h; rw [ih]; simp [Ne.symm h]

/-- The code of entry i of a derived table, when FT is legal. -/
theorem codeOf_deriveCodes {ft : FreqTable} (h : ft ≠ []) (x : Nat) :
    (codeOf (deriveCodes (build ft)) x).isSome = true ↔ x ∈ ft.map FtEntry.sym := by
  rw [codeOf_isSome, deriveCodes_syms h]

theorem invLookup_eq_some {ct : CodeTable} {b : Bits} {x : Nat} (h : invLookup ct b = some x) : ⟨x, b⟩ ∈ ct := by
  induction ct with
  | nil => simp [invLookup] at h
  | cons e ct ih =>
    unfold invLookup at h
    split at h
    · rename_i hb; injection h with h; subst hb h; simp
    · exact List.mem_cons_of_mem _ (ih h)

theorem invLookup_of_mem {ct : CodeTable} (hw : CodeTable.wf ct) {e : CodeEntry} (he : e ∈ ct) :
    invLookup ct e.code = some e.sym := by
  obtain ⟨-, -, hp⟩ := hw
  induction ct with
  | nil => simp at he
  | cons d ct ih =>
    obtain ⟨hd, hp⟩ := List.pairwise_cons.1 hp
    unfold invLookup
    rcases List.mem_cons.1 he with rfl | he
    · simp
    · rw [if_neg (fun h : d.code = e.code => (hd e he).1 (h ▸ List.prefix_rfl))]; exact ih he hp

theorem invLookup_eq_none {ct : CodeTable} {b : Bits} : invLookup ct b = none ↔ ∀ e ∈ ct, e.code ≠ b := by
  induction ct with
  | nil => simp [invLookup]
  | cons e ct ih =>
    unfold invLookup
    split
    · rename_i h; simp [h]
    · rename_i h; simp [ih, h]

/-! Splitting a bit string into codes (R163). -/

/-- Following a bit string down from a node, either a leaf comes first, or the string ends before a leaf. -/
theorem walk_split {ft : FreqTable} (h : ft ≠ []) (b : Bits) (k : Nat) (hk : k < (build ft).nodes.length) :
    (∃ p q i, b = p ++ q ∧ walk (build ft).nodes k p = some i ∧ i < ft.length) ∨
    (∃ q i, q ≠ [] ∧ walk (build ft).nodes k (b ++ q) = some i ∧ i < ft.length) := by
  induction b generalizing k with
  | nil =>
    obtain ⟨p, i, hp, hi⟩ := exists_leaf_below h k hk
    by_cases hne : p = []
    · subst hne; exact .inl ⟨[], [], i, rfl, hp, hi⟩
    · exact .inr ⟨p, i, hne, hp, hi⟩
  | cons x b ih =>
    by_cases hl : k < ft.length
    · exact .inl ⟨[], x :: b, k, rfl, rfl, hl⟩
    · obtain ⟨f, l, r, hn⟩ := build_internal h (by omega) hk
      obtain ⟨h1, h2, _⟩ := build_child h hn
      rcases ih (if x then r else l) (by split <;> omega) with ⟨p, q, i, rfl, hp, hi⟩ | ⟨q, i, hq, hp, hi⟩
      · exact .inl ⟨x :: p, q, i, rfl, by rw [walk_cons_internal hn]; exact hp, hi⟩
      · exact .inr ⟨q, i, hq, by rw [List.cons_append, walk_cons_internal hn]; exact hp, hi⟩

/-- The walk to leaf i is entry i's code. -/
theorem deriveCodes_of_walk {ft : FreqTable} (h : 2 ≤ ft.length) {p : Bits} {i : Nat} (hi : i < ft.length)
    (hp : walk (build ft).nodes (build ft).root p = some i) :
    ∃ e, (deriveCodes (build ft))[i]? = some e ∧ e.code = p := by
  have hne : ft ≠ [] := by rintro rfl; simp at h
  have hl := deriveCodes_length hne
  have hi' : i < (deriveCodes (build ft)).length := by omega
  have he := List.getElem?_eq_getElem hi'
  exact ⟨_, he, walk_unique hne (deriveCodes_walk h he).2 hp⟩

/-- R163: every bit string is some codes followed by a proper prefix of a code. -/
theorem exists_split {ft : FreqTable} (h : 2 ≤ ft.length) (b : Bits) :
    ∃ (es : CodeTable) (r : Bits), (∀ e ∈ es, e ∈ deriveCodes (build ft)) ∧ b = es.flatMap CodeEntry.code ++ r ∧
      ∃ e ∈ deriveCodes (build ft), r <+: e.code ∧ r ≠ e.code := by
  have hne : ft ≠ [] := by rintro rfl; simp at h
  have hr := build_root hne
  generalize hn : b.length = n
  induction n using Nat.strong_induction_on generalizing b with
  | _ n ih =>
    rcases walk_split hne b (build ft).root (by omega) with ⟨p, q, i, rfl, hp, hi⟩ | ⟨q, i, hq, hp, hi⟩
    · obtain ⟨e, he, rfl⟩ := deriveCodes_of_walk h hi hp
      have hpos := List.length_pos_iff.2 (deriveCodes_walk h he).1
      obtain ⟨es, r, hes, rfl, hlast⟩ := ih q.length (by rw [List.length_append] at hn; omega) q rfl
      refine ⟨e :: es, r, ?_, by simp, hlast⟩
      intro x hx
      rcases List.mem_cons.1 hx with rfl | hx
      · exact List.mem_of_getElem? he
      · exact hes x hx
    · obtain ⟨e, he, hc⟩ := deriveCodes_of_walk h hi hp
      refine ⟨[], b, by simp, by simp, e, List.mem_of_getElem? he, by rw [hc]; exact List.prefix_append b q, ?_⟩
      rw [hc]; intro hb
      have := congrArg List.length hb
      rw [List.length_append] at this
      exact hq (List.length_eq_zero_iff.1 (by omega))

/-- Two entries of a legal table whose codes begin one bit string are the same entry. -/
theorem code_unique {ct : CodeTable} (hw : CodeTable.wf ct) {d e : CodeEntry} (hd : d ∈ ct) (he : e ∈ ct) {b : Bits}
    (h1 : d.code <+: b) (h2 : e.code <+: b) : d = e := by
  obtain ⟨i, hi, rfl⟩ := List.getElem_of_mem hd
  obtain ⟨j, hj, rfl⟩ := List.getElem_of_mem he
  have hp := List.pairwise_iff_getElem.1 hw.2.2
  rcases Nat.lt_trichotomy i j with hlt | rfl | hlt
  · have := hp i j hi hj hlt
    rcases List.prefix_or_prefix_of_prefix h1 h2 with h | h
    · exact absurd h this.1
    · exact absurd h this.2
  · rfl
  · have := hp j i hj hi hlt
    rcases List.prefix_or_prefix_of_prefix h1 h2 with h | h
    · exact absurd h this.2
    · exact absurd h this.1

/-- R163: there is one such split. A rest that no code begins ends it. -/
theorem split_unique {ct : CodeTable} (hw : CodeTable.wf ct) {es es' : CodeTable} {r r' : Bits} (h : ∀ e ∈ es, e ∈ ct)
    (h' : ∀ e ∈ es', e ∈ ct) (hr : ∀ e ∈ ct, ¬ e.code <+: r) (hr' : ∀ e ∈ ct, ¬ e.code <+: r')
    (he : es.flatMap CodeEntry.code ++ r = es'.flatMap CodeEntry.code ++ r') : es = es' ∧ r = r' := by
  induction es generalizing es' with
  | nil =>
    cases es' with
    | nil => simpa using he
    | cons d es' =>
      simp only [List.flatMap_nil, List.nil_append, List.flatMap_cons, List.append_assoc] at he
      exact absurd (he ▸ List.prefix_append _ _) (hr d (h' d (by simp)))
  | cons e es ih =>
    cases es' with
    | nil =>
      simp only [List.flatMap_nil, List.nil_append, List.flatMap_cons, List.append_assoc] at he
      exact absurd (he ▸ List.prefix_append _ _) (hr' e (h e (by simp)))
    | cons d es' =>
      simp only [List.flatMap_cons, List.append_assoc] at he
      have hp : d.code <+: e.code ++ (es.flatMap CodeEntry.code ++ r) := by rw [he]; exact List.prefix_append _ _
      have hed : e = d := code_unique hw (h e (by simp)) (h' d (by simp)) (List.prefix_append _ _) hp
      subst hed
      obtain ⟨rfl, rfl⟩ := ih (fun x hx => h x (by simp [hx])) (fun x hx => h' x (by simp [hx])) (List.append_cancel_left he)
      exact ⟨rfl, rfl⟩

/-- A proper prefix of one code has no code as its prefix. -/
theorem not_prefix_of_proper {ct : CodeTable} (hw : CodeTable.wf ct) {r : Bits} {e : CodeEntry} (he : e ∈ ct)
    (h1 : r <+: e.code) (h2 : r ≠ e.code) : ∀ d ∈ ct, ¬ d.code <+: r := by
  intro d hd hdr
  have := code_unique hw hd he (hdr.trans h1) List.prefix_rfl
  subst this
  exact h2 (List.IsPrefix.eq_of_length h1 (Nat.le_antisymm h1.length_le hdr.length_le))

/-! The length bound (R11). -/

theorem build_leaf_freq {ft : FreqTable} (h : ft ≠ []) (hc : ∀ e ∈ ft, 1 ≤ e.count) {i x f : Nat}
    (hx : (build ft).nodes[i]? = some (.leaf x f)) : 1 ≤ f := by
  obtain ⟨ins, hn, hi, _⟩ := build_nodes h
  rw [hn] at hx
  rcases List.mem_append.1 (List.mem_of_getElem? hx) with hm | hm
  · obtain ⟨e, he, hm⟩ := List.mem_map.1 hm
    injection hm with _ hm
    exact hm ▸ hc e he
  · have := hi _ hm; simp [Node.isLeaf] at this

@[simp] theorem freq_internal (f l r : Nat) : (Node.internal f l r).freq = f := rfl

theorem freq_le_of_keyBefore {nodes : List Node} {a b : Nat} {x y : Node} (h : keyBefore nodes a b) (hx : nodes[a]? = some x)
    (hy : nodes[b]? = some y) : x.freq ≤ y.freq := by
  obtain ⟨x', y', hx', hy', h⟩ := h
  rw [hx] at hx'; rw [hy] at hy'
  injection hx' with hx'; injection hy' with hy'
  subst hx' hy'
  omega

/-- A node with a path of length n below it has a frequency of at least the (n + 2)-th Fibonacci number. -/
theorem fib_le_freq {ft : FreqTable} (h : ft ≠ []) (hc : ∀ e ∈ ft, 1 ≤ e.count) (n : Nat) :
    ∀ {k i : Nat} {p : Bits} {x : Node}, p.length = n → walk (build ft).nodes k p = some i →
      (build ft).nodes[k]? = some x → Nat.fib (n + 2) ≤ x.freq := by
  induction n using Nat.strong_induction_on with
  | _ n ih =>
    intro k i p x hn hp hx
    have pos : ∀ (k : Nat) (x : Node), (build ft).nodes[k]? = some x → 1 ≤ x.freq := by
      intro k
      induction k using Nat.strong_induction_on with
      | _ k ihk =>
        intro x hx
        cases x with
        | leaf y f => exact build_leaf_freq h hc hx
        | internal f l r =>
          obtain ⟨h1, _, _, u, v, hu, _, rfl⟩ := build_child h hx
          have := ihk l h1 u hu
          rw [freq_internal]; omega
    match p with
    | [] => subst hn; simpa using pos k x hx
    | [b] =>
      subst hn
      obtain ⟨f, l, r, hk, hw⟩ := walk_cons_eq_some hp
      rw [hx] at hk; injection hk with hk; subst hk
      obtain ⟨_, _, _, u, v, hu, hv, rfl⟩ := build_child h hx
      have := pos l u hu; have := pos r v hv
      rw [freq_internal, List.length_singleton]
      show 2 ≤ _
      omega
    | b :: b' :: p =>
      subst hn
      obtain ⟨f, l, r, hk, hw⟩ := walk_cons_eq_some hp
      rw [hx] at hk; injection hk with hk; subst hk
      obtain ⟨hlk, hrk, _, u, v, hu, hv, rfl⟩ := build_child h hx
      obtain ⟨f', l', r', hk', hw'⟩ := walk_cons_eq_some hw
      obtain ⟨_, _, _, u', v', hu', hv', rfl⟩ := build_child h hk'
      have hck : (if b then r else l) < k := by split <;> omega
      have big := ih (p.length + 1) (by simp) (p := b' :: p) rfl hw hk'
      have small : Nat.fib (p.length + 2) ≤ (if b' then v' else u').freq := by
        refine ih p.length (by simp only [List.length_cons]; omega) (p := p) rfl hw' ?_
        cases b' <;> simpa using ‹_›
      have le : (if b' then v' else u').freq ≤ (if b then u else v).freq := by
        refine freq_le_of_keyBefore (a := if b' then r' else l') (b := if b then l else r)
          (build_order h hck hk' hx ?_ ?_) ?_ ?_
        · cases b' <;> simp [Node.children]
        · cases b <;> simp [Node.children]
        · cases b' <;> simpa using ‹_›
        · cases b <;> simpa using ‹_›
      have fib : Nat.fib ((b :: b' :: p).length + 2) = Nat.fib (p.length + 2) + Nat.fib (p.length + 1 + 2) := by
        simp only [List.length_cons]
        exact Nat.fib_add_two
      rw [fib]
      have hcf : (build ft).nodes[if b then r else l]? = some (if b then v else u) := by cases b <;> simpa using ‹_›
      rw [hcf] at hk'; injection hk' with hk'
      rw [← hk'] at big
      rw [freq_internal]
      cases b <;> simp at * <;> omega

/-- R11: a walk from the root has at most 45 branches. -/
theorem walk_length_le {ft : FreqTable} (h : ft ≠ []) (hw : FreqTable.wf ft) {p : Bits} {i : Nat}
    (hp : walk (build ft).nodes (build ft).root p = some i) : p.length ≤ 45 := by
  have hr := build_root h
  have hx := List.getElem?_eq_getElem (l := (build ft).nodes) (i := (build ft).root) (by omega)
  have hf := build_root_freq h
  rw [hx] at hf
  simp only [Option.map_some, Option.some.injEq] at hf
  have := fib_le_freq h hw.2.2.1 p.length rfl hp hx
  by_contra hgt
  have hm : Nat.fib 48 ≤ Nat.fib (p.length + 2) := Nat.fib_mono (by omega)
  have h48 : Nat.fib 48 = 4807526976 := by norm_num [Nat.fib_add_two]
  have := hw.2.2.2
  unfold countMax at this
  omega

theorem deriveCodes_code_length_le {ft : FreqTable} (h : ft ≠ []) (hw : FreqTable.wf ft) {e : CodeEntry}
    (he : e ∈ deriveCodes (build ft)) : e.code.length ≤ 45 := by
  obtain ⟨i, hi⟩ := List.getElem?_of_mem he
  match ft, h with
  | [x], _ => rw [deriveCodes_single] at he; simp at he; simp [he]
  | x :: y :: ft, h => exact walk_length_le h hw (deriveCodes_walk (by simp) hi).2

/-! The tree is a tree (R24). -/

/-- Every node but the root is a child exactly once. -/
theorem build_count_child {ft : FreqTable} (h : ft ≠ []) : ∀ j < (build ft).root,
    ((build ft).nodes.flatMap Node.children).count j = 1 := by
  intro j hj
  have hp := build_perm h
  have hr := build_root h
  have := hp.count_eq j
  have hc : (List.range (build ft).nodes.length).count j = 1 := by
    rw [List.count_eq_one_of_mem List.nodup_range (List.mem_range.2 (by omega))]
  have hne : ¬ (build ft).root = j := by omega
  rw [List.count_cons_of_ne hne, hc] at this
  exact this

theorem build_wf {ft : FreqTable} (h : ft ≠ []) : Tree.wf (build ft) := by
  have hl := build_length h
  have hr := build_root h
  have hpos : 0 < ft.length := List.length_pos_iff.2 h
  refine ⟨by omega, hr, ?_, ?_, build_count_child h⟩
  · rintro ⟨x, j⟩ hx
    have hx := List.mem_zipIdx_iff_getElem?.1 hx
    simp only at hx ⊢
    have hj := (List.getElem?_eq_some_iff.1 hx).1
    by_cases hlt : j < ft.length
    · obtain ⟨a, b, e⟩ := build_isLeaf h hlt
      rw [e] at hx; injection hx with hx; subst hx
      simp [Node.isLeaf]; omega
    · obtain ⟨f, l, r, e⟩ := build_internal h (m := j) (by omega) hj
      rw [e] at hx; injection hx with hx; subst hx
      simp [Node.isLeaf]; omega
  · rintro ⟨x, j⟩ hx
    have hx := List.mem_zipIdx_iff_getElem?.1 hx
    simp only at hx ⊢
    cases x with
    | leaf => rfl
    | internal f l r =>
      obtain ⟨h1, h2, _, x, y, e1, e2, rfl⟩ := build_child h hx
      simp [nodeOk, h1, h2, e1, e2]

/-! The unit (R160). -/

theorem codeDerive_eq_ok {s t : State} :
    codeDerive s = .ok t ↔ ∃ tr, s.tree = some tr ∧ t = s.writeCt (some (deriveCodes tr)) := by
  unfold codeDerive
  split
  · simp [*]
  · rename_i tr h; simp [h, eq_comm]

theorem codeDerive_eq_error {s : State} {r : Raise} :
    codeDerive s = .error r ↔ s.tree = none ∧ r = s.notReady [.tree] := by
  unfold codeDerive
  split <;> simp [*, eq_comm]

end Sys2Proof.Machine
end

