-- ==== Sys2Proof/Laws/Scan.lean ====
section
/-! SUPPORT. Packing and scanning codes (R180, R230): what the two units do, and that a scan reads the codes back. -/

namespace Sys2Proof.Machine

/-! Codes of a symbol list. -/

theorem codesOf_nil {ct : CodeTable} {codes : List Bits} : CodesOf ct [] codes ↔ codes = [] := by
  unfold CodesOf; exact List.forall₂_nil_left_iff

theorem codesOf_cons {ct : CodeTable} {x : Nat} {xs : List Nat} {codes : List Bits} :
    CodesOf ct (x :: xs) codes ↔ ∃ c cs, codes = c :: cs ∧ codeOf ct x = some c ∧ CodesOf ct xs cs := by
  unfold CodesOf
  rw [List.forall₂_cons_left_iff]
  constructor
  · rintro ⟨c, cs, h1, h2, rfl⟩; exact ⟨c, cs, rfl, h1, h2⟩
  · rintro ⟨c, cs, rfl, h1, h2⟩; exact ⟨c, cs, h1, h2, rfl⟩

/-- The encoded payload is the concatenation of the codes. -/
theorem encodeSyms_eq {ct : CodeTable} {xs : List Nat} {codes : List Bits} (h : CodesOf ct xs codes) :
    encodeSyms ct xs = codes.flatten := by
  induction xs generalizing codes with
  | nil => rw [codesOf_nil.1 h]; rfl
  | cons x xs ih =>
    obtain ⟨c, cs, rfl, hc, h⟩ := codesOf_cons.1 h
    rw [List.flatten_cons, ← ih h]
    simp [encodeSyms, hc]

theorem exists_codesOf {ct : CodeTable} {xs : List Nat} (h : ∀ x ∈ xs, codeOf ct x ≠ none) :
    ∃ codes, CodesOf ct xs codes := by
  induction xs with
  | nil => exact ⟨[], codesOf_nil.2 rfl⟩
  | cons x xs ih =>
    obtain ⟨cs, hcs⟩ := ih (fun y hy => h y (by simp [hy]))
    obtain ⟨c, hc⟩ := Option.ne_none_iff_exists'.1 (h x (by simp))
    exact ⟨c :: cs, codesOf_cons.2 ⟨c, cs, rfl, hc, hcs⟩⟩

theorem codeOf_ne_none_of_codesOf {ct : CodeTable} {xs : List Nat} {codes : List Bits} (h : CodesOf ct xs codes) :
    ∀ x ∈ xs, codeOf ct x ≠ none := by
  induction xs generalizing codes with
  | nil => simp
  | cons x xs ih =>
    obtain ⟨c, cs, rfl, hc, h⟩ := codesOf_cons.1 h
    intro y hy
    rcases List.mem_cons.1 hy with rfl | hy
    · simp [hc]
    · exact ih h y hy

/-- Every symbol of FT has a code. -/
theorem exists_codesOf_ft {ft : FreqTable} (hne : ft ≠ []) :
    ∃ codes, CodesOf (deriveCodes (build ft)) (ft.map FtEntry.sym) codes := by
  apply exists_codesOf
  intro x hx
  have := (codeOf_deriveCodes hne x).2 hx
  intro h; rw [h] at this; cases this

/-- Every symbol of the input its table was counted from has a code. -/
theorem exists_codesOf_input {xs : List Nat} (h : freqTable xs ≠ []) :
    ∃ codes, CodesOf (deriveCodes (build (freqTable xs))) xs codes := by
  apply exists_codesOf
  intro x hx
  have hm : x ∈ (freqTable xs).map FtEntry.sym := by
    have : tableCount (freqTable xs) x ≠ 0 := by
      rw [tableCount_freqTable]; have := List.count_pos_iff.2 hx; omega
    obtain ⟨e, he, rfl⟩ := exists_mem_of_tableCount this
    exact List.mem_map_of_mem he
  have := (codeOf_deriveCodes h x).2 hm
  intro h; rw [h] at this; cases this

theorem codesOf_unique {ct : CodeTable} {xs : List Nat} {a b : List Bits} (h : CodesOf ct xs a) (h' : CodesOf ct xs b) : a = b := by
  induction xs generalizing a b with
  | nil => rw [codesOf_nil.1 h, codesOf_nil.1 h']
  | cons x xs ih =>
    obtain ⟨c, cs, rfl, hc, h⟩ := codesOf_cons.1 h
    obtain ⟨c', cs', rfl, hc', h'⟩ := codesOf_cons.1 h'
    rw [hc] at hc'; injection hc' with hc'; rw [hc', ih h h']

/-! The scan (R230). -/

/-- While no digit string completes a code, the scan only lengthens its accumulator. -/
theorem scanBits_none {ct : CodeTable} {cap : Nat} {acc : Bits} {out : List Nat} (b rest : Bits)
    (h : ∀ p, p ≠ [] → p <+: b → invLookup ct (acc ++ p) = none) :
    scanBits ct cap acc out (b ++ rest) = scanBits ct cap (acc ++ b) out rest := by
  induction b generalizing acc with
  | nil => simp
  | cons x b ih =>
    rw [List.cons_append, scanBits, h [x] (by simp) (by simp)]
    simp only
    rw [ih (fun p hp hpb => ?_)]
    · simp
    · have := h (x :: p) (by simp) (by simpa using hpb)
      simpa using this

/-- The scan emits the symbol of a code, or fails at the capacity. -/
theorem scanBits_code {ct : CodeTable} (hw : CodeTable.wf ct) {cap : Nat} {out : List Nat} {e : CodeEntry} (he : e ∈ ct)
    (rest : Bits) :
    scanBits ct cap [] out (e.code ++ rest) =
      if out.length = cap then .error ⟨.capacityExceeded, 4⟩ else scanBits ct cap [] (out ++ [e.sym]) rest := by
  obtain ⟨b, x, hb⟩ := List.eq_nil_or_concat' e.code |>.resolve_left (hw.2.1 e he)
  rw [hb, List.append_assoc, scanBits_none]
  · have hi := invLookup_of_mem hw he
    rw [hb] at hi
    simp only [List.nil_append, List.cons_append, scanBits, hi]
  · intro p hp hpb
    rw [List.nil_append, invLookup_eq_none]
    intro d hd hdp
    have h1 : d.code <+: e.code := by rw [hdp, hb]; exact hpb.trans (List.prefix_append _ _)
    have := code_unique hw hd he h1 List.prefix_rfl
    subst this
    have := hpb.length_le
    rw [← hdp, hb, List.length_append] at this
    simp at this

/-- The scan of some codes and a rest. -/
theorem scanBits_codes {ct : CodeTable} (hw : CodeTable.wf ct) {cap : Nat} {xs : List Nat} {codes : List Bits}
    (h : CodesOf ct xs codes) (left : Bits) (out : List Nat) (hout : out.length ≤ cap) :
    scanBits ct cap [] out (codes.flatten ++ left) =
      if cap < out.length + xs.length then .error ⟨.capacityExceeded, 4⟩ else scanBits ct cap [] (out ++ xs) left := by
  induction xs generalizing codes out with
  | nil =>
    rw [codesOf_nil.1 h]
    simp [show ¬ cap < out.length by omega]
  | cons x xs ih =>
    obtain ⟨c, cs, rfl, hc, h⟩ := codesOf_cons.1 h
    rw [List.flatten_cons, List.append_assoc]
    rw [show c = (⟨x, c⟩ : CodeEntry).code from rfl, scanBits_code hw (codeOf_eq_some_mem hc)]
    by_cases hcap : out.length = cap
    · simp [hcap]
    · rw [if_neg hcap, ih h _ (by simp only [List.length_append, List.length_singleton]; omega)]
      simp only [List.length_append, List.length_cons, List.length_nil, List.append_assoc, List.singleton_append]
      congr 1
      simp only [eq_iff_iff]; omega

/-- The scan from its start. -/
theorem scanBits_start {ct : CodeTable} (hw : CodeTable.wf ct) {cap : Nat} {out : List Nat} {codes : List Bits}
    (h : CodesOf ct out codes) (left : Bits) :
    scanBits ct cap [] [] (codes.flatten ++ left) =
      if cap < out.length then .error ⟨.capacityExceeded, 4⟩ else scanBits ct cap [] out left := by
  have := scanBits_codes hw h left (cap := cap) [] (by simp)
  simpa using this

/-- A rest that no code begins ends the scan: with nothing left it succeeds, else it is DecodeError(3). -/
theorem scanBits_rest {ct : CodeTable} {cap : Nat} {left : Bits} (out : List Nat) (h : ∀ e ∈ ct, ¬ e.code <+: left) :
    scanBits ct cap [] out left = if left = [] then .ok out else .error ⟨.decodeError, 3⟩ := by
  have := scanBits_none (ct := ct) (cap := cap) (acc := []) (out := out) left [] (fun p hp hpl => by
    rw [List.nil_append, invLookup_eq_none]
    intro e he hep
    exact h e he (hep ▸ hpl))
  rw [List.append_nil, List.nil_append] at this
  rw [this, scanBits]

/-- What a successful scan emitted: only symbols of the table, at most the capacity. -/
theorem scanBits_ok {ct : CodeTable} {cap : Nat} {acc bs : Bits} {out out' : List Nat} (h : scanBits ct cap acc out bs = .ok out')
    (hl : out.length ≤ cap) (hs : ∀ x ∈ out, x ∈ ct.map CodeEntry.sym) :
    out'.length ≤ cap ∧ ∀ x ∈ out', x ∈ ct.map CodeEntry.sym := by
  induction bs generalizing acc out with
  | nil =>
    unfold scanBits at h
    split at h
    · injection h with h; subst h; exact ⟨hl, hs⟩
    · cases h
  | cons b bs ih =>
    unfold scanBits at h
    split at h
    · rename_i x hx
      split at h
      · cases h
      · refine ih h (by simp only [List.length_append, List.length_singleton]; omega) ?_
        intro y hy
        rcases List.mem_append.1 hy with hy | hy
        · exact hs y hy
        · rw [List.mem_singleton.1 hy]
          exact List.mem_map.2 ⟨_, invLookup_eq_some hx, rfl⟩
    · exact ih h hl hs

/-- How a scan fails. -/
theorem scanBits_error {ct : CodeTable} {cap : Nat} {acc bs : Bits} {out : List Nat} {r : Raise}
    (h : scanBits ct cap acc out bs = .error r) : r = ⟨.decodeError, 3⟩ ∨ r = ⟨.capacityExceeded, 4⟩ := by
  induction bs generalizing acc out with
  | nil =>
    unfold scanBits at h
    split at h
    · cases h
    · injection h with h; exact .inl h.symm
  | cons b bs ih =>
    unfold scanBits at h
    split at h
    · split at h
      · injection h with h; exact .inr h.symm
      · exact ih h
    · exact ih h

/-! The bit packer (R180). -/

theorem findIdx_eq_none_iff {p : Nat → Bool} {xs : List Nat} : xs.findIdx? p = none ↔ ∀ x ∈ xs, p x = false := by
  rw [List.findIdx?_eq_none_iff]

theorem bitPack_notReady {s : State} (h : s.ct = none) : bitPack s = .error (s.notReady [.ct]) := by simp [bitPack, h]

theorem bitPack_capacity {s : State} {ct : CodeTable} (h : s.ct = some ct) (hc : s.caps.inSym < s.inSymLen.toNat) :
    bitPack s = .error ⟨.capacityExceeded, 1⟩ := by simp [bitPack, h, hc]

theorem bitPack_missing {s : State} {ct : CodeTable} {i : Nat} (h : s.ct = some ct) (hc : s.inSymLen.toNat ≤ s.caps.inSym)
    (hi : i < s.inSymLen.toNat) (hn : codeOf ct (s.inSym i) = none) (hb : ∀ j < i, codeOf ct (s.inSym j) ≠ none) :
    bitPack s = .error ⟨.missingCode, BitVec.ofNat 32 i⟩ := by
  have hf : s.inSyms.findIdx? (fun x => (codeOf ct x).isNone) = some i :=
    findIdx_inSyms hi (by simp [hn]) (fun j hj => by simpa [Option.isSome_iff_ne_none] using hb j hj)
  simp [bitPack, h, show ¬ s.caps.inSym < s.inSymLen.toNat by omega, hf]

/-- The packing itself, once every symbol has a code. -/
theorem bitPack_codes {s : State} {ct : CodeTable} {codes : List Bits} (h : s.ct = some ct)
    (hc : s.inSymLen.toNat ≤ s.caps.inSym) (hcodes : CodesOf ct s.inSyms codes) :
    bitPack s =
      if s.caps.payload < (packBits codes.flatten).length then .error ⟨.capacityExceeded, 5⟩
      else .ok { s with
        payload := some (packBits codes.flatten)
        pad := BitVec.ofNat 8 (padCount codes.flatten.length)
        pbits := BitVec.ofNat 64 codes.flatten.length } := by
  have hf : s.inSyms.findIdx? (fun x => (codeOf ct x).isNone) = none := by
    rw [findIdx_eq_none_iff]
    intro x hx
    have := codeOf_ne_none_of_codesOf hcodes x hx
    cases h : codeOf ct x <;> simp_all
  have he := encodeSyms_eq hcodes
  simp [bitPack, h, show ¬ s.caps.inSym < s.inSymLen.toNat by omega, hf, he, paddedStream_length_mod]

/-- Everything a BIT_PACK step can do on success. -/
theorem bitPack_eq_ok {s t : State} (h : bitPack s = .ok t) :
    ∃ ct codes, s.ct = some ct ∧ s.inSymLen.toNat ≤ s.caps.inSym ∧ CodesOf ct s.inSyms codes ∧
      (packBits codes.flatten).length ≤ s.caps.payload ∧
      t = { s with
        payload := some (packBits codes.flatten)
        pad := BitVec.ofNat 8 (padCount codes.flatten.length)
        pbits := BitVec.ofNat 64 codes.flatten.length } := by
  rcases Option.eq_none_or_eq_some s.ct with hct | ⟨ct, hct⟩
  · simp [bitPack_notReady hct] at h
  · by_cases hc : s.caps.inSym < s.inSymLen.toNat
    · simp [bitPack_capacity hct hc] at h
    · cases hf : s.inSyms.findIdx? (fun x => (codeOf ct x).isNone) with
      | some i => simp [bitPack, hct, hc, hf] at h
      | none =>
        rw [findIdx_eq_none_iff] at hf
        obtain ⟨codes, hcodes⟩ := exists_codesOf (ct := ct) (xs := s.inSyms) (fun x hx hn => by simpa [hn] using hf x hx)
        rw [bitPack_codes hct (by omega) hcodes] at h
        split at h
        · cases h
        · injection h with h
          exact ⟨ct, codes, hct, by omega, hcodes, by omega, h.symm⟩

/-- How a BIT_PACK step fails. InternalInvariant does not occur (R182). -/
theorem bitPack_eq_error {s : State} {r : Raise} (h : bitPack s = .error r) :
    (s.ct = none ∧ r = s.notReady [.ct]) ∨
    ∃ ct, s.ct = some ct ∧
      ((r = ⟨.capacityExceeded, 1⟩ ∧ s.caps.inSym < s.inSymLen.toNat) ∨
       (s.inSymLen.toNat ≤ s.caps.inSym ∧ ∃ x ∈ s.inSyms, codeOf ct x = none ∧ ∃ i, r = ⟨.missingCode, BitVec.ofNat 32 i⟩) ∨
       (s.inSymLen.toNat ≤ s.caps.inSym ∧ r = ⟨.capacityExceeded, 5⟩)) := by
  cases hct : s.ct with
  | none => rw [bitPack_notReady hct] at h; injection h with h; exact .inl ⟨rfl, h.symm⟩
  | some ct =>
    refine .inr ⟨ct, rfl, ?_⟩
    by_cases hc : s.caps.inSym < s.inSymLen.toNat
    · rw [bitPack_capacity hct hc] at h; injection h with h; exact .inl ⟨h.symm, hc⟩
    · cases hf : s.inSyms.findIdx? (fun x => (codeOf ct x).isNone) with
      | some i =>
        simp only [bitPack, hct, hc, hf, if_false] at h
        injection h with h
        obtain ⟨hi, hp, _⟩ := List.findIdx?_eq_some_iff_getElem.1 hf
        exact .inr (.inl ⟨by omega, s.inSyms[i], List.getElem_mem hi, by simpa using hp, i, h.symm⟩)
      | none =>
        rw [findIdx_eq_none_iff] at hf
        obtain ⟨codes, hcodes⟩ := exists_codesOf (ct := ct) (xs := s.inSyms) (fun x hx hn => by simpa [hn] using hf x hx)
        rw [bitPack_codes hct (by omega) hcodes] at h
        split at h
        · injection h with h; exact .inr (.inr ⟨by omega, h.symm⟩)
        · cases h

/-! The bit unpacker (R230). -/

theorem padOk_iff (p r : Nat) : padOk p r = true ↔ (p ≤ 7 ∧ p ≤ r) ∨ (p = 8 ∧ r = 8) := by
  simp [padOk]

theorem bitUnpack_notReady {s : State} (h : s.ct = none ∨ s.payload = none) :
    bitUnpack s = .error (s.notReady [.ct, .payload]) := by
  unfold bitUnpack
  rcases h with h | h
  · simp [h]
  · rw [h]; cases s.ct <;> rfl

theorem bitUnpack_empty {s : State} {ct : CodeTable} (h : s.ct = some ct) (hp : s.payload = some []) :
    bitUnpack s = .error ⟨.decodeError, 1⟩ := by simp [bitUnpack, h, hp]

theorem bitUnpack_badPad {s : State} {ct : CodeTable} {b : Byte} {rest : List Byte} (h : s.ct = some ct)
    (hp : s.payload = some (b :: rest)) (hb : padOk b.toNat (8 * rest.length) = false) :
    bitUnpack s = .error ⟨.decodeError, 2 ||| b.setWidth 32 <<< 8⟩ := by simp [bitUnpack, h, hp, hb]

theorem bitUnpack_scan {s : State} {ct : CodeTable} {b : Byte} {rest : List Byte} (h : s.ct = some ct)
    (hp : s.payload = some (b :: rest)) (hb : padOk b.toNat (8 * rest.length) = true) :
    bitUnpack s =
      match scanBits ct s.caps.outSym [] [] (payloadBits b.toNat rest) with
      | .error r => .error r
      | .ok out =>
        .ok { s with outSyms := some out, pad := b, pbits := BitVec.ofNat 64 (8 * rest.length - b.toNat) } := by
  unfold bitUnpack
  simp only [h, hp, hb, if_true]
  all_goals rfl

/-- R232 for the unit: unpacking what was packed with a legal table. -/
theorem bitUnpack_packBits {ct : CodeTable} (hw : CodeTable.wf ct) {xs : List Nat} {codes : List Bits} (h : CodesOf ct xs codes)
    {u : State} (hct : u.ct = some ct)
    (hp : u.payload = some (packBits codes.flatten)) (hcap : xs.length ≤ u.caps.outSym) :
    bitUnpack u = .ok { u with
      outSyms := some xs
      pad := BitVec.ofNat 8 (padCount codes.flatten.length)
      pbits := BitVec.ofNat 64 codes.flatten.length } := by
  obtain ⟨rest, hcons, hr⟩ := packBits_eq_cons codes.flatten
  rw [hcons] at hp
  have hl := congrArg List.length hr
  rw [unpackBits_length, List.length_append, List.length_replicate] at hl
  have h7 := padCount_le codes.flatten.length
  rw [bitUnpack_scan hct hp (by rw [padOk_iff, padCount_toNat]; omega), padCount_toNat, payloadBits_pack hr]
  have := scanBits_start hw (cap := u.caps.outSym) h []
  rw [List.append_nil, if_neg (by omega)] at this
  rw [this]
  simp only [scanBits, if_true]
  rw [show 8 * rest.length - padCount codes.flatten.length = codes.flatten.length by omega]

/-- Everything a BIT_UNPACK step can do on success. -/
theorem bitUnpack_eq_ok {s t : State} (h : bitUnpack s = .ok t) :
    ∃ ct b rest out, s.ct = some ct ∧ s.payload = some (b :: rest) ∧ padOk b.toNat (8 * rest.length) = true ∧
      scanBits ct s.caps.outSym [] [] (payloadBits b.toNat rest) = .ok out ∧
      t = { s with outSyms := some out, pad := b, pbits := BitVec.ofNat 64 (8 * rest.length - b.toNat) } := by
  rcases Option.eq_none_or_eq_some s.ct with hct | ⟨ct, hct⟩
  · simp [bitUnpack_notReady (.inl hct)] at h
  · rcases Option.eq_none_or_eq_some s.payload with hp | ⟨pl, hp⟩
    · simp [bitUnpack_notReady (.inr hp)] at h
    · match pl with
      | [] => simp [bitUnpack_empty hct hp] at h
      | b :: rest =>
        cases hb : padOk b.toNat (8 * rest.length) with
        | false => simp [bitUnpack_badPad hct hp hb] at h
        | true =>
          rw [bitUnpack_scan hct hp hb] at h
          split at h
          · cases h
          · rename_i out hs
            injection h with h
            exact ⟨ct, b, rest, out, hct, hp, hb, hs, h.symm⟩

/-- How a BIT_UNPACK step fails. -/
theorem bitUnpack_eq_error {s : State} {r : Raise} (h : bitUnpack s = .error r) :
    ((s.ct = none ∨ s.payload = none) ∧ r = s.notReady [.ct, .payload]) ∨ r = ⟨.decodeError, 1⟩ ∨
    (∃ b : Byte, r = ⟨.decodeError, 2 ||| b.setWidth 32 <<< 8⟩) ∨ r = ⟨.decodeError, 3⟩ ∨ r = ⟨.capacityExceeded, 4⟩ := by
  cases hct : s.ct with
  | none => rw [bitUnpack_notReady (.inl hct)] at h; injection h with h; exact .inl ⟨.inl rfl, h.symm⟩
  | some ct =>
    cases hp : s.payload with
    | none => rw [bitUnpack_notReady (.inr hp)] at h; injection h with h; exact .inl ⟨.inr rfl, h.symm⟩
    | some pl =>
      match pl with
      | [] => rw [bitUnpack_empty hct hp] at h; injection h with h; exact .inr (.inl h.symm)
      | b :: rest =>
        cases hb : padOk b.toNat (8 * rest.length) with
        | false =>
          rw [bitUnpack_badPad hct hp hb] at h; injection h with h; exact .inr (.inr (.inl ⟨b, h.symm⟩))
        | true =>
          rw [bitUnpack_scan hct hp hb] at h
          split at h
          · rename_i r' hs
            injection h with h; subst h
            rcases scanBits_error hs with hs | hs <;> simp [hs]
          · cases h

/-- The detail word of a bad padding count, as a number. -/
theorem badPad_info (b : Byte) : (2#32 ||| b.setWidth 32 <<< 8) = BitVec.ofNat 32 (2 + 256 * b.toNat) := by
  revert b; decide

end Sys2Proof.Machine
end

