-- ==== Sys2Proof/Laws/Container.lean ====
section
/-! SUPPORT. The container format (R200 to R204): parsing reads back what the header writes, and accepts nothing else. -/

namespace Sys2Proof.Machine

/-! Parsing a header's entries (R203). -/

/-- An entry's eight bytes. -/
def entryBytes (e : FtEntry) : List Byte := be32 e.sym ++ be32 e.count

@[simp] theorem entryBytes_length (e : FtEntry) : (entryBytes e).length = 8 := by simp [entryBytes]

theorem flatMap_entryBytes_length (ft : FreqTable) : (ft.flatMap entryBytes).length = 8 * ft.length := by
  induction ft with
  | nil => rfl
  | cons e ft ih => rw [List.flatMap_cons, List.length_append, ih, entryBytes_length, List.length_cons]; omega

theorem headerBytes_eq (ft : FreqTable) : headerBytes ft = be32 ft.length ++ ft.flatMap entryBytes := rfl

theorem headerBytes_length (ft : FreqTable) : (headerBytes ft).length = 4 + 8 * ft.length := by
  rw [headerBytes_eq, List.length_append, flatMap_entryBytes_length, be32_length]

theorem containerBytes_length (ft : FreqTable) (pl : List Byte) :
    (containerBytes ft pl).length = 8 + 8 * ft.length + pl.length := by
  unfold containerBytes
  rw [List.length_append, List.length_append, headerBytes_length, be32_length]; omega

/-- One entry of `parse`. -/
theorem parseEntries_cons (i : Nat) (prev : Option Nat) (e : FtEntry) (rest : List Byte) (hs : e.sym < 2 ^ 32)
    (hc : e.count < 2 ^ 32) :
    parseEntries i prev (entryBytes e ++ rest) =
      if symMax < e.sym then .error (corruptHeader 4 i)
      else if prev.any (fun p => decide (e.sym ≤ p)) then .error (corruptHeader 5 i)
      else if e.count = 0 then .error (corruptHeader 6 i)
      else
        match parseEntries (i + 1) (some e.sym) rest with
        | .ok ft => .ok (e :: ft)
        | .error r => .error r := by
  have h1 := beVal_be32 hs
  have h2 := beVal_be32 hc
  simp only [be32] at h1 h2
  simp only [entryBytes, be32, List.cons_append, List.nil_append]
  rw [parseEntries]
  simp only [h1, h2]
  all_goals rfl

/-- Any eight bytes are an entry's. -/
theorem exists_entryBytes {bs : List Byte} (h : bs.length = 8) :
    ∃ e : FtEntry, bs = entryBytes e ∧ e.sym < 2 ^ 32 ∧ e.count < 2 ^ 32 ∧ e.sym = beVal (bs.take 4) ∧
      e.count = beVal (bs.drop 4) := by
  match bs, h with
  | [a, b, c, d, a', b', c', d'], _ =>
    refine ⟨⟨beVal [a, b, c, d], beVal [a', b', c', d']⟩, ?_, beVal_four_lt .., beVal_four_lt .., rfl, rfl⟩
    simp [entryBytes, be32_beVal]

/-- Any bytes of a whole number of entries are some entries'. -/
theorem exists_entries {bs : List Byte} {n : Nat} (h : bs.length = 8 * n) :
    ∃ ft : FreqTable, bs = ft.flatMap entryBytes ∧ ft.length = n ∧ ∀ e ∈ ft, e.sym < 2 ^ 32 ∧ e.count < 2 ^ 32 := by
  induction n generalizing bs with
  | zero => exact ⟨[], by simpa using h, rfl, by simp⟩
  | succ n ih =>
    obtain ⟨e, he, h1, h2, _⟩ := exists_entryBytes (bs := bs.take 8) (by rw [List.length_take]; omega)
    obtain ⟨ft, hft, hl, hb⟩ := ih (bs := bs.drop 8) (by rw [List.length_drop]; omega)
    refine ⟨e :: ft, ?_, by simp [hl], ?_⟩
    · rw [List.flatMap_cons, ← he, ← hft, List.take_append_drop]
    · intro x hx
      rcases List.mem_cons.1 hx with rfl | hx
      · exact ⟨h1, h2⟩
      · exact hb x hx

/-- What `parse` accepts: the entries, each legal after the one before it. -/
theorem parseEntries_eq_ok {ft ft' : FreqTable} {i : Nat} {prev : Option Nat}
    (hb : ∀ e ∈ ft, e.sym < 2 ^ 32 ∧ e.count < 2 ^ 32) :
    parseEntries i prev (ft.flatMap entryBytes) = .ok ft' ↔
      ft' = ft ∧ (∀ e ∈ ft, e.sym ≤ symMax ∧ 1 ≤ e.count ∧ ∀ p ∈ prev, p < e.sym) ∧ ft.Pairwise (fun a b => a.sym < b.sym) := by
  induction ft generalizing i prev ft' with
  | nil => simp [parseEntries, eq_comm]
  | cons e ft ih =>
    obtain ⟨hs, hc⟩ := hb e (by simp)
    rw [List.flatMap_cons, parseEntries_cons i prev e _ hs hc]
    have hany : prev.any (fun p => decide (e.sym ≤ p)) = true ↔ ¬ ∀ p ∈ prev, p < e.sym := by
      cases prev <;> simp
    split
    · rename_i h
      constructor
      · intro h; cases h
      · rintro ⟨-, h', -⟩; have := (h' e (by simp)).1; omega
    · split
      · rename_i h
        rw [hany] at h
        constructor
        · intro h; cases h
        · rintro ⟨-, h', -⟩; exact absurd (h' e (by simp)).2.2 h
      · rename_i h1 h2
        rw [hany, not_not] at h2
        split
        · rename_i h
          constructor
          · intro h; cases h
          · rintro ⟨-, h', -⟩; have := (h' e (by simp)).2.1; omega
        · rename_i h3
          have := fun ft' => ih (ft' := ft') (i := i + 1) (prev := some e.sym) (fun x hx => hb x (by simp [hx]))
          constructor
          · intro h
            split at h
            · rename_i ft'' hp
              injection h with h; subst h
              obtain ⟨rfl, hall, hpw⟩ := (this ft'').1 hp
              refine ⟨rfl, ?_, List.pairwise_cons.2 ⟨fun x hx => (hall x hx).2.2 _ rfl, hpw⟩⟩
              intro x hx
              rcases List.mem_cons.1 hx with rfl | hx
              · exact ⟨by omega, by omega, h2⟩
              · obtain ⟨a, b, c⟩ := hall x hx
                exact ⟨a, b, fun p hp => Nat.lt_trans (h2 p hp) (c _ rfl)⟩
            · cases h
          · rintro ⟨rfl, hall, hpw⟩
            obtain ⟨hlt, hpw⟩ := List.pairwise_cons.1 hpw
            rw [(this ft).2 ⟨rfl, fun x hx => ⟨(hall x (by simp [hx])).1, (hall x (by simp [hx])).2.1, fun p hp => ?_⟩, hpw⟩]
            simp only [Option.mem_def, Option.some.injEq] at hp
            subst hp; exact hlt x hx

/-- How the entry loop fails: with a subcode of 4, 5 or 6. -/
theorem parseEntries_eq_error {ft : FreqTable} {i : Nat} {prev : Option Nat} {r : Raise}
    (hb : ∀ e ∈ ft, e.sym < 2 ^ 32 ∧ e.count < 2 ^ 32) (h : parseEntries i prev (ft.flatMap entryBytes) = .error r) :
    ∃ j sub, i ≤ j ∧ j < i + ft.length ∧ 4 ≤ sub ∧ sub ≤ 6 ∧ r = corruptHeader sub j := by
  induction ft generalizing i prev with
  | nil => simp [parseEntries] at h
  | cons e ft ih =>
    obtain ⟨hs, hc⟩ := hb e (by simp)
    rw [List.flatMap_cons, parseEntries_cons i prev e _ hs hc] at h
    have here : ∀ {sub}, 4 ≤ sub → sub ≤ 6 → r = corruptHeader sub i →
        ∃ j sub, i ≤ j ∧ j < i + (e :: ft).length ∧ 4 ≤ sub ∧ sub ≤ 6 ∧ r = corruptHeader sub j :=
      fun h1 h2 h3 => ⟨i, _, Nat.le_refl _, by simp, h1, h2, h3⟩
    split at h
    · injection h with h; exact here (by omega) (by omega) h.symm
    · split at h
      · injection h with h; exact here (sub := 5) (by omega) (by omega) h.symm
      · split at h
        · injection h with h; exact here (sub := 6) (by omega) (by omega) h.symm
        · split at h
          · cases h
          · rename_i r' hp
            injection h with h; subst h
            obtain ⟨j, sub, h1, h2, h3, h4, h5⟩ := ih (fun x hx => hb x (by simp [hx])) hp
            exact ⟨j, sub, by omega, by simp only [List.length_cons]; omega, h3, h4, h5⟩

/-! Parsing a header (R203). -/

theorem take_be32_append (v : Nat) (rest : List Byte) : (be32 v ++ rest).take 4 = be32 v := rfl

theorem drop_be32_append (v : Nat) (rest : List Byte) : (be32 v ++ rest).drop 4 = rest := rfl

/-- A header that passes the length checks is an entry count and that many entries. -/
theorem exists_header {h : List Byte} (h4 : 4 ≤ h.length) (hl : h.length = 4 + 8 * beVal (h.take 4)) :
    ∃ ft : FreqTable, h = headerBytes ft ∧ ft.length = beVal (h.take 4) ∧ ∀ e ∈ ft, e.sym < 2 ^ 32 ∧ e.count < 2 ^ 32 := by
  obtain ⟨ft, hd, hn, hb⟩ := exists_entries (bs := h.drop 4) (n := beVal (h.take 4)) (by rw [List.length_drop]; omega)
  refine ⟨ft, ?_, hn, hb⟩
  rw [headerBytes_eq, ← hd, hn, be32_beVal_of_length (by rw [List.length_take]; omega), List.take_append_drop]

/-- `parse` of a header's bytes, its entries bounded by their fields. -/
theorem parseHeader_headerBytes {ft : FreqTable} (hn : ft.length < 2 ^ 32) :
    parseHeader (headerBytes ft) =
      match parseEntries 0 none (ft.flatMap entryBytes) with
      | .error r => .error r
      | .ok ft' => if countMax < (ft'.map FtEntry.count).sum then .error (corruptHeader 7 0) else .ok ft' := by
  have hl := headerBytes_length ft
  have ht : (headerBytes ft).take 4 = be32 ft.length := rfl
  have hd : (headerBytes ft).drop 4 = ft.flatMap entryBytes := rfl
  unfold parseHeader
  rw [ht, hd, beVal_be32 hn, hl]
  simp
  all_goals rfl

/-- R203: `parse` accepts exactly the headers of legal tables, and gives the table back. -/
theorem parseHeader_eq_ok {h : List Byte} {ft : FreqTable} (hlen : h.length < 2 ^ 32) :
    parseHeader h = .ok ft ↔ FreqTable.wf ft ∧ h = headerBytes ft := by
  constructor
  · intro hp
    have h4 : 4 ≤ h.length := by
      by_contra hc; rw [parseHeader, if_pos (by omega)] at hp; cases hp
    have hl : h.length = 4 + 8 * beVal (h.take 4) := by
      by_contra hc; rw [parseHeader, if_neg (by omega), if_pos hc] at hp; cases hp
    obtain ⟨ft', hh, hn, hb⟩ := exists_header h4 hl
    rw [hh, parseHeader_headerBytes (by omega)] at hp
    split at hp
    · cases hp
    · rename_i ft'' hp'
      split at hp
      · cases hp
      · injection hp with hp; subst hp
        obtain ⟨rfl, hall, hpw⟩ := (parseEntries_eq_ok hb).1 hp'
        exact ⟨⟨fun e he => (hall e he).1, hpw, fun e he => (hall e he).2.1, by unfold countSum; omega⟩, hh⟩
  · rintro ⟨⟨h1, h2, h3, h4⟩, rfl⟩
    rw [headerBytes_length] at hlen
    have hsum : ∀ e ∈ ft, e.count < 2 ^ 32 := by
      intro e he
      have : e.count ≤ countSum ft := List.le_sum_of_mem (List.mem_map_of_mem he)
      unfold countMax at h4; omega
    have hb : ∀ e ∈ ft, e.sym < 2 ^ 32 ∧ e.count < 2 ^ 32 := fun e he =>
      ⟨by have := h1 e he; unfold symMax at this; omega, hsum e he⟩
    rw [parseHeader_headerBytes (by omega)]
    rw [(parseEntries_eq_ok hb).2 ⟨rfl, fun e he => ⟨h1 e he, h3 e he, by simp⟩, h2⟩]
    simp only
    rw [if_neg]
    unfold countSum at h4
    omega

/-- How `parse` fails: CorruptHeader with a subcode of 3 to 7. -/
theorem parseHeader_eq_error {h : List Byte} {r : Raise} (hlen : h.length < 2 ^ 32) (hp : parseHeader h = .error r) :
    ∃ sub i, 3 ≤ sub ∧ sub ≤ 7 ∧ r = corruptHeader sub i := by
  by_cases h4 : h.length < 4
  · rw [parseHeader, if_pos h4] at hp; injection hp with hp; exact ⟨3, 0, by omega, by omega, hp.symm⟩
  · by_cases hl : h.length = 4 + 8 * beVal (h.take 4)
    · obtain ⟨ft', hh, hn, hb⟩ := exists_header (by omega) hl
      rw [hh, parseHeader_headerBytes (by omega)] at hp
      split at hp
      · rename_i r' hp'
        injection hp with hp; subst hp
        obtain ⟨j, sub, _, _, h3, h6, rfl⟩ := parseEntries_eq_error hb hp'
        exact ⟨sub, j, by omega, by omega, rfl⟩
      · split at hp
        · injection hp with hp; exact ⟨7, 0, by omega, by omega, hp.symm⟩
        · cases hp
    · rw [parseHeader, if_neg h4, if_pos hl] at hp; injection hp with hp; exact ⟨3, 0, by omega, by omega, hp.symm⟩

theorem corruptHeader_info {sub : Nat} (i : Nat) (h : sub < 256) :
    (corruptHeader sub i).info = BitVec.ofNat 32 (sub + 256 * i) := by
  apply BitVec.eq_of_toNat_eq
  simp only [corruptHeader, BitVec.toNat_or, BitVec.toNat_shiftLeft, BitVec.toNat_ofNat, Nat.shiftLeft_eq]
  have e : i % 2 ^ 32 * 2 ^ 8 % 2 ^ 32 = 2 ^ 8 * (i % 2 ^ 24) := by omega
  rw [e, Nat.mod_eq_of_lt (by omega : sub < 2 ^ 32), Nat.or_comm, ← Nat.two_pow_add_eq_or_of_lt (by omega)]
  omega

/-! Reading a container (R202). -/

/-- What reading a container accepts: a legal table's header behind its length, and a payload that fits. -/
theorem readContainer_eq_ok {cap : Nat} {bytes : List Byte} {ft : FreqTable} {pl : List Byte} (hlen : bytes.length < 2 ^ 32) :
    readContainer cap bytes = .ok (ft, pl) ↔
      FreqTable.wf ft ∧ bytes = containerBytes ft pl ∧ pl.length ≤ cap := by
  constructor
  · intro h
    unfold readContainer at h
    split at h
    · cases h
    · split at h
      · cases h
      · rename_i h4 hl
        split at h
        · cases h
        · rename_i ft' hp
          split at h
          · cases h
          · rename_i hcap
            injection h with h
            injection h with h1 h2
            subst h1 h2
            have hlt : ((bytes.drop 4).take (beVal (bytes.take 4))).length < 2 ^ 32 := by
              rw [List.length_take, List.length_drop]; omega
            obtain ⟨hw, hh⟩ := (parseHeader_eq_ok hlt).1 hp
            refine ⟨hw, ?_, by omega⟩
            unfold containerBytes
            have hlh : (headerBytes ft').length = beVal (bytes.take 4) := by
              rw [← hh, List.length_take, List.length_drop]; omega
            rw [hlh, be32_beVal_of_length (by rw [List.length_take]; omega), ← hh, ← List.drop_drop, List.append_assoc,
              List.take_append_drop, List.take_append_drop]
  · rintro ⟨hw, rfl, hcap⟩
    have hcl := containerBytes_length ft pl
    have ht : (containerBytes ft pl).take 4 = be32 (headerBytes ft).length := by
      unfold containerBytes; rw [List.append_assoc]; rfl
    have hd : (containerBytes ft pl).drop 4 = headerBytes ft ++ pl := by
      unfold containerBytes; rw [List.append_assoc]; rfl
    have hhl := headerBytes_length ft
    have hv : beVal (be32 (headerBytes ft).length) = (headerBytes ft).length := beVal_be32 (by omega)
    unfold readContainer
    rw [← List.drop_drop, ht, hd, hv, if_neg (by omega), if_neg (by omega), List.take_left, List.drop_left,
      (parseHeader_eq_ok (by omega)).2 ⟨hw, rfl⟩]
    simp only
    rw [if_neg (by omega)]

/-- How reading a container fails. -/
theorem readContainer_eq_error {cap : Nat} {bytes : List Byte} {r : Raise} (hlen : bytes.length < 2 ^ 32)
    (h : readContainer cap bytes = .error r) :
    r = ⟨.capacityExceeded, 5⟩ ∨ ∃ sub i, 1 ≤ sub ∧ sub ≤ 7 ∧ r = corruptHeader sub i := by
  unfold readContainer at h
  split at h
  · injection h with h; exact .inr ⟨1, 0, by omega, by omega, h.symm⟩
  · split at h
    · injection h with h; exact .inr ⟨2, 0, by omega, by omega, h.symm⟩
    · split at h
      · rename_i r' hp
        injection h with h; subst h
        obtain ⟨sub, i, h1, h2, h3⟩ := parseHeader_eq_error (by rw [List.length_take, List.length_drop]; omega) hp
        exact .inr ⟨sub, i, by omega, h2, h3⟩
      · split at h
        · injection h with h; exact .inl h.symm
        · cases h

/-! The implied payload length (R204). -/

theorem impliedBits_cons (e : FtEntry) (ft : FreqTable) (ct : CodeTable) :
    impliedBits (e :: ft) ct = e.count * ((codeOf ct e.sym).getD []).length + impliedBits ft ct := by simp [impliedBits]

theorem impliedBits_countSym (ft : FreqTable) (ct : CodeTable) (x : Nat) :
    impliedBits (countSym ft x) ct = impliedBits ft ct + ((codeOf ct x).getD []).length := by
  induction ft with
  | nil => simp [countSym, impliedBits]
  | cons e ft ih =>
    unfold countSym
    split
    · simp only [impliedBits_cons]; omega
    · split
      · rename_i _ h; subst h; simp only [impliedBits_cons, Nat.add_mul]; omega
      · rw [impliedBits_cons, ih, impliedBits_cons]; omega

theorem impliedBits_freqTable (xs : List Nat) (ct : CodeTable) : impliedBits (freqTable xs) ct = (encodeSyms ct xs).length := by
  have : ∀ ft : FreqTable, impliedBits (xs.foldl countSym ft) ct = impliedBits ft ct + (encodeSyms ct xs).length := by
    induction xs with
    | nil => simp [encodeSyms]
    | cons x xs ih =>
      intro ft
      rw [List.foldl_cons, ih, impliedBits_countSym]
      simp only [encodeSyms, List.flatMap_cons, List.length_append]; omega
  rw [freqTable, this]; simp [impliedBits]

theorem impliedBits_eq_sum {ct : CodeTable} : ∀ {ft : FreqTable} {codes : List Bits}, CodesOf ct (ft.map FtEntry.sym) codes →
    impliedBits ft ct = ((ft.zip codes).map (fun x => x.1.count * x.2.length)).sum
  | [], codes, h => by rw [codesOf_nil.1 h]; rfl
  | e :: ft, codes, h => by
    obtain ⟨c, cs, rfl, hc, h⟩ := codesOf_cons.1 h
    rw [impliedBits_cons, impliedBits_eq_sum h, hc]; simp

/-- R205: packing an input gives exactly the bytes its table implies. -/
theorem packBits_length_expected (xs : List Nat) {codes : List Bits} {ct : CodeTable}
    (hc : CodesOf ct xs codes) : (packBits codes.flatten).length = expectedBytes (freqTable xs) ct := by
  rw [packBits_length, expectedBytes, impliedBits_freqTable, encodeSyms_eq hc]
  have := padCount_le codes.flatten.length
  have := add_padCount_mod codes.flatten.length
  omega

theorem fieldAt_containerBytes_zero (ft : FreqTable) (pl : List Byte)
    (h : ft.length < 2 ^ 28) : fieldAt (containerBytes ft pl) 0 = 4 + 8 * ft.length := by
  unfold fieldAt containerBytes
  rw [List.drop_zero, List.append_assoc, take_be32_append, headerBytes_length, beVal_be32 (by omega)]

/-! The first bad entry (R203). -/

/-- R203: entry `e` after the symbol `prev` fails with this subcode. -/
def entryBad (prev : Option Nat) (e : FtEntry) (sub : Nat) : Prop :=
  (sub = 4 ∧ symMax < e.sym) ∨ (sub = 5 ∧ e.sym ≤ symMax ∧ ∃ p ∈ prev, e.sym ≤ p) ∨
  (sub = 6 ∧ e.sym ≤ symMax ∧ (∀ p ∈ prev, p < e.sym) ∧ e.count = 0)

/-- The symbol before entry j. -/
def prevAt (prev : Option Nat) (ft : FreqTable) : Nat → Option Nat
  | 0 => prev
  | j + 1 => ft[j]?.map FtEntry.sym

/-- The entry loop fails at the first bad entry. -/
theorem parseEntries_first_bad {ft : FreqTable} {i : Nat} {prev : Option Nat} (hb : ∀ e ∈ ft, e.sym < 2 ^ 32 ∧
    e.count < 2 ^ 32) {j sub : Nat} {e : FtEntry}
    (he : ft[j]? = some e) (hbad : entryBad (prevAt prev ft j) e sub)
    (hok : ∀ k < j, ∀ d, ft[k]? = some d → ∀ sub, ¬ entryBad (prevAt prev ft k) d sub) :
    parseEntries i prev (ft.flatMap entryBytes) = .error (corruptHeader sub (i + j)) := by
  induction j generalizing ft i prev with
  | zero =>
    cases ft with
    | nil => simp at he
    | cons d ft =>
      simp at he; subst he
      obtain ⟨h1, h2⟩ := hb d (by simp)
      rw [List.flatMap_cons, parseEntries_cons i prev d _ h1 h2]
      have hany : prev.any (fun p => decide (d.sym ≤ p)) = true ↔ ∃ p ∈ prev, d.sym ≤ p := by cases prev <;> simp
      rcases hbad with ⟨rfl, h⟩ | ⟨rfl, h, h'⟩ | ⟨rfl, h, h', h''⟩
      · rw [if_pos h]; rfl
      · rw [if_neg (by omega), if_pos (hany.2 h')]; rfl
      · rw [if_neg (by omega), if_neg, if_pos h'']; rfl
        rw [hany]; rintro ⟨p, hp, hle⟩; have := h' p hp; omega
  | succ j ih =>
    cases ft with
    | nil => simp at he
    | cons d ft =>
      obtain ⟨h1, h2⟩ := hb d (by simp)
      have hany : prev.any (fun p => decide (d.sym ≤ p)) = true ↔ ∃ p ∈ prev, d.sym ≤ p := by cases prev <;> simp
      have h0 := hok 0 (by omega) d rfl
      simp only [prevAt] at h0
      have a1 : ¬ symMax < d.sym := fun h => h0 4 (.inl ⟨rfl, h⟩)
      have a2 : ¬ ∃ p ∈ prev, d.sym ≤ p := fun h => h0 5 (.inr (.inl ⟨rfl, by omega, h⟩))
      have a3 : ¬ d.count = 0 := fun h => h0 6 (.inr (.inr ⟨rfl, by omega, fun p hp => by
        by_contra hc; exact a2 ⟨p, hp, by omega⟩, h⟩))
      rw [List.flatMap_cons, parseEntries_cons i prev d _ h1 h2, if_neg a1, if_neg (by rw [hany]; exact a2), if_neg a3]
      rw [ih (ft := ft) (i := i + 1) (prev := some d.sym) (fun e he => hb e (by simp [he])) (by simpa using he)]
      · simp only; rw [Nat.add_right_comm, Nat.add_assoc]
      · cases j <;> simpa [prevAt] using hbad
      · intro k hk x hx sub
        have := hok (k + 1) (by omega) x (by simpa using hx) sub
        cases k <;> simpa [prevAt] using this

/-- With no bad entry, the entry loop gives the entries back. -/
theorem parseEntries_none_bad {ft : FreqTable} {i : Nat} {prev : Option Nat} (hb : ∀ e ∈ ft, e.sym < 2 ^ 32 ∧ e.count < 2 ^ 32)
    (hok : ∀ k d, ft[k]? = some d → ∀ sub, ¬ entryBad (prevAt prev ft k) d sub) :
    parseEntries i prev (ft.flatMap entryBytes) = .ok ft := by
  induction ft generalizing i prev with
  | nil => rfl
  | cons d ft ih =>
      obtain ⟨h1, h2⟩ := hb d (by simp)
      have hany : prev.any (fun p => decide (d.sym ≤ p)) = true ↔ ∃ p ∈ prev, d.sym ≤ p := by cases prev <;> simp
      have h0 := hok 0 d rfl
      simp only [prevAt] at h0
      have a1 : ¬ symMax < d.sym := fun h => h0 4 (.inl ⟨rfl, h⟩)
      have a2 : ¬ ∃ p ∈ prev, d.sym ≤ p := fun h => h0 5 (.inr (.inl ⟨rfl, by omega, h⟩))
      have a3 : ¬ d.count = 0 := fun h => h0 6 (.inr (.inr ⟨rfl, by omega, fun p hp => by
        by_contra hc; exact a2 ⟨p, hp, by omega⟩, h⟩))
      rw [List.flatMap_cons, parseEntries_cons i prev d _ h1 h2, if_neg a1, if_neg (by rw [hany]; exact a2), if_neg a3]
      rw [ih (i := i + 1) (prev := some d.sym) (fun e he => hb e (by simp [he]))]
      intro k x hx sub
      have := hok (k + 1) x (by simpa using hx) sub
      cases k <;> simpa [prevAt] using this

/-- Where an entry's fields stand. -/
theorem fieldAt_entries {ft : FreqTable} (hb : ∀ e ∈ ft, e.sym < 2 ^ 32 ∧ e.count < 2 ^ 32) {i : Nat} {e : FtEntry}
    (he : ft[i]? = some e) (rest : List Byte) :
    fieldAt (ft.flatMap entryBytes ++ rest) (8 * i) = e.sym ∧ fieldAt (ft.flatMap entryBytes ++ rest) (4 + 8 * i) = e.count :=
        by
  induction ft generalizing i with
  | nil => simp at he
  | cons d ft ih =>
    obtain ⟨h1, h2⟩ := hb d (by simp)
    cases i with
    | zero =>
      simp at he; subst he
      refine ⟨?_, ?_⟩
      · show beVal (be32 d.sym) = _; exact beVal_be32 h1
      · show beVal (be32 d.count) = _; exact beVal_be32 h2
    | succ i =>
      have := ih (fun x hx => hb x (by simp [hx])) (i := i) (by simpa using he)
      unfold fieldAt at *
      rw [List.flatMap_cons, List.append_assoc]
      have e1 : 8 * (i + 1) = (entryBytes d).length + 8 * i := by rw [entryBytes_length]; omega
      have e2 : 4 + 8 * (i + 1) = (entryBytes d).length + (4 + 8 * i) := by rw [entryBytes_length]; omega
      rw [e2, e1, ← List.drop_drop, ← List.drop_drop (i := 4 + 8 * i), List.drop_left]
      exact this

theorem fieldAt_drop (b : List Byte) (k j : Nat) : fieldAt (b.drop k) j = fieldAt b (k + j) := by
  unfold fieldAt; rw [List.drop_drop]

/-! The three units. -/

theorem inBytes_length (s : State) : s.inBytes.length = s.inByteLen.toNat := by simp [State.inBytes]

theorem contDeserialize_eq_ok {s t : State} :
    contDeserialize s = .ok t ↔ s.inByteLen.toNat ≤ s.caps.inByte ∧
      ∃ ft pl, FreqTable.wf ft ∧ s.inBytes = containerBytes ft pl ∧ pl.length ≤ s.caps.payload ∧
        t = { s.writeFt (some ft) with payload := some pl } := by
  have hlen : s.inBytes.length < 2 ^ 32 := by rw [inBytes_length]; exact s.inByteLen.isLt
  unfold contDeserialize
  split
  · rename_i h
    constructor
    · intro h; cases h
    · rintro ⟨h', _⟩; omega
  · rename_i hc
    cases hr : readContainer s.caps.payload s.inBytes with
    | error r =>
      constructor
      · intro h; cases h
      · rintro ⟨_, ft, pl, h1, h2, h3, _⟩
        rw [(readContainer_eq_ok hlen).2 ⟨h1, h2, h3⟩] at hr; cases hr
    | ok p =>
      obtain ⟨ft, pl⟩ := p
      obtain ⟨h1, h2, h3⟩ := (readContainer_eq_ok hlen).1 hr
      simp only [Except.ok.injEq]
      constructor
      · rintro rfl; exact ⟨by omega, ft, pl, h1, h2, h3, rfl⟩
      · rintro ⟨_, ft', pl', h1', h2', h3', rfl⟩
        have := (readContainer_eq_ok (cap := s.caps.payload) hlen).2 ⟨h1', h2', h3'⟩
        rw [hr] at this
        injection this with this; injection this with e1 e2
        rw [e1, e2]

theorem contDeserialize_eq_error {s : State} {r : Raise} (h : contDeserialize s = .error r) :
    r = ⟨.capacityExceeded, 2⟩ ∨ r = ⟨.capacityExceeded, 5⟩ ∨ ∃ sub i, 1 ≤ sub ∧ sub ≤ 7 ∧ r = corruptHeader sub i := by
  unfold contDeserialize at h
  split at h
  · injection h with h; exact .inl h.symm
  · split at h
    · rename_i r' hr
      injection h with h; subst h
      exact .inr (readContainer_eq_error (by rw [inBytes_length]; exact s.inByteLen.isLt) hr)
    · cases h

theorem contSerialize_notReady {s : State} (h : s.ft = none ∨ s.payload = none) :
    contSerialize s = .error (s.notReady [.ft, .payload]) := by
  unfold contSerialize
  rcases h with h | h
  · simp [h]
  · rw [h]; cases s.ft <;> rfl

theorem contSerialize_some {s : State} {ft : FreqTable} {pl : List Byte} (h1 : s.ft = some ft) (h2 : s.payload = some pl) :
    contSerialize s =
      if s.caps.outByte < (containerBytes ft pl).length then .error ⟨.capacityExceeded, 3⟩
      else .ok { s with outBytes := some (containerBytes ft pl) } := by
  simp [contSerialize, h1, h2]

theorem contSerialize_eq_ok {s t : State} (h : contSerialize s = .ok t) :
    ∃ ft pl, s.ft = some ft ∧ s.payload = some pl ∧ (containerBytes ft pl).length ≤ s.caps.outByte ∧
      t = { s with outBytes := some (containerBytes ft pl) } := by
  rcases Option.eq_none_or_eq_some s.ft with h1 | ⟨ft, h1⟩
  · simp [contSerialize_notReady (.inl h1)] at h
  · rcases Option.eq_none_or_eq_some s.payload with h2 | ⟨pl, h2⟩
    · simp [contSerialize_notReady (.inr h2)] at h
    · rw [contSerialize_some h1 h2] at h
      split at h
      · cases h
      · injection h with h; exact ⟨ft, pl, h1, h2, by omega, h.symm⟩

theorem contSerialize_eq_error {s : State} {r : Raise} (h : contSerialize s = .error r) :
    ((s.ft = none ∨ s.payload = none) ∧ r = s.notReady [.ft, .payload]) ∨ r = ⟨.capacityExceeded, 3⟩ := by
  rcases Option.eq_none_or_eq_some s.ft with h1 | ⟨ft, h1⟩
  · rw [contSerialize_notReady (.inl h1)] at h; injection h with h; exact .inl ⟨.inl h1, h.symm⟩
  · rcases Option.eq_none_or_eq_some s.payload with h2 | ⟨pl, h2⟩
    · rw [contSerialize_notReady (.inr h2)] at h; injection h with h; exact .inl ⟨.inr h2, h.symm⟩
    · rw [contSerialize_some h1 h2] at h
      split at h
      · injection h with h; exact .inr h.symm
      · cases h

theorem payloadCheck_notReady {s : State} (h : s.ft = none ∨ s.ct = none ∨ s.payload = none) :
    payloadCheck s = .error (s.notReady [.ft, .ct, .payload]) := by
  unfold payloadCheck
  split
  · simp_all
  · rfl

theorem payloadCheck_some {s : State} {ft : FreqTable} {ct : CodeTable} {pl : List Byte} (h1 : s.ft = some ft)
    (h2 : s.ct = some ct) (h3 : s.payload = some pl) :
    payloadCheck s =
      if pl.length < expectedBytes ft ct then .error ⟨.truncatedPayload, BitVec.ofNat 32 (expectedBytes ft ct)⟩ else .ok s := by
  simp [payloadCheck, h1, h2, h3]

theorem payloadCheck_eq_ok {s t : State} (h : payloadCheck s = .ok t) :
    t = s ∧ ∃ ft ct pl, s.ft = some ft ∧ s.ct = some ct ∧ s.payload = some pl ∧ expectedBytes ft ct ≤ pl.length := by
  by_cases hn : s.ft = none ∨ s.ct = none ∨ s.payload = none
  · rw [payloadCheck_notReady hn] at h; cases h
  · simp only [not_or, ← ne_eq, Option.ne_none_iff_exists'] at hn
    obtain ⟨⟨ft, h1⟩, ⟨ct, h2⟩, ⟨pl, h3⟩⟩ := hn
    rw [payloadCheck_some h1 h2 h3] at h
    split at h
    · cases h
    · injection h with h; exact ⟨h.symm, ft, ct, pl, h1, h2, h3, by omega⟩

theorem payloadCheck_eq_error {s : State} {r : Raise} (h : payloadCheck s = .error r) :
    ((s.ft = none ∨ s.ct = none ∨ s.payload = none) ∧ r = s.notReady [.ft, .ct, .payload]) ∨
    ∃ ft ct pl, s.ft = some ft ∧ s.ct = some ct ∧ s.payload = some pl ∧ pl.length < expectedBytes ft ct ∧
      r = ⟨.truncatedPayload, BitVec.ofNat 32 (expectedBytes ft ct)⟩ := by
  by_cases hn : s.ft = none ∨ s.ct = none ∨ s.payload = none
  · rw [payloadCheck_notReady hn] at h; injection h with h; exact .inl ⟨hn, h.symm⟩
  · simp only [not_or, ← ne_eq, Option.ne_none_iff_exists'] at hn
    obtain ⟨⟨ft, h1⟩, ⟨ct, h2⟩, ⟨pl, h3⟩⟩ := hn
    rw [payloadCheck_some h1 h2 h3] at h
    split at h
    · rename_i hl; injection h with h; exact .inr ⟨ft, ct, pl, h1, h2, h3, hl, h.symm⟩
    · cases h

end Sys2Proof.Machine
end

