-- ==== Sys2Proof/Laws/PerInstr.lean ====
section
/-! SUPPORT. The per-instruction family `Encoding` (R90 to R95): one lemma per command. -/

namespace Sys2Proof.Laws.Encoding

/-- A command is well formed, its word is well formed with RSV = 0 and OPC the command's opcode, and the word decodes to it. -/
def Statement (i : Instr) : Prop :=
  i.wf = true ∧ cmdWordWf (encode i) = true ∧ rsvField (encode i) = 0 ∧ opcField (encode i) = opcode i ∧
  decode (encode i) = .ok i

theorem nop : Statement .nop := by unfold Statement; decide
theorem freqAnalyze : Statement .freqAnalyze := by unfold Statement; decide
theorem treeBuild : Statement .treeBuild := by unfold Statement; decide
theorem codeDerive : Statement .codeDerive := by unfold Statement; decide
theorem bitPack : Statement .bitPack := by unfold Statement; decide
theorem contSerialize : Statement .contSerialize := by unfold Statement; decide
theorem contDeserialize : Statement .contDeserialize := by unfold Statement; decide
theorem payloadCheck : Statement .payloadCheck := by unfold Statement; decide
theorem bitUnpack : Statement .bitUnpack := by unfold Statement; decide
theorem compress : Statement .compress := by unfold Statement; decide
theorem decompress : Statement .decompress := by unfold Statement; decide

end Sys2Proof.Laws.Encoding
end

