-- ==== Sys2Proof/Laws/Step.lean ====
section
/-! SUPPORT. What each command and each step leaves alone, and the one case analysis of a step. -/

namespace Sys2Proof.Machine

/-! The composites' steps (R253, R254). -/

theorem compressSteps_eq_ok {s t : State} :
    compressSteps s = .ok t ↔ ∃ a b c d, freqAnalyze s = .ok a ∧ treeBuild a = .ok b ∧ codeDerive b = .ok c ∧
      bitPack c = .ok d ∧ contSerialize d = .ok t := by
  unfold compressSteps
  simp only [andThen_eq_ok, runUnit_eq_ok]
  constructor
  · rintro ⟨d, ⟨c, ⟨b, ⟨a, h1, h2⟩, h3⟩, h4⟩, h5⟩; exact ⟨a, b, c, d, h1, h2, h3, h4, h5⟩
  · rintro ⟨a, b, c, d, h1, h2, h3, h4, h5⟩; exact ⟨d, ⟨c, ⟨b, ⟨a, h1, h2⟩, h3⟩, h4⟩, h5⟩

theorem decompressSteps_eq_ok {s t : State} :
    decompressSteps s = .ok t ↔ ∃ a b c d, contDeserialize s = .ok a ∧ treeBuild a = .ok b ∧ codeDerive b = .ok c ∧
      payloadCheck c = .ok d ∧ bitUnpack d = .ok t := by
  unfold decompressSteps
  simp only [andThen_eq_ok, runUnit_eq_ok]
  constructor
  · rintro ⟨d, ⟨c, ⟨b, ⟨a, h1, h2⟩, h3⟩, h4⟩, h5⟩; exact ⟨a, b, c, d, h1, h2, h3, h4, h5⟩
  · rintro ⟨a, b, c, d, h1, h2, h3, h4, h5⟩; exact ⟨d, ⟨c, ⟨b, ⟨a, h1, h2⟩, h3⟩, h4⟩, h5⟩

/-- Everything COMPRESS's steps do on success (R253), for `ft` the table of the input and `ct` its codes. -/
theorem compressSteps_success {s t : State} {ft : FreqTable} {ct : CodeTable} (hft : ft = freqTable s.inSyms)
    (hct : ct = deriveCodes (build ft)) :
    compressSteps s = .ok t ↔
      s.inSymLen.toNat ≤ s.caps.inSym ∧ (∀ x ∈ s.inSyms, x ≤ symMax) ∧ ft ≠ [] ∧
      ∃ codes pl, CodesOf ct s.inSyms codes ∧ pl = packBits codes.flatten ∧ pl.length ≤ s.caps.payload ∧
        (containerBytes ft pl).length ≤ s.caps.outByte ∧
        t = { s with
          ft := some ft
          tree := some (build ft)
          ct := some ct
          payload := some pl
          pad := BitVec.ofNat 8 (padCount codes.flatten.length)
          pbits := BitVec.ofNat 64 codes.flatten.length
          outBytes := some (containerBytes ft pl) } := by
  rw [compressSteps_eq_ok]
  constructor
  · rintro ⟨a, b, c, d, h1, h2, h3, h4, h5⟩
    obtain ⟨g1, g2, rfl⟩ := freqAnalyze_eq_ok.1 h1
    obtain ⟨ft', e1, hne, rfl⟩ := treeBuild_eq_ok.1 h2
    obtain ⟨tr, e2, rfl⟩ := codeDerive_eq_ok.1 h3
    obtain ⟨ct', codes, e3, _, hcodes, hcap, rfl⟩ := bitPack_eq_ok h4
    obtain ⟨ft'', pl, e4, e5, hcap', rfl⟩ := contSerialize_eq_ok h5
    simp at e1 e2 e3 e4 e5
    subst hft hct e1 e2 e3 e4 e5
    exact ⟨g1, g2, hne, codes, _, hcodes, rfl, hcap, hcap', rfl⟩
  · rintro ⟨g1, g2, hne, codes, pl, hcodes, rfl, hcap, hcap', rfl⟩
    subst hft hct
    let ft := freqTable s.inSyms
    let c : State := ((s.writeFt (some ft)).writeTree (some (build ft))).writeCt (some (deriveCodes (build ft)))
    let d : State := { c with
      payload := some (packBits codes.flatten)
      pad := BitVec.ofNat 8 (padCount codes.flatten.length)
      pbits := BitVec.ofNat 64 codes.flatten.length }
    refine ⟨_, _, c, d, freqAnalyze_eq_ok.2 ⟨g1, g2, rfl⟩, treeBuild_eq_ok.2 ⟨_, rfl, hne, rfl⟩,
      codeDerive_eq_ok.2 ⟨_, rfl, rfl⟩, ?_, ?_⟩
    · have h := bitPack_codes (s := c) (ct := deriveCodes (build ft)) (codes := codes) rfl g1 hcodes
      rw [if_neg (by show ¬ s.caps.payload < _; omega)] at h
      exact h
    · have h := contSerialize_some (s := d) (ft := ft) (pl := packBits codes.flatten) rfl rfl
      rw [if_neg (by show ¬ s.caps.outByte < _; exact Nat.not_lt.2 hcap')] at h
      exact h

/-- How COMPRESS's steps fail: at the first step that raises. -/
theorem compressSteps_eq_error {s : State} {f : Failure} :
    compressSteps s = .error f ↔
      (∃ r, freqAnalyze s = .error r ∧ f = ⟨r.kind, r.info, 0x01⟩) ∨
      ∃ a, freqAnalyze s = .ok a ∧ ((∃ r, treeBuild a = .error r ∧ f = ⟨r.kind, r.info, 0x02⟩) ∨
      ∃ b, treeBuild a = .ok b ∧ ((∃ r, codeDerive b = .error r ∧ f = ⟨r.kind, r.info, 0x03⟩) ∨
      ∃ c, codeDerive b = .ok c ∧ ((∃ r, bitPack c = .error r ∧ f = ⟨r.kind, r.info, 0x04⟩) ∨
      ∃ d, bitPack c = .ok d ∧ ∃ r, contSerialize d = .error r ∧ f = ⟨r.kind, r.info, 0x05⟩))) := by
  unfold compressSteps
  cases h1 : freqAnalyze s with
  | error r => simp [runUnit, h1, opcode, eq_comm]
  | ok a =>
    cases h2 : treeBuild a with
    | error r => simp [runUnit, h1, h2, opcode, eq_comm]
    | ok b =>
      cases h3 : codeDerive b with
      | error r => simp [runUnit, h1, h2, h3, opcode, eq_comm]
      | ok c =>
        cases h4 : bitPack c with
        | error r => simp [runUnit, h1, h2, h3, h4, opcode, eq_comm]
        | ok d => cases h5 : contSerialize d <;> simp [runUnit, h1, h2, h3, h4, h5, opcode, eq_comm]

/-- How DECOMPRESS's steps fail: at the first step that raises. -/
theorem decompressSteps_eq_error {s : State} {f : Failure} :
    decompressSteps s = .error f ↔
      (∃ r, contDeserialize s = .error r ∧ f = ⟨r.kind, r.info, 0x06⟩) ∨
      ∃ a, contDeserialize s = .ok a ∧ ((∃ r, treeBuild a = .error r ∧ f = ⟨r.kind, r.info, 0x02⟩) ∨
      ∃ b, treeBuild a = .ok b ∧ ((∃ r, codeDerive b = .error r ∧ f = ⟨r.kind, r.info, 0x03⟩) ∨
      ∃ c, codeDerive b = .ok c ∧ ((∃ r, payloadCheck c = .error r ∧ f = ⟨r.kind, r.info, 0x07⟩) ∨
      ∃ d, payloadCheck c = .ok d ∧ ∃ r, bitUnpack d = .error r ∧ f = ⟨r.kind, r.info, 0x08⟩))) := by
  unfold decompressSteps
  cases h1 : contDeserialize s with
  | error r => simp [runUnit, h1, opcode, eq_comm]
  | ok a =>
    cases h2 : treeBuild a with
    | error r => simp [runUnit, h1, h2, opcode, eq_comm]
    | ok b =>
      cases h3 : codeDerive b with
      | error r => simp [runUnit, h1, h2, h3, opcode, eq_comm]
      | ok c =>
        cases h4 : payloadCheck c with
        | error r => simp [runUnit, h1, h2, h3, h4, opcode, eq_comm]
        | ok d => cases h5 : bitUnpack d <;> simp [runUnit, h1, h2, h3, h4, h5, opcode, eq_comm]

/-! What no command's steps change. -/

/-- Two states that agree on everything but the working registers, PAD and PBITS. -/
def SameBut (s t : State) : Prop :=
  t = { s with
    ft := t.ft, tree := t.tree, ct := t.ct, payload := t.payload, outBytes := t.outBytes, outSyms := t.outSyms,
    pad := t.pad, pbits := t.pbits }

theorem SameBut.trans {a b c : State} (h : SameBut a b) (h' : SameBut b c) : SameBut a c := by
  unfold SameBut at *; rw [h', h]

theorem SameBut.caps {s t : State} (h : SameBut s t) : t.caps = s.caps := by
  have e := congrArg State.caps h; exact e
theorem SameBut.phase {s t : State} (h : SameBut s t) : t.phase = s.phase := by
  have e := congrArg State.phase h; exact e
theorem SameBut.irqEn {s t : State} (h : SameBut s t) : t.irqEn = s.irqEn := by
  have e := congrArg State.irqEn h; exact e
theorem SameBut.cmd {s t : State} (h : SameBut s t) : t.cmd = s.cmd := by
  have e := congrArg State.cmd h; exact e
theorem SameBut.status {s t : State} (h : SameBut s t) : t.status = s.status := by
  have e := congrArg State.status h; exact e
theorem SameBut.errInfo {s t : State} (h : SameBut s t) : t.errInfo = s.errInfo := by
  have e := congrArg State.errInfo h; exact e
theorem SameBut.inSymLen {s t : State} (h : SameBut s t) : t.inSymLen = s.inSymLen := by
  have e := congrArg State.inSymLen h; exact e
theorem SameBut.inByteLen {s t : State} (h : SameBut s t) : t.inByteLen = s.inByteLen := by
  have e := congrArg State.inByteLen h; exact e
theorem SameBut.mem {s t : State} (h : SameBut s t) : t.mem = s.mem := by
  have e := congrArg State.mem h; exact e
theorem SameBut.latency {s t : State} (h : SameBut s t) : t.latency = s.latency := by
  have e := congrArg State.latency h; exact e
theorem SameBut.draws {s t : State} (h : SameBut s t) : t.draws = s.draws := by
  have e := congrArg State.draws h; exact e
theorem SameBut.bus {s t : State} (h : SameBut s t) : t.bus = s.bus := by
  have e := congrArg State.bus h; exact e
theorem SameBut.reads {s t : State} (h : SameBut s t) : t.reads = s.reads := by
  have e := congrArg State.reads h; exact e

theorem freqAnalyze_sameBut {s t : State} (h : freqAnalyze s = .ok t) : SameBut s t := by
  rw [(freqAnalyze_eq_ok.1 h).2.2]; rfl

theorem treeBuild_sameBut {s t : State} (h : treeBuild s = .ok t) : SameBut s t := by
  obtain ⟨_, _, _, rfl⟩ := treeBuild_eq_ok.1 h; rfl

theorem codeDerive_sameBut {s t : State} (h : codeDerive s = .ok t) : SameBut s t := by
  obtain ⟨_, _, rfl⟩ := codeDerive_eq_ok.1 h; rfl

theorem bitPack_sameBut {s t : State} (h : bitPack s = .ok t) : SameBut s t := by
  obtain ⟨_, _, _, _, _, _, rfl⟩ := bitPack_eq_ok h; rfl

theorem contSerialize_sameBut {s t : State} (h : contSerialize s = .ok t) : SameBut s t := by
  obtain ⟨_, _, _, _, _, rfl⟩ := contSerialize_eq_ok h; rfl

theorem contDeserialize_sameBut {s t : State} (h : contDeserialize s = .ok t) : SameBut s t := by
  obtain ⟨_, _, _, _, _, _, rfl⟩ := contDeserialize_eq_ok.1 h; rfl

theorem payloadCheck_sameBut {s t : State} (h : payloadCheck s = .ok t) : SameBut s t := by
  rw [(payloadCheck_eq_ok h).1]; rfl

theorem bitUnpack_sameBut {s t : State} (h : bitUnpack s = .ok t) : SameBut s t := by
  obtain ⟨_, _, _, _, _, _, _, _, rfl⟩ := bitUnpack_eq_ok h; rfl

theorem resultOf_sameBut {i : Instr} {s t : State} (h : resultOf i s = .ok t) : SameBut s t := by
  cases i with
  | nop => injection h with h; subst h; rfl
  | freqAnalyze => exact freqAnalyze_sameBut (runUnit_eq_ok.1 h)
  | treeBuild => exact treeBuild_sameBut (runUnit_eq_ok.1 h)
  | codeDerive => exact codeDerive_sameBut (runUnit_eq_ok.1 h)
  | bitPack => exact bitPack_sameBut (runUnit_eq_ok.1 h)
  | contSerialize => exact contSerialize_sameBut (runUnit_eq_ok.1 h)
  | contDeserialize => exact contDeserialize_sameBut (runUnit_eq_ok.1 h)
  | payloadCheck => exact payloadCheck_sameBut (runUnit_eq_ok.1 h)
  | bitUnpack => exact bitUnpack_sameBut (runUnit_eq_ok.1 h)
  | compress =>
    obtain ⟨a, b, c, d, h1, h2, h3, h4, h5⟩ := compressSteps_eq_ok.1 h
    exact (freqAnalyze_sameBut h1).trans ((treeBuild_sameBut h2).trans ((codeDerive_sameBut h3).trans
      ((bitPack_sameBut h4).trans (contSerialize_sameBut h5))))
  | decompress =>
    obtain ⟨a, b, c, d, h1, h2, h3, h4, h5⟩ := decompressSteps_eq_ok.1 h
    exact (contDeserialize_sameBut h1).trans ((treeBuild_sameBut h2).trans ((codeDerive_sameBut h3).trans
      ((payloadCheck_sameBut h4).trans (bitUnpack_sameBut h5))))

theorem discarded_sameBut (s : State) (i : Instr) : SameBut s (s.discarded i) := by cases i <;> rfl

/-- No command writes the input RAMs. -/
theorem exec_mem {i : Instr} {s t : State} (h : exec i s = .next t) : t.mem = s.mem := by
  rcases exec_cases i s with ⟨u, hu, hx⟩ | ⟨f, _, hx⟩ <;> rw [hx] at h <;> injection h with h <;> subst h
  · exact (congrArg State.mem (resultOf_sameBut hu) : _)
  · exact (congrArg State.mem (discarded_sameBut s i) : _)

/-! The step. -/

/-- Everything a step can do. -/
theorem step_cases (s : State) :
    (s.phase = .idle ∧ step s = .next s.hostStep) ∨
    (∃ w k, s.phase = .busy w k ∧ s.engineTurn = false ∧ step s = .next s.tick.hostStep) ∨
    (∃ w k i, s.phase = .busy w k ∧ s.engineTurn = true ∧ decode w = .ok i ∧ step s = exec i s) ∨
    (∃ w k r, s.phase = .busy w k ∧ s.engineTurn = true ∧ decode w = .error r ∧ step s = .next (s.illegalCommand w)) := by
  unfold step
  cases hp : s.phase with
  | idle => exact .inl ⟨rfl, rfl⟩
  | busy w k =>
    cases ht : s.engineTurn with
    | false => exact .inr (.inl ⟨w, k, rfl, rfl, rfl⟩)
    | true =>
      cases hd : decode w with
      | ok i => exact .inr (.inr (.inl ⟨w, k, i, rfl, rfl, hd, by simp [runCommand, hd]⟩))
      | error r => exact .inr (.inr (.inr ⟨w, k, r, rfl, rfl, hd, by simp [runCommand, hd]⟩))

/-- One step of a run. -/
theorem run_succ {s t : State} (k : Nat) (h : step s = .next t) : Host.Core.run core (k + 1) s = Host.Core.run core k t := by
  have e : core.step s = .next t := h
  simp only [Host.Core.run, e]

@[simp] theorem run_zero (s : State) : Host.Core.run core 0 s = .next s := rfl

/-- Every step keeps the input RAMs in canonical form. -/
theorem step_mem_wf {s t : State} (h : step s = .next t) (hw : Memory.wf s.mem) : Memory.wf t.mem := by
  rcases step_cases s with ⟨_, e⟩ | ⟨_, _, _, _, e⟩ | ⟨_, _, i, _, _, _, e⟩ | ⟨_, _, _, _, _, _, e⟩ <;> rw [e] at h
  · injection h with h; subst h; exact hostStep_mem_wf hw
  · injection h with h; subst h; exact hostStep_mem_wf (s := s.tick) hw
  · rw [exec_mem h]; exact hw
  · injection h with h; subst h; exact hw

end Sys2Proof.Machine
end

