-- ==== Sys2Proof/Laws/Runs.lean ====
section
/-! SUPPORT. The commands do not look at the phase, STATUS, ERRINFO, the latency or the host's queue (R251, R255), and runs of
several steps. -/

namespace Sys2Proof.Machine

/-- A state with other bookkeeping: phase, STATUS, ERRINFO, latency and host queue. -/
def State.rebook (s : State) (p : Phase) (st : Status) (e : Word) (l : Nat) (b : List HostOp) : State :=
  { s with phase := p, status := st, errInfo := e, latency := l, bus := b }

/-- The result of the steps with other bookkeeping. -/
def rebookResult {ε : Type} (p : Phase) (st : Status) (e : Word) (l : Nat) (b : List HostOp) :
    Except ε State → Except ε State
  | .ok t => .ok (t.rebook p st e l b)
  | .error r => .error r

/-- A step that does not look at the bookkeeping, nor change it. -/
def Blind {ε : Type} (u : State → Except ε State) : Prop :=
  ∀ s p st e l b, u (s.rebook p st e l b) = rebookResult p st e l b (u s)

theorem freqAnalyze_blind : Blind freqAnalyze := by
  intro s p st e l b
  unfold freqAnalyze
  rw [show (s.rebook p st e l b).inSyms = s.inSyms from rfl,
    show (s.rebook p st e l b).caps = s.caps from rfl,
    show (s.rebook p st e l b).inSymLen = s.inSymLen from rfl]
  split
  · rfl
  · cases s.inSyms.findIdx? (fun x => decide (symMax < x)) <;> rfl

theorem treeBuild_blind : Blind treeBuild := by
  intro s p st e l b
  unfold treeBuild
  rw [show (s.rebook p st e l b).ft = s.ft from rfl]
  rcases s.ft with _ | (_ | ⟨x, ys⟩) <;> rfl

theorem codeDerive_blind : Blind codeDerive := by
  intro s p st e l b
  unfold codeDerive
  rw [show (s.rebook p st e l b).tree = s.tree from rfl]
  rcases s.tree with _ | x <;> rfl

theorem bitPack_blind : Blind bitPack := by
  intro s p st e l b
  unfold bitPack
  rw [show (s.rebook p st e l b).inSyms = s.inSyms from rfl,
    show (s.rebook p st e l b).caps = s.caps from rfl,
    show (s.rebook p st e l b).inSymLen = s.inSymLen from rfl,
    show (s.rebook p st e l b).ct = s.ct from rfl]
  rcases s.ct with _ | ct
  · rfl
  · simp only
    split
    · rfl
    · cases s.inSyms.findIdx? (fun x => (codeOf ct x).isNone) with
      | some i => rfl
      | none =>
        simp only
        split
        · rfl
        · split <;> rfl

theorem contSerialize_blind : Blind contSerialize := by
  intro s p st e l b
  unfold contSerialize
  rw [show (s.rebook p st e l b).ft = s.ft from rfl,
    show (s.rebook p st e l b).payload = s.payload from rfl,
    show (s.rebook p st e l b).caps = s.caps from rfl]
  rcases s.ft with _ | ft <;> rcases s.payload with _ | pl
  · rfl
  · rfl
  · rfl
  · simp only; split <;> rfl

theorem contDeserialize_blind : Blind contDeserialize := by
  intro s p st e l b
  unfold contDeserialize
  rw [show (s.rebook p st e l b).inBytes = s.inBytes from rfl,
    show (s.rebook p st e l b).inByteLen = s.inByteLen from rfl,
    show (s.rebook p st e l b).caps = s.caps from rfl]
  split
  · rfl
  · cases readContainer s.caps.payload s.inBytes <;> rfl

theorem payloadCheck_blind : Blind payloadCheck := by
  intro s p st e l b
  unfold payloadCheck
  rw [show (s.rebook p st e l b).ft = s.ft from rfl,
    show (s.rebook p st e l b).payload = s.payload from rfl,
    show (s.rebook p st e l b).ct = s.ct from rfl]
  rcases s.ft with _ | ft <;> rcases s.ct with _ | ct <;> rcases s.payload with _ | pl <;> try rfl
  simp only; split <;> rfl

theorem bitUnpack_blind : Blind bitUnpack := by
  intro s p st e l b
  unfold bitUnpack
  rw [show (s.rebook p st e l b).caps = s.caps from rfl,
    show (s.rebook p st e l b).payload = s.payload from rfl,
    show (s.rebook p st e l b).ct = s.ct from rfl]
  rcases s.ct with _ | ct <;> rcases s.payload with _ | pl <;> try rfl
  rcases pl with _ | ⟨y, rest⟩
  · rfl
  · simp only
    split
    · cases scanBits ct s.caps.outSym [] [] (payloadBits y.toNat rest) <;> rfl
    · rfl

theorem runUnit_blind {i : Instr} {u : State → Except Raise State} (h : Blind u) : Blind (runUnit i u) := by
  intro s p st e l b
  unfold runUnit
  rw [h s p st e l b]
  cases u s <;> rfl

theorem andThen_blind {f g : State → Except Failure State} (hf : Blind f) (hg : Blind g) :
    Blind (fun s => andThen (f s) g) := by
  intro s p st e l b
  show andThen (f (s.rebook p st e l b)) g = _
  rw [hf s p st e l b]
  cases hs : f s with
  | ok t => simp only [hs, andThen_ok]; exact hg t p st e l b
  | error r => simp only [hs, andThen_error]; rfl

/-- No command's steps look at the bookkeeping. -/
theorem resultOf_blind (i : Instr) : Blind (resultOf i) := by
  cases i with
  | nop => exact fun _ _ _ _ _ _ => rfl
  | freqAnalyze => exact runUnit_blind freqAnalyze_blind
  | treeBuild => exact runUnit_blind treeBuild_blind
  | codeDerive => exact runUnit_blind codeDerive_blind
  | bitPack => exact runUnit_blind bitPack_blind
  | contSerialize => exact runUnit_blind contSerialize_blind
  | contDeserialize => exact runUnit_blind contDeserialize_blind
  | payloadCheck => exact runUnit_blind payloadCheck_blind
  | bitUnpack => exact runUnit_blind bitUnpack_blind
  | compress =>
    exact andThen_blind (andThen_blind (andThen_blind (andThen_blind (runUnit_blind freqAnalyze_blind)
      (runUnit_blind treeBuild_blind)) (runUnit_blind codeDerive_blind)) (runUnit_blind bitPack_blind))
      (runUnit_blind contSerialize_blind)
  | decompress =>
    exact andThen_blind (andThen_blind (andThen_blind (andThen_blind (runUnit_blind contDeserialize_blind)
      (runUnit_blind treeBuild_blind)) (runUnit_blind codeDerive_blind)) (runUnit_blind payloadCheck_blind))
      (runUnit_blind bitUnpack_blind)

/-! Runs. -/

theorem exec_next (i : Instr) (s : State) : ∃ t, exec i s = .next t := by
  rcases exec_cases i s with ⟨_, _, h⟩ | ⟨_, _, h⟩ <;> exact ⟨_, h⟩

theorem exec_idle {i : Instr} {s t : State} (h : exec i s = .next t) : t.phase = .idle := by
  rcases exec_cases i s with ⟨u, hu, e⟩ | ⟨f, _, e⟩ <;> rw [e] at h <;> injection h with h <;> subst h <;> rfl

/-- A write that is the host's next access, in IDLE. -/
theorem step_idle_write {s : State} {a v : Word} {rest : List HostOp} (hp : s.phase = .idle) (hb : s.bus = .write a v :: rest) :
    step s = .next ({ s with bus := rest }.busWrite a v) := by
  rcases step_cases s with ⟨_, e⟩ | ⟨_, _, h, _⟩ | ⟨_, _, _, h, _⟩ | ⟨_, _, _, h, _⟩
  · rw [e]; unfold State.hostStep; rw [hb]
  · rw [hp] at h; cases h
  · rw [hp] at h; cases h
  · rw [hp] at h; cases h

/-- The RAMs' writes, one after another. -/
def writeRams (s : State) (ws : List (Word × Word)) : State := ws.foldl (fun u w => u.writeRam w.1 w.2) s

/-- They change nothing but the RAMs. -/
theorem writeRams_frame (ws : List (Word × Word)) (s : State) : { writeRams s ws with mem := s.mem } = s := by
  induction ws generalizing s with
  | nil => rfl
  | cons w ws ih =>
    have h := congrArg (fun u : State => { u with mem := s.mem }) (ih (s.writeRam w.1 w.2))
    exact h

theorem writeRams_bus (ws : List (Word × Word)) (s : State) (b rest : List HostOp) :
    { writeRams { s with bus := b } ws with bus := rest } = { writeRams s ws with bus := rest } := by
  induction ws generalizing s with
  | nil => rfl
  | cons w ws ih => exact ih (s.writeRam w.1 w.2)

/-- A run of writes to the RAMs in IDLE. -/
theorem run_writes (ws : List (Word × Word)) (s : State) (rest : List HostOp) (hp : s.phase = .idle)
    (he : ∀ w ∈ ws, s.writeEffective w.1 = true ∧ regionOf w.1 ≠ .regs)
    (hb : s.bus = ws.map (fun w => .write w.1 w.2) ++ rest) :
    Host.Core.run core ws.length s = .next { writeRams s ws with bus := rest } := by
  induction ws generalizing s with
  | nil => simp at hb; rw [← hb]; rfl
  | cons w ws ih =>
    obtain ⟨h1, h2⟩ := he w (by simp)
    let u : State := { s with bus := ws.map (fun w => .write w.1 w.2) ++ rest }
    have hu : u.busWrite w.1 w.2 = u.writeRam w.1 w.2 := busWrite_ram u _ _ hp h1 h2
    have hs : step s = .next (u.writeRam w.1 w.2) := (step_idle_write hp hb).trans (congrArg _ hu)
    rw [List.length_cons, run_succ _ hs]
    refine (ih (u.writeRam w.1 w.2) hp (fun x hx => he x (by simp [hx])) rfl).trans ?_
    congr 1
    exact writeRams_bus ws (s.writeRam w.1 w.2) _ rest

end Sys2Proof.Machine
end

