-- ==== Sys2Proof/Tests/Slice0.lean ====
section
/-! SUPPORT. Tests, each of one step or one value, with expected results from spec/95_test_vectors.md or worked out by hand from
the rule named; and for every statement with hypotheses a witness that meets them. -/

open Sys2Proof Sys2Proof.Machine

namespace Sys2Proof.Tests

/-! Small states. -/

/-- Small legal capacities (R9). -/
def caps : Caps := ⟨16, 64, 64, 16, 32⟩

/-- Right after power-on, with the small capacities. -/
def blank : State := State.powerOn caps

/-- Input symbols loaded (LDSYM's effect, R96). -/
def withSyms (xs : List Nat) (s : State) : State :=
  { s with inSymLen := BitVec.ofNat 32 xs.length, mem := memStore s.mem 0x10000000 (xs.flatMap be32) }

/-- Input bytes loaded (LDBYTES's effect, R96). -/
def withBytes (bs : List Byte) (s : State) : State :=
  { s with inByteLen := BitVec.ofNat 32 bs.length, mem := memStore s.mem 0x20000000 bs }

/-- A command word accepted, the engine's turn. -/
def busy (w : Word) (s : State) : State := { s.acceptWord w with latency := 0 }

/-- The next state of a result. -/
def after : Result → State
  | .next s => s
  | .fault _ => blank
  | .refused _ => blank

/-- STATUS and ERRINFO of a result. -/
def report (r : Result) : Word × Word := ((after r).statusWord, (after r).errInfo)

/-- "abcabc", "abracadabra" and "aaaa". -/
def abcText : List Nat := [0x61, 0x62, 0x63, 0x61, 0x62, 0x63]

def abraText : List Nat := [0x61, 0x62, 0x72, 0x61, 0x63, 0x61, 0x64, 0x61, 0x62, 0x72, 0x61]

def aaaaText : List Nat := [0x61, 0x61, 0x61, 0x61]

/-- T-FREQ-2, T-TREE-2, T-CODE-2, T-SER-2. -/
def abcFt : FreqTable := [⟨0x61, 2⟩, ⟨0x62, 2⟩, ⟨0x63, 2⟩]

def abcTree : Tree := ⟨[.leaf 0x61 2, .leaf 0x62 2, .leaf 0x63 2, .internal 4 0 1, .internal 6 2 3], 4⟩

/-- The codes of "abcabc" under T-CODE-2. -/
def abcCodes : List Bits := [[true, false], [true, true], [false], [true, false], [true, true], [false]]

def abcCt : CodeTable := [⟨0x61, [true, false]⟩, ⟨0x62, [true, true]⟩, ⟨0x63, [false]⟩]

def abcHeader : List Byte :=
  [0, 0, 0, 0x1C, 0, 0, 0, 3, 0, 0, 0, 0x61, 0, 0, 0, 2, 0, 0, 0, 0x62, 0, 0, 0, 2, 0, 0, 0, 0x63, 0, 0, 0, 2]

def abcContainer : List Byte := abcHeader ++ [0x06, 0xB5, 0x80]

/-- Everything that COMPRESS and DECOMPRESS of "abcabc" leave (P1, P2). -/
def abc : State :=
  withBytes abcContainer (withSyms abcText
    { blank with
      ft := some abcFt, tree := some abcTree, ct := some abcCt, payload := some [0x06, 0xB5, 0x80]
      outBytes := some abcContainer, outSyms := some abcText, pad := 6, pbits := 10 })

/-- The single-symbol state of Scenario A. -/
def aaaa : State :=
  withSyms aaaaText
    { blank with
      ft := some [⟨0x61, 4⟩], tree := some ⟨[.leaf 0x61 4], 0⟩, ct := some [⟨0x61, [false]⟩], payload := some [0x04, 0x00]
      pad := 4, pbits := 4 }

/-- A failed command on record, so that `err` is 1: TREE_BUILD after reset (T-TREE-10). -/
def failedState : State := blank.failed 8 1 2

theorem abc_inv : abc.Inv where
  caps := by decide
  memWf := by decide +kernel
  memRange := by simp only [ramAddr]; decide +kernel
  ft := by rintro _ ⟨⟩; decide
  tree := by rintro _ ⟨⟩; exact ⟨_, rfl, by decide, by decide⟩
  ct := by rintro _ ⟨⟩; exact ⟨_, rfl, by decide⟩
  payload := by rintro _ ⟨⟩; decide
  outBytes := by rintro _ ⟨⟩; decide
  outSyms := by rintro _ ⟨⟩; decide
  pad := by decide
  pbits := by decide
  noErr := by decide
  errCode := by decide
  busy := by rintro _ _ ⟨⟩

theorem aaaa_inv : aaaa.Inv where
  caps := by decide
  memWf := by decide +kernel
  memRange := by simp only [ramAddr]; decide +kernel
  ft := by rintro _ ⟨⟩; decide
  tree := by rintro _ ⟨⟩; exact ⟨_, rfl, by decide, by decide⟩
  ct := by rintro _ ⟨⟩; exact ⟨_, rfl, by decide⟩
  payload := by rintro _ ⟨⟩; decide
  outBytes := by rintro _ ⟨⟩
  outSyms := by rintro _ ⟨⟩
  pad := by decide
  pbits := by decide
  noErr := by decide
  errCode := by decide
  busy := by rintro _ _ ⟨⟩

theorem abc_codes : CodesOf abcCt abcText abcCodes := .cons rfl (.cons rfl (.cons rfl (.cons rfl (.cons rfl (.cons rfl .nil)))))

theorem abc_inSyms : abc.inSyms = abcText := by decide +kernel

/-! Decoding: the words of R90 and R93 written out: RSV, bits[31:8] = 0, then OPC. -/

theorem test_decode_nop : decode 0b00000000_00000000_00000000_00000000 = .ok .nop := by decide

theorem test_decode_freqAnalyze : decode 0b00000000_00000000_00000000_00000001 = .ok .freqAnalyze := by decide

theorem test_decode_treeBuild : decode 0b00000000_00000000_00000000_00000010 = .ok .treeBuild := by decide

theorem test_decode_codeDerive : decode 0b00000000_00000000_00000000_00000011 = .ok .codeDerive := by decide

theorem test_decode_bitPack : decode 0b00000000_00000000_00000000_00000100 = .ok .bitPack := by decide

theorem test_decode_contSerialize : decode 0b00000000_00000000_00000000_00000101 = .ok .contSerialize := by decide

theorem test_decode_contDeserialize : decode 0b00000000_00000000_00000000_00000110 = .ok .contDeserialize := by decide

theorem test_decode_payloadCheck : decode 0b00000000_00000000_00000000_00000111 = .ok .payloadCheck := by decide

theorem test_decode_bitUnpack : decode 0b00000000_00000000_00000000_00001000 = .ok .bitUnpack := by decide

theorem test_decode_compress : decode 0b00000000_00000000_00000000_00010000 = .ok .compress := by decide

theorem test_decode_decompress : decode 0b00000000_00000000_00000000_00010001 = .ok .decompress := by decide

theorem test_decode_table_word : decodeTableWord 32 0x10 = some .compress ∧ decodeTableWord 32 0x109 = none := by decide

/-- The ends of the two opcode gaps of R95. -/
theorem test_decode_gaps : [0x09, 0x0F, 0x12, 0xFF].map decode = List.replicate 4 (.error .noOpcode) := by decide

/-! Well-formedness: an ill-formed term for each check. -/

theorem test_rsv_refused : rsvOk 0x100 = false ∧ rsvOk 0xFF = true := by decide

theorem test_opc_refused : opcOk 0x9 = false ∧ opcOk 0x12 = false ∧ opcOk 0x11 = true := by decide

theorem test_cmd_word_refused : cmdWordWf 0x109 = false ∧ cmdWordWf 0x80000010 = false ∧ cmdWordWf 0x10 = true := by decide

/-- No command has an operand (R94), so there is no ill-formed term of `Instr` to refuse. -/
theorem test_every_instr_wf : (opcodeMap.map fun x => x.2.wf) = List.replicate 11 true := by decide

/-- R23: a symbol above SYM_MAX, symbols not ascending, a zero count, a sum above COUNT_MAX. -/
theorem test_ft_refused :
    ¬ FreqTable.wf [⟨0x110000, 1⟩] ∧ ¬ FreqTable.wf [⟨2, 1⟩, ⟨1, 1⟩] ∧ ¬ FreqTable.wf [⟨1, 0⟩] ∧
    ¬ FreqTable.wf [⟨1, 0xFFFFFFFF⟩, ⟨2, 1⟩] ∧ FreqTable.wf abcFt ∧ FreqTable.wf [] := by decide

/-- R24: an even number of nodes, a wrong root, a leaf after an internal node, a wrong sum, a node with two parents. -/
theorem test_tree_refused :
    ¬ Tree.wf ⟨[.leaf 1 1, .leaf 2 1], 1⟩ ∧ ¬ Tree.wf ⟨[.leaf 1 1, .leaf 2 1, .internal 2 0 1], 1⟩ ∧
    ¬ Tree.wf ⟨[.leaf 1 1, .leaf 2 1, .leaf 3 1], 2⟩ ∧ ¬ Tree.wf ⟨[.leaf 1 1, .leaf 2 1, .internal 3 0 1], 2⟩ ∧
    ¬ Tree.wf ⟨[.leaf 1 1, .leaf 2 1, .internal 2 0 0], 2⟩ ∧ Tree.wf abcTree := by decide

/-- R25, R162: symbols not ascending, an empty code, a code that begins another. -/
theorem test_ct_refused :
    ¬ CodeTable.wf [⟨2, [false]⟩, ⟨1, [true]⟩] ∧ ¬ CodeTable.wf [⟨1, []⟩] ∧
    ¬ CodeTable.wf [⟨1, [false]⟩, ⟨2, [false, true]⟩] ∧ CodeTable.wf abcCt := by decide

/-- R9: a capacity below and a capacity above its bounds. -/
theorem test_caps_refused :
    ¬ Caps.wf ⟨0, 64, 64, 16, 32⟩ ∧ ¬ Caps.wf ⟨16, 17, 64, 16, 32⟩ ∧ ¬ Caps.wf ⟨16, 64, 2 ^ 28 + 1, 16, 32⟩ ∧
    ¬ Caps.wf ⟨16, 64, 64, 2 ^ 26 + 1, 32⟩ ∧ ¬ Caps.wf ⟨16, 64, 64, 16, 1⟩ ∧ Caps.wf caps := by decide

/-- The canonical form of the input RAMs: addresses out of order, an address twice. -/
theorem test_mem_refused : ¬ Memory.wf [(2, 0), (1, 0)] ∧ ¬ Memory.wf [(1, 0), (1, 1)] ∧ Memory.wf [(1, 0), (2, 0)] := by decide

/-! The commands. -/

/-- T-CTL-1. -/
theorem test_nop : report (exec .nop failedState) = (2, 0) := by decide

/-- T-FREQ-3. -/
theorem test_freq_abracadabra :
    (after (exec .freqAnalyze (withSyms abraText blank))).ft =
      some [⟨0x61, 5⟩, ⟨0x62, 2⟩, ⟨0x63, 1⟩, ⟨0x64, 1⟩, ⟨0x72, 2⟩] := by decide +kernel

/-- T-FREQ-8. -/
theorem test_freq_non_symbol :
    report (exec .freqAnalyze (withSyms [0x61, 0x110000, 0xFFFFFFFF] blank)) = (0x00010106, 1) := by decide +kernel

/-- T-TREE-3. -/
theorem test_tree_abracadabra :
    ((after (exec .treeBuild
        { blank with ft := some [⟨0x61, 5⟩, ⟨0x62, 2⟩, ⟨0x63, 1⟩, ⟨0x64, 1⟩, ⟨0x72, 2⟩] })).tree.map
      fun t => (t.nodes.drop 5, t.root)) =
      some ([.internal 2 2 3, .internal 4 1 4, .internal 6 5 6, .internal 11 0 7], 8) := by decide

/-- T-TREE-4: a tie of a leaf and an internal node. -/
theorem test_tree_tie :
    ((after (exec .treeBuild { blank with ft := some [⟨0x61, 3⟩, ⟨0x62, 2⟩, ⟨0x63, 1⟩] })).tree.map fun t => t.nodes.drop 3) =
      some [.internal 3 2 1, .internal 6 0 3] := by decide

/-- T-CODE-2. -/
theorem test_codes_abc : (after (exec .codeDerive { abc with ct := none })).ct = some abcCt := by decide +kernel

/-- T-CODE-1: one leaf. -/
theorem test_codes_single : (after (exec .codeDerive { aaaa with ct := none })).ct = some [⟨0x61, [false]⟩] := by decide +kernel

/-- T-PACK-2. -/
theorem test_pack_abc :
    ((after (exec .bitPack { abc with payload := none })).payload,
      (after (exec .bitPack { abc with payload := none })).pad) = (some [0x06, 0xB5, 0x80], 6) := by decide +kernel

/-- T-PACK-13. -/
theorem test_pack_missing_code :
    report (exec .bitPack (withSyms [0x61, 0x110000] { aaaa with mem := [] })) = (0x00040206, 1) := by decide +kernel

/-- T-SER-1. -/
theorem test_serialize_aaaa :
    (after (exec .contSerialize aaaa)).outBytes =
      some [0, 0, 0, 0x0C, 0, 0, 0, 1, 0, 0, 0, 0x61, 0, 0, 0, 4, 4, 0] := by decide +kernel

/-- T-SER-13. -/
theorem test_serialize_capacity :
    report (exec .contSerialize { abc with caps := ⟨16, 64, 34, 16, 32⟩ }) = (0x00050906, 3) := by decide +kernel

/-- T-DES-1. -/
theorem test_deserialize_abc :
    ((after (exec .contDeserialize (withBytes abcContainer blank))).ft,
      (after (exec .contDeserialize (withBytes abcContainer blank))).payload) =
      (some abcFt, some [0x06, 0xB5, 0x80]) := by decide +kernel

/-- T-DES-8: symbols that do not ascend, at entry 1. -/
theorem test_deserialize_order :
    report (exec .contDeserialize
      (withBytes [0, 0, 0, 0x14, 0, 0, 0, 2, 0, 0, 0, 0x62, 0, 0, 0, 1, 0, 0, 0, 0x61, 0, 0, 0, 1] blank)) =
      (0x00060306, 0x105) := by decide +kernel

/-- T-PCHK-2. -/
theorem test_payload_check_short :
    report (exec .payloadCheck { abc with payload := some [0x06, 0xB5] }) = (0x00070406, 3) := by decide +kernel

/-- T-PCHK-4. -/
theorem test_payload_check_longer :
    report (exec .payloadCheck { abc with payload := some [0x06, 0xB5, 0x80, 0x00] }) = (2, 0) := by decide +kernel

/-- T-UNP-1. -/
theorem test_unpack_abc :
    (after (exec .bitUnpack { abc with outSyms := none, pad := 0, pbits := 0 })).outSyms = some abcText := by decide +kernel

/-- T-UNP-7: eight padding bits with two data bytes. -/
theorem test_unpack_padding :
    report (exec .bitUnpack { abc with payload := some [0x08, 0x00, 0x00] }) = (0x00080506, 0x802) := by decide +kernel

/-- T-COMP-2. -/
theorem test_compress_abc : (after (exec .compress (withSyms abcText blank))).outBytes = some abcContainer := by decide +kernel

/-- T-COMP-5: Scenario B. -/
theorem test_compress_empty : report (exec .compress blank) = (0x00020106, 0) := by decide +kernel

/-- T-DEC-7: one more payload byte gives eight more symbols. -/
theorem test_decompress_longer :
    (after (exec .decompress (withBytes (abcContainer ++ [0]) blank))).outSyms =
      some (abcText ++ List.replicate 8 0x63) := by decide +kernel

/-- T-DEC-6. -/
theorem test_decompress_truncated :
    report (exec .decompress (withBytes (abcHeader ++ [0x06, 0xB5]) blank)) = (0x00070406, 3) := by decide +kernel

/-! The step, the bus and reset. -/

/-- T-CTL-2, and the first command after reset (T-TREE-10). -/
theorem test_step_fetched_word :
    report (step (State.reset.withFetchWord 32 0x109)) = (0x00090706, 0x109) ∧
    report (step (State.reset.withFetchWord 32 0x02)) = (0x00020806, 1) := by decide

/-- The CT window, entry 1 of T-CODE-3. -/
theorem test_ct_window :
    ([0x80000010, 0x80000014, 0x80000018, 0x8000001C].map
      { blank with ct := some [⟨0x61, [false]⟩, ⟨0x62, [true, true, false]⟩] }.busValue) = [0x62, 3, 0, 6] := by decide

/-- The TREE window: a leaf and an internal node of T-TREE-2, and a word beyond the last node. -/
theorem test_tree_window :
    ([0x70000000, 0x70000004, 0x70000008, 0x70000030, 0x70000034, 0x70000038, 0x7000003C, 0x70000050].map
      { blank with tree := some abcTree }.busValue) = [0x80000061, 2, 0xFFFFFFFF, 0, 4, 0, 1, 0] := by decide

/-- P1: the last word of OUT_BYTES holds byte 35, which reads 0, and VALID is 0x1F without OUT_SYMS. -/
theorem test_out_bytes_window :
    abc.busValue 0x30000020 = 0x06B58000 ∧ { abc with outSyms := none }.busValue 0x14 = 0x1F := by decide

/-- P4: a write to STATUS and a misaligned read set BUSERR; the read returns 0. -/
theorem test_bus_errors :
    (failedState.busWrite 0x0C 0).busValue 0x0C = 0x40020806 ∧ (blank.busRead 0x02).reads = [0] ∧
    (blank.busRead 0x02).statusWord = 0x40000000 := by decide

/-- P5: the completion interrupt and its acknowledgement. -/
theorem test_irq :
    (after (exec .nop { blank with irqEn := true })).irq = true ∧
    ((after (exec .nop { blank with irqEn := true })).busWrite 0x04 0x06).irq = false ∧
    ((after (exec .nop { blank with irqEn := true })).busWrite 0x04 0x06).busValue 0x04 = 2 := by decide

/-- R63: a word written to the IN_BYTES window is stored big-endian, and not beyond IN_BYTE_CAP. -/
theorem test_in_bytes_window :
    (blank.busWrite 0x20000000 0x0000001C).ramByte 0x20000003 = 0x1C ∧
    ({ blank with caps := ⟨16, 18, 64, 16, 32⟩ }.busWrite 0x20000010 0x01020304).mem = [(0x20000010, 1), (0x20000011, 2)] := by
  decide

/-- R96: WAIT stays queued while STATUS reads BUSY = 1, and is done when it reads BUSY = 0 (P1). -/
theorem test_wait :
    { busy 1 blank with bus := [.wait] }.hostStep.bus = [.wait] ∧ { busy 1 blank with bus := [.wait] }.hostStep.reads = [1] ∧
    { failedState with bus := [.wait] }.hostStep.bus = [] ∧
    { failedState with bus := [.wait] }.hostStep.reads = [0x00020806] := by decide

/-- R96: LDSYM's accesses. -/
theorem test_script_ldsym :
    scriptLdSym [0x61, 0x62] = [.write 0x10000000 0x61, .write 0x10000004 0x62, .write 0x18 2] := by decide

/-! Witnesses: for each statement with hypotheses, a state and operands that meet them, at the ends of their ranges. -/

theorem witness_EncodeThenDecode : Instr.decompress.wf = true := by decide

theorem witness_IllegalWordCompletes :
    (busy 0x109 blank).phase = .busy 0x109 0 ∧ (busy 0x109 blank).engineTurn = true ∧
    (busy 0x109 blank).status.busErr = false ∧ (busy 0x109 blank).status.overrun = false ∧
    (busy 0x0F blank).phase = .busy 0x0F 0 ∧ (busy 0x12 blank).phase = .busy 0x12 0 := by decide

theorem witness_StepRunsTheDecodedCommand :
    (busy 1 blank).phase = .busy 1 0 ∧ (busy 1 blank).latency = 0 ∧ decode 1 = .ok .freqAnalyze ∧
    { busy 1 blank with latency := 1 }.bus = [] ∧
    { busy 1 blank with latency := 1, bus := [.wait] }.latency ≠ 0 ∧
    { busy 1 blank with latency := 1, bus := [.wait] }.bus ≠ [] ∧ blank.phase = .idle ∧ blank.bus = [] ∧
    { blank with bus := [.read 0x0C, .wait] }.bus = .read 0x0C :: [.wait] ∧
    { blank with bus := [.write 0x18 6] }.bus = .write 0x18 6 :: [] ∧ { blank with bus := [.wait] }.bus = .wait :: [] ∧
    ((busy 1 blank).busValue 0x0C).getLsbD 0 = true ∧ (blank.busValue 0x0C).getLsbD 0 = false := by decide

theorem witness_BusyEngineFinishes :
    (busy 1 blank).phase ≠ .idle ∧ { busy 1 blank with latency := 1, bus := [.wait] }.phase ≠ .idle := by decide

theorem witness_EveryCommandCompletes :
    (∃ t, exec .nop blank = .next t ∧ t.status.err = false) ∧ ∃ t, exec .treeBuild blank = .next t ∧ t.status.err = true :=
  ⟨⟨_, rfl, by decide⟩, _, rfl, by decide⟩

theorem witness_CommandsLeaveTheRestUnchanged :
    (∃ t, exec .compress abc = .next t) ∧
    (∃ t, exec .payloadCheck abc = .next t ∧ .payloadCheck ∉ [Instr.freqAnalyze, .contDeserialize, .compress, .decompress]) :=
  ⟨⟨_, rfl⟩, _, rfl, by decide⟩

theorem witness_FailureDiscardsTheWritesColumn :
    ∃ t, exec .compress blank = .next t ∧ t.status.err = true :=
  ⟨_, rfl, by decide +kernel⟩

theorem witness_NotReadyIsTheFirstCheck :
    (∃ r ∈ requires .treeBuild, blank.holds r = false) ∧ (∃ r ∈ requires .codeDerive, blank.holds r = false) ∧
    (∃ r ∈ requires .bitPack, blank.holds r = false) ∧ (∃ r ∈ requires .contSerialize, blank.holds r = false) ∧
    (∃ r ∈ requires .payloadCheck, blank.holds r = false) ∧ (∃ r ∈ requires .bitUnpack, blank.holds r = false) ∧
    (∀ r ∈ requires .payloadCheck, abc.holds r = true) ∧ ∃ t, exec .payloadCheck abc = .next t :=
  ⟨by decide, by decide, by decide, by decide, by decide, by decide, by decide, _, rfl⟩

theorem witness_ErrorsComeFromTheirSteps :
    (∃ t, exec .treeBuild blank = .next t ∧ t.status.err = true) ∧
    ∃ t, exec .decompress blank = .next t ∧ t.status.err = true :=
  ⟨⟨_, rfl, by decide⟩, _, rfl, by decide +kernel⟩

/-- Each clause: one symbol too many; a non-symbol at index 1; a full buffer's worth of length and no symbol at all. -/
theorem witness_FreqAnalyzeCountsTheInput :
    { blank with inSymLen := 17 }.caps.inSym < { blank with inSymLen := 17 }.inSymLen.toNat ∧
    (withSyms [0x10FFFF, 0x110000] blank).inSymLen.toNat ≤ (withSyms [0x10FFFF, 0x110000] blank).caps.inSym ∧
    symMax < (withSyms [0x10FFFF, 0x110000] blank).inSym 1 ∧
    (∀ j < 1, (withSyms [0x10FFFF, 0x110000] blank).inSym j ≤ symMax) ∧
    abc.inSymLen.toNat ≤ abc.caps.inSym ∧ (∀ i < abc.inSymLen.toNat, abc.inSym i ≤ symMax) ∧
    ∀ i < blank.inSymLen.toNat, blank.inSym i ≤ symMax := by decide +kernel

theorem witness_FrequencyTablesConserveAndMerge :
    FreqAnalyzed abc abcFt ∧
    FreqAnalyzed (withSyms [0x63, 0x62, 0x61, 0x61, 0x62, 0x63] blank) abcFt ∧
    abc.inSyms.Perm (withSyms [0x63, 0x62, 0x61, 0x61, 0x62, 0x63] blank).inSyms ∧
    FreqAnalyzed (withSyms [0x61, 0x62, 0x63] blank) [⟨0x61, 1⟩, ⟨0x62, 1⟩, ⟨0x63, 1⟩] ∧
    abc.inSyms = (withSyms [0x61, 0x62, 0x63] blank).inSyms ++ (withSyms [0x61, 0x62, 0x63] blank).inSyms :=
  ⟨⟨_, rfl, by decide +kernel, by decide +kernel⟩, ⟨_, rfl, by decide +kernel, by decide +kernel⟩, by decide +kernel,
    ⟨_, rfl, by decide +kernel, by decide +kernel⟩, by decide +kernel⟩

theorem witness_TreeBuildBuildsFromFt :
    blank.ft = none ∧ { blank with ft := some [] }.ft = some [] ∧ abc.ft = some abcFt ∧ abcFt ≠ [] := by decide

theorem witness_BuildPopsTheTwoSmallestKeys :
    abcFt ≠ [] ∧ abcFt[2]? = some ⟨0x63, 2⟩ ∧ abcFt.length ≤ 4 ∧ 4 < (build abcFt).nodes.length ∧
    (build abcFt).nodes.length = 5 := by decide

theorem witness_BuiltTreesHaveTheHuffmanShape : abc.ft = some abcFt ∧ abcFt ≠ [] := by decide

theorem witness_TreeValuesAreTrees : abc.Inv ∧ abc.tree = some abcTree := ⟨abc_inv, rfl⟩

theorem witness_CodesAreLeafPaths :
    blank.tree = none ∧ (abc.Inv ∧ abc.tree = some abcTree ∧ abc.ft = some abcFt ∧ 2 ≤ abcFt.length) ∧
    aaaa.Inv ∧ aaaa.tree = some ⟨[.leaf 0x61 4], 0⟩ ∧ aaaa.ft = some [⟨0x61, 4⟩] :=
  ⟨rfl, ⟨abc_inv, rfl, rfl, by decide⟩, aaaa_inv, rfl, rfl⟩

theorem witness_CodesArePrefixFree : abc.Inv ∧ abc.ct = some abcCt ∧ abcCt[0]? = some ⟨0x61, [true, false]⟩ :=
  ⟨abc_inv, rfl, rfl⟩

theorem witness_BitStringsSplitInOneWay :
    (abc.Inv ∧ abc.ct = some abcCt ∧ 2 ≤ abcCt.length) ∧ aaaa.Inv ∧ aaaa.ct = some [⟨0x61, [false]⟩] :=
  ⟨⟨abc_inv, rfl, by decide⟩, aaaa_inv, rfl⟩

theorem witness_CodesHaveAtMost45Bits : abc.Inv ∧ abc.ct = some abcCt ∧ ⟨0x62, [true, true]⟩ ∈ abcCt :=
  ⟨abc_inv, rfl, by decide⟩

/-- Each clause: no CT; too long; a symbol without a code; the packed size above and exactly at PAYLOAD_CAP. -/
theorem witness_BitPackEncodesTheInput :
    blank.ct = none ∧ abc.ct = some abcCt ∧
    { abc with inSymLen := 17 }.caps.inSym < { abc with inSymLen := 17 }.inSymLen.toNat ∧
    abc.inSymLen.toNat ≤ abc.caps.inSym ∧
    (codeOf [⟨0x61, [false]⟩] (abc.inSym 1) = none ∧ ∀ j < 1, codeOf [⟨0x61, [false]⟩] (abc.inSym j) ≠ none) ∧
    CodesOf abcCt abc.inSyms abcCodes ∧ abcCodes.flatten.length = 10 ∧ (8 - 10 % 8) % 8 = 6 ∧
    { abc with caps := ⟨16, 64, 64, 16, 2⟩ }.caps.payload < (8 + 10 + 6) / 8 ∧
    (8 + 10 + 6) / 8 ≤ { abc with caps := ⟨16, 64, 64, 16, 3⟩ }.caps.payload :=
  ⟨rfl, rfl, by decide, by decide, by decide +kernel, abc_inSyms ▸ abc_codes, by decide, by decide, by decide, by decide⟩

theorem witness_PackedPayloadsHaveTheStatedShape :
    abc.Inv ∧ abc.ct = some abcCt ∧ (∃ t, exec .bitPack abc = .next t ∧ t.status.err = false) ∧
    abc.ft = some (freqTable abc.inSyms) :=
  ⟨abc_inv, rfl, ⟨_, rfl, by decide +kernel⟩, by decide +kernel⟩

/-- Each clause: a missing register; the container one byte above and exactly at OUT_BYTE_CAP. -/
theorem witness_SerializeWritesTheContainer :
    (blank.ft = none ∨ blank.payload = none) ∧ abc.ft = some abcFt ∧ abc.payload = some [0x06, 0xB5, 0x80] ∧
    abcContainer = be32 (4 + 8 * abcFt.length) ++ be32 abcFt.length ++
      abcFt.flatMap (fun e => be32 e.sym ++ be32 e.count) ++ [0x06, 0xB5, 0x80] ∧
    { abc with caps := ⟨16, 64, 34, 16, 32⟩ }.caps.outByte < abcContainer.length ∧
    abcContainer.length ≤ { abc with caps := ⟨16, 64, 35, 16, 32⟩ }.caps.outByte := by decide +kernel

theorem witness_BigEndianFieldsRoundTrip : 0xFFFFFFFF < 2 ^ 32 ∧ 0 < 2 ^ 32 := by decide

/-- Each clause of the checks: lengths 65, 3 and 8, a header length above the room, one that does not match the entry count, a bad
entry of each kind, a sum above COUNT_MAX, a payload above and at PAYLOAD_CAP. -/
theorem witness_DeserializeChecksInOrder :
    blank.caps.inByte < { blank with inByteLen := 65 }.inByteLen.toNat ∧
    (withBytes [0, 0, 0] blank).inByteLen.toNat < 4 ∧
    (withBytes [0, 0, 0, 5, 0, 0, 0, 0] blank).inByteLen.toNat - 4 <
      fieldAt (withBytes [0, 0, 0, 5, 0, 0, 0, 0] blank).inBytes 0 ∧
    fieldAt (withBytes [0, 0, 0, 3, 0, 0, 0] blank).inBytes 0 < 4 ∧
    fieldAt [0, 0, 0, 0x0C, 0, 0, 0, 2, 0, 0, 0, 0x61, 0, 0, 0, 1] 0 ≠
      4 + 8 * fieldAt [0, 0, 0, 0x0C, 0, 0, 0, 2, 0, 0, 0, 0x61, 0, 0, 0, 1] 4 ∧
    symMax < fieldAt [0, 0, 0, 0x0C, 0, 0, 0, 1, 0, 0x11, 0, 0, 0, 0, 0, 1] (8 + 8 * 0) ∧
    fieldAt [0, 0, 0, 0x14, 0, 0, 0, 2, 0, 0, 0, 0x62, 0, 0, 0, 1, 0, 0, 0, 0x61, 0, 0, 0, 1] (8 + 8 * 1) ≤
      fieldAt [0, 0, 0, 0x14, 0, 0, 0, 2, 0, 0, 0, 0x62, 0, 0, 0, 1, 0, 0, 0, 0x61, 0, 0, 0, 1] (8 * 1) ∧
    fieldAt [0, 0, 0, 0x0C, 0, 0, 0, 1, 0, 0, 0, 0x61, 0, 0, 0, 0] (12 + 8 * 0) = 0 ∧
    countMax < countSum [⟨0x61, 0xFFFFFFFF⟩, ⟨0x62, 1⟩] ∧
    fieldAt abc.inBytes 0 = 4 + 8 * fieldAt abc.inBytes 4 ∧
    (List.range 3).map (fun i => (⟨fieldAt abc.inBytes (8 + 8 * i), fieldAt abc.inBytes (12 + 8 * i)⟩ : FtEntry)) = abcFt ∧
    countSum abcFt ≤ countMax ∧
    { abc with caps := ⟨16, 64, 64, 16, 2⟩ }.caps.payload < abc.inByteLen.toNat - 4 - fieldAt abc.inBytes 0 ∧
    abc.inByteLen.toNat - 4 - fieldAt abc.inBytes 0 ≤ { abc with caps := ⟨16, 64, 64, 16, 3⟩ }.caps.payload := by
  decide +kernel

theorem witness_ContainersReadBackExactly :
    (FreqTable.wf abcFt ∧ abc.inBytes = containerBytes abcFt [0x06, 0xB5, 0x80] ∧ abc.inByteLen.toNat ≤ abc.caps.inByte ∧
      [0x06, 0xB5, 0x80].length ≤ abc.caps.payload) ∧
    ∃ t, exec .contDeserialize abc = .next t ∧ t.status.err = false :=
  ⟨by decide +kernel, _, rfl, by decide +kernel⟩

theorem witness_PayloadCheckComparesTheImpliedLength :
    (blank.ft = none ∨ blank.ct = none ∨ blank.payload = none) ∧
    (abc.ft = some abcFt ∧ abc.ct = some abcCt ∧ abc.payload = some [0x06, 0xB5, 0x80]) ∧ abc.Inv ∧
    CodesOf abcCt (abcFt.map FtEntry.sym) [[true, false], [true, true], [false]] ∧
    3 = (8 + ((abcFt.zip [[true, false], [true, true], [false]]).map (fun x => x.1.count * x.2.length)).sum + 7) / 8 ∧
    [0x06, 0xB5].length < 3 ∧ 3 ≤ [0x06, 0xB5, 0x80].length :=
  ⟨by decide, by decide, abc_inv, .cons rfl (.cons rfl (.cons rfl .nil)), by decide, by decide, by decide⟩

/-- Each clause: a missing register; an empty payload; padding counts 9 and 8 with 16 data bits; padding 6 of 16 (nothing left over,
OUT_SYM_CAP exactly met and exceeded by one); padding 7 with the bit "1" left over; padding 8 with 8 data bits. -/
theorem witness_BitUnpackDecodesThePayload :
    (blank.ct = none ∨ blank.payload = none) ∧ abc.ct = some abcCt ∧ abc.Inv ∧
    { abc with payload := some [] }.payload = some [] ∧
    (¬ (((9 : Byte).toNat ≤ 7 ∧ (9 : Byte).toNat ≤ 8) ∨ ((9 : Byte).toNat = 8 ∧ 8 = 8)) ∧
      ¬ (((8 : Byte).toNat ≤ 7 ∧ (8 : Byte).toNat ≤ 16) ∨ ((8 : Byte).toNat = 8 ∧ 16 = 8))) ∧
    (((6 : Byte).toNat ≤ 7 ∧ (6 : Byte).toNat ≤ 16) ∧ ((8 : Byte).toNat = 8 ∧ 8 * [(0 : Byte)].length = 8)) ∧
    (abc.payload = some [0x06, 0xB5, 0x80] ∧
      CodesOf abcCt abcText abcCodes ∧
      ([(0xB5 : Byte), 0x80].flatMap bits8).take (16 - 6) =
        abcCodes.flatten ++ []) ∧
    (abcText.length ≤ { abc with caps := ⟨16, 64, 64, 6, 32⟩ }.caps.outSym ∧
      { abc with caps := ⟨16, 64, 64, 5, 32⟩ }.caps.outSym < abcText.length) ∧
    (([(0xB5 : Byte)].flatMap bits8).take (8 - 7) = ([] : List Bits).flatten ++ [true] ∧ CodesOf abcCt [] [] ∧
      [true] ≠ [] ∧ ∀ e ∈ abcCt, ¬ e.code <+: [true]) :=
  ⟨by decide, rfl, abc_inv, rfl, by decide, by decide, ⟨rfl, abc_codes, by decide⟩, by decide,
    by decide, .nil, by decide, by decide⟩

theorem witness_UnpackReversesPack :
    abc.Inv ∧ (∃ t, exec .bitPack abc = .next t ∧ t.status.err = false ∧ { abc with outSyms := none }.payload = t.payload) ∧
    { abc with outSyms := none }.ct = abc.ct ∧ abc.inSymLen.toNat ≤ abc.caps.outSym :=
  ⟨abc_inv, ⟨_, rfl, by decide +kernel, by decide +kernel⟩, rfl, by decide⟩

/-- All five steps succeed; and a first step fails with nothing before it. -/
theorem witness_CompositesRunTheirStepsInOrder :
    (∃ t, succeedInTurn (compositeSteps .compress) (withSyms abcText blank) t) ∧
    (∃ t, succeedInTurn (compositeSteps .decompress) (withBytes abcContainer blank) t) ∧
    compositeSteps .decompress = [] ++ .contDeserialize :: [.treeBuild, .codeDerive, .payloadCheck, .bitUnpack] ∧
    succeedInTurn [] blank blank ∧ ∃ v, exec .contDeserialize blank = .next v ∧ v.status.err = true :=
  ⟨⟨_, _, rfl, by decide +kernel, _, rfl, by decide +kernel, _, rfl, by decide +kernel, _, rfl, by decide +kernel, _, rfl,
      by decide +kernel, rfl⟩,
    ⟨_, _, rfl, by decide +kernel, _, rfl, by decide +kernel, _, rfl, by decide +kernel, _, rfl, by decide +kernel, _, rfl,
      by decide +kernel, rfl⟩,
    rfl, rfl, _, rfl, by decide +kernel⟩

theorem witness_CompressWritesTheContainer :
    abcFt = freqTable abc.inSyms ∧ abcCt = deriveCodes (build abcFt) ∧ 1 ≤ abc.inSymLen.toNat ∧
    abc.inSymLen.toNat ≤ abc.caps.inSym ∧ (∀ i < abc.inSymLen.toNat, abc.inSym i ≤ symMax) ∧
    CodesOf abcCt abc.inSyms abcCodes ∧ abcCodes.flatten.length = 10 ∧
    (8 + 10 + 6) / 8 ≤ abc.caps.payload ∧ 8 + 8 * abcFt.length + (8 + 10 + 6) / 8 ≤ abc.caps.outByte :=
  ⟨by decide +kernel, by decide +kernel, by decide, by decide, by decide +kernel, abc_inSyms ▸ abc_codes, by decide, by decide,
    by decide⟩

theorem witness_DecompressReadsTheContainer :
    FreqTable.wf abcFt ∧ abcFt ≠ [] ∧ abcCt = deriveCodes (build abcFt) ∧
    abc.inBytes = containerBytes abcFt (0x06 :: [0xB5, 0x80]) ∧ abc.inByteLen.toNat ≤ abc.caps.inByte ∧
    [(0xB5 : Byte), 0x80].length + 1 ≤ abc.caps.payload ∧ expectedBytes abcFt abcCt ≤ [(0xB5 : Byte), 0x80].length + 1 ∧
    ((6 : Byte).toNat ≤ 7 ∧ (6 : Byte).toNat ≤ 16) ∧
    CodesOf abcCt abcText abcCodes ∧
    ([(0xB5 : Byte), 0x80].flatMap bits8).take (16 - (6 : Byte).toNat) = abcCodes.flatten ∧
    abcText.length ≤ abc.caps.outSym :=
  ⟨by decide, by decide, by decide +kernel, by decide +kernel, by decide, by decide, by decide, by decide, abc_codes, by decide,
    by decide⟩

theorem witness_CompositesFailOnlyAsListed :
    (∃ t, exec .compress blank = .next t ∧ t.status.err = true) ∧ ∃ t, exec .decompress blank = .next t ∧ t.status.err = true :=
  ⟨⟨_, rfl, by decide +kernel⟩, _, rfl, by decide +kernel⟩

theorem witness_CompressedContainersAreSelfDescribing :
    (∃ t, exec .compress abc = .next t ∧ t.status.err = false ∧ t.outBytes = some abcContainer) ∧
    abc.inBytes = abcContainer ∧ abc.inByteLen.toNat ≤ abc.caps.inByte :=
  ⟨⟨_, rfl, by decide +kernel, by decide +kernel⟩, by decide +kernel, by decide⟩

theorem witness_CompositesIgnoreOldWorkingRegisters :
    (abc.caps = { abc with ft := none, ct := none }.caps ∧ abc.inSymLen = { abc with ft := none, ct := none }.inSymLen ∧
      abc.inSyms = { abc with ft := none, ct := none }.inSyms) ∧
    (∃ t, exec .compress abc = .next t) ∧ (∃ t, exec .decompress { abc with ft := none, ct := none } = .next t) :=
  ⟨⟨rfl, rfl, rfl⟩, ⟨_, rfl⟩, _, rfl⟩

theorem witness_DecompressReversesCompress :
    abc.caps.wf ∧ 1 ≤ abc.inSymLen.toNat ∧ abc.inSymLen.toNat ≤ abc.caps.outSym ∧
    (∃ t, exec .compress abc = .next t ∧ t.status.err = false ∧ t.outBytes = some abcContainer) ∧
    (withBytes abcContainer blank).caps = abc.caps ∧ (withBytes abcContainer blank).inBytes = abcContainer ∧
    abcContainer.length ≤ (withBytes abcContainer blank).caps.inByte :=
  ⟨by decide, by decide, by decide, ⟨_, rfl, by decide +kernel, by decide +kernel⟩, rfl, by decide +kernel, by decide⟩

theorem witness_ResetMeetsTheInvariant : caps.wf ∧ Caps.wf ⟨1, 18, 18, 1, 2⟩ ∧
    Caps.wf ⟨2 ^ 26, 2 ^ 28, 2 ^ 28, 2 ^ 26, 2 ^ 28⟩ := by decide

theorem witness_StepKeepsTheInvariant : abc.Inv ∧ aaaa.Inv := ⟨abc_inv, aaaa_inv⟩


theorem witness_SoftResetKeepsOnlyTheRams : (1 : Word).getLsbD 0 = true := by decide

theorem witness_CtrlWritesControlTheFlags : (0xE : Word).getLsbD 0 = false ∧ (0xF : Word).getLsbD 0 = true := by decide

theorem witness_CmdWritesAreAcceptedWhenIdle : blank.phase = .idle ∧ (busy 1 blank).phase ≠ .idle := by decide

/-- Each clause, at the ends of its address range; and a step that clears BUSERR. -/
theorem witness_IneffectiveAccessesOnlySetBusErr :
    (0x02 : Word).toNat % 4 ≠ 0 ∧ deadAddress caps (0x0C : Word).toNat ∧ deadAddress caps (0x10000040 : Word).toNat ∧
    deadAddress caps (0x20000040 : Word).toNat ∧ deadAddress caps (0xFFFFFFFC : Word).toNat ∧
    (0x5C ≤ (0x5C : Word).toNat ∧ (0x5C : Word).toNat % 4 = 0) ∧ (0x0FFFFFFC : Word).toNat < 0x10000000 ∧
    0x90000000 ≤ (0x90000000 : Word).toNat ∧ blank.phase = .idle ∧
    ({ blank.setBusErr with bus := [.write 4 8] }.status.busErr = true ∧
      ∃ t, step { blank.setBusErr with bus := [.write 4 8] } = .next t ∧ t.status.busErr = false) := by
  refine ⟨by decide, ?_, ?_, ?_, ?_, by decide, by decide, by decide, by decide, by decide, _, rfl, by decide⟩ <;>
    simp only [deadAddress] <;> decide

/-- Each clause, at the ends of its address range, with a word partly beyond IN_BYTE_CAP and the first ineffective word after an
input RAM; and a step that clears OVERRUN. -/
theorem witness_BusyEngineRefusesWrites :
    (busy 1 blank).phase ≠ .idle ∧ (0x1C : Word).toNat ∈ [0x08, 0x18, 0x1C] ∧
    (0x10000000 ≤ (0x1000003C : Word).toNat ∧ (0x1000003C : Word).toNat < 0x10000000 + 4 * (busy 1 blank).caps.inSym) ∧
    (0x20000000 ≤ (0x2000003C : Word).toNat ∧ (0x2000003C : Word).toNat < 0x20000000 + (busy 1 blank).caps.inByte) ∧
    ({ busy 1 blank with caps := ⟨16, 18, 18, 16, 32⟩ }.phase ≠ .idle ∧ 0x20000000 ≤ (0x20000010 : Word).toNat ∧
      (0x20000010 : Word).toNat < 0x20000000 + { busy 1 blank with caps := ⟨16, 18, 18, 16, 32⟩ }.caps.inByte) ∧
    (0x1D : Word).toNat % 4 ≠ 0 ∧ deadAddress (busy 1 blank).caps (0x10000040 : Word).toNat ∧
    (blank.setOverrun.status.overrun = true ∧
      ∃ t, step { blank.setOverrun with bus := [.write 4 8] } = .next t ∧ t.status.overrun = false) := by
  refine ⟨by decide, by decide, by decide, by decide, by decide, by decide, ?_, by decide, _, rfl, by decide⟩
  simp only [deadAddress]
  decide

theorem witness_BusyReadsOfResultsAreDraws :
    (busy 1 blank).phase ≠ .idle ∧ (0x40 : Word).toNat % 4 = 0 ∧ unspecifiedWhileBusy (0x40 : Word).toNat ∧
    unspecifiedWhileBusy (0x8FFFFFFC : Word).toNat ∧ ¬ unspecifiedWhileBusy (0x44 : Word).toNat ∧
    ¬ unspecifiedWhileBusy (0x0C : Word).toNat ∧ ¬ unspecifiedWhileBusy (0x2FFFFFFC : Word).toNat ∧
    (¬ unspecifiedWhileBusy (0x5C : Word).toNat ∧ ¬ unspecifiedWhileBusy (0x90000000 : Word).toNat ∧
      (0x5C : Word).toNat % 4 = 0 ∧ (0x90000000 : Word).toNat % 4 = 0) := by
  refine ⟨by decide, by decide, ?_, ?_, ?_, ?_, ?_, ?_, ?_, by decide, by decide⟩ <;> simp only [unspecifiedWhileBusy] <;> decide

/-- The last word in range and the first beyond. -/
theorem witness_InSymsWindowHoldsTheSymbols :
    (15 < 2 ^ 26 ∧ (0x1000003C : Word) = BitVec.ofNat 32 (0x10000000 + 4 * 15) ∧ 15 < blank.caps.inSym ∧
      blank.phase = .idle) ∧
    16 < 2 ^ 26 ∧ (0x10000040 : Word) = BitVec.ofNat 32 (0x10000000 + 4 * 16) ∧ blank.caps.inSym ≤ 16 := by decide

/-- A last word of which only two bytes are in range, and the first word beyond. -/
theorem witness_InBytesWindowIsBigEndian :
    (4 < 2 ^ 26 ∧ (0x20000010 : Word) = BitVec.ofNat 32 (0x20000000 + 4 * 4) ∧
      4 * 4 < { blank with caps := ⟨16, 18, 18, 16, 32⟩ }.caps.inByte ∧
      4 * 4 + 1 < { blank with caps := ⟨16, 18, 18, 16, 32⟩ }.caps.inByte ∧
      { blank with caps := ⟨16, 18, 18, 16, 32⟩ }.phase = .idle) ∧
    (∃ byte : Nat → Byte,
      ∀ j, byte j = if 4 * 4 + j < blank.caps.inByte then blank.ramByte (0x20000000 + 4 * 4 + j) else 0) ∧
    (5 < 2 ^ 26 ∧ { blank with caps := ⟨16, 18, 18, 16, 32⟩ }.caps.inByte ≤ 4 * 5) :=
  ⟨by decide, ⟨_, fun _ => rfl⟩, by decide⟩

theorem witness_OutputWindowsShowTheirRegisters :
    8 < 2 ^ 26 ∧ abc.outBytes = some abcContainer ∧ abc.payload = some [0x06, 0xB5, 0x80] ∧ abc.outSyms = some abcText ∧
    blank.outBytes = none ∧ blank.payload = none ∧ blank.outSyms = none := by decide

/-- A first and a last entry of each table, and the index after it. -/
theorem witness_TableWindowsShowTheirRegisters :
    (abc.ft = some abcFt ∧ abcFt[0]? = some ⟨0x61, 2⟩ ∧ abcFt[2]? = some ⟨0x63, 2⟩ ∧ abcFt.length ≤ 3) ∧
    (abc.tree = some ⟨abcTree.nodes, 4⟩ ∧ abcTree.nodes[0]? = some (.leaf 0x61 2) ∧
      abcTree.nodes[4]? = some (.internal 6 2 3) ∧ abcTree.nodes.length ≤ 5) ∧
    (abc.ct = some abcCt ∧ abcCt[2]? = some ⟨0x63, [false]⟩ ∧ abcCt.length ≤ 3) ∧
    blank.ft = none ∧ blank.tree = none ∧ blank.ct = none := by decide

theorem witness_LengthRegistersReportSizes :
    blank.phase = .idle ∧ blank.caps.inSym < (0xFFFFFFFF : Word).toNat ∧
    abc.Inv ∧ abc.outBytes = some abcContainer ∧ abc.outSyms = some abcText ∧ abc.payload = some [0x06, 0xB5, 0x80] ∧
    abc.ft = some abcFt ∧ abc.tree = some abcTree ∧ aaaa.Inv ∧ aaaa.outBytes = none ∧ aaaa.outSyms = none :=
  ⟨rfl, by decide, abc_inv, rfl, rfl, rfl, rfl, rfl, aaaa_inv, rfl, rfl⟩

theorem witness_StatusPadAndPbitsReadAsLaidOut : abc.Inv := abc_inv

theorem witness_ConstantRegistersNeverChange :
    blank.caps.wf ∧ Caps.wf ⟨2 ^ 26, 2 ^ 28, 2 ^ 28, 2 ^ 26, 2 ^ 28⟩ ∧ ∃ t, step blank = .next t :=
  ⟨by decide, by decide, _, rfl⟩

theorem witness_IrqFollowsDoneAndEnable :
    (∃ t, exec .nop blank = .next t) ∧ (1 : Word).getLsbD 0 = true ∧ (4 : Word).getLsbD 2 = true ∧
    (2 : Word).getLsbD 1 = true ∧
    ((8 : Word).getLsbD 0 = false ∧ (8 : Word).getLsbD 1 = false ∧ (8 : Word).getLsbD 2 = false) ∧ blank.phase = .idle ∧
    (failedState.status.done = true ∧
      (∃ t, step { failedState with bus := [.write 4 4] } = .next t ∧ t.status.done = false) ∧
      ∃ t, step { failedState with bus := [.write 8 0] } = .next t ∧ t.status.done = false) ∧
    (busy 0 blank).status.done = false ∧ ∃ t, step (busy 0 blank) = .next t ∧ t.status.done = true :=
  ⟨⟨_, rfl⟩, by decide, by decide, by decide, by decide, by decide,
    ⟨by decide, ⟨_, rfl, by decide⟩, _, rfl, by decide⟩, by decide, _, rfl, by decide⟩

/-- A write of an input word while BUSY, and a soft reset while BUSY. -/
theorem witness_InputsCannotChangeUnderACommand :
    ({ busy 1 blank with latency := 1, bus := [.write 0x10000000 5] }.phase = .busy 1 0 ∧
      { busy 1 blank with latency := 1, bus := [.write 0x10000000 5] }.engineTurn = false ∧
      ∃ t, step { busy 1 blank with latency := 1, bus := [.write 0x10000000 5] } = .next t) ∧
    { busy 1 blank with latency := 1, bus := [.write 4 1] }.engineTurn = false :=
  ⟨⟨by decide, by decide, _, rfl⟩, by decide⟩

theorem witness_RacingWriteHasBothOutcomes :
    { busy 0x10 abc with bus := [.write (BitVec.ofNat 32 (0x10000000 + 4 * 15)) 0x7A] }.caps.wf ∧
    { busy 0x10 abc with bus := [.write (BitVec.ofNat 32 (0x10000000 + 4 * 15)) 0x7A] }.phase = .busy 0x10 0 ∧
    decode 0x10 = .ok .compress ∧ 15 < abc.caps.inSym ∧
    ∃ r, exec .compress { busy 0x10 abc with bus := [.write (BitVec.ofNat 32 (0x10000000 + 4 * 15)) 0x7A] } = .next r :=
  ⟨by decide, by decide, by decide, by decide, _, rfl⟩

/-- An empty and a full buffer. -/
theorem witness_LoadScriptsFillTheInputs :
    blank.caps.wf ∧ blank.phase = .idle ∧ ([] : List Word).length ≤ blank.caps.inSym ∧
    (List.replicate 16 (0x61 : Word)).length ≤ blank.caps.inSym ∧
    (List.replicate 64 (0x61 : Byte)).length ≤ blank.caps.inByte := by decide

end Sys2Proof.Tests
end

/-! PROOFS of the family `10_state.md`: the registers of R32 to R39 as the host reads and writes them. -/

namespace Sys2Proof.Machine

/-! One register access (R32): what a read and an effective write of a register's address do. -/

/-- A read of a register's address gives that register's value. -/
theorem busValue_reg (s : State) {a : Word} {r : HostReg} (h : regAt a.toNat = some r) : s.busValue a = s.readReg r := by
  have hlt : a.toNat < 0x5C := by
    by_contra hge
    rw [regAt_none (by omega)] at h
    cases h
  have hregs : regionOf a = .regs := (regionOf_regs_iff a).2 (by omega)
  have hoff : windowOffset a = a.toNat := Nat.mod_eq_of_lt (by omega)
  simp [State.busValue, hregs, hoff, h]

/-- The four writable registers take writes (R32). -/
theorem writeEffective_reg (s : State) {a : Word} (h : a.toNat = 0x04 ∨ a.toNat = 0x08 ∨ a.toNat = 0x18 ∨ a.toNat = 0x1C) :
    s.writeEffective a = true :=
  (writeEffective_iff s a).2 ⟨by omega, .inl h⟩

/-- CTRL is written in either phase (R33). -/
theorem busWrite_ctrl (s : State) {a : Word} (v : Word) (hc : isCtrl a = true) : s.busWrite a v = s.writeCtrl v := by
  have he : s.writeEffective a = true := writeEffective_reg s (.inl ((isCtrl_iff a).1 hc))
  simp [State.busWrite, he, hc]

/-- An effective write in IDLE to an address that is not CTRL's. -/
theorem busWrite_idle {s : State} {a : Word} (v : Word) (hp : s.phase = .idle) (he : s.writeEffective a = true)
    (hc : isCtrl a = false) : s.busWrite a v = s.writeIdle a v := by
  simp [State.busWrite, he, hc, (isBusy_eq_false_iff s).2 hp]

theorem busWrite_inSymLen {s : State} (v : Word) (hp : s.phase = .idle) :
    s.busWrite 0x18 v = { s with inSymLen := v } :=
  busWrite_idle v hp (writeEffective_reg s (by decide)) (by decide)

theorem busWrite_inByteLen {s : State} (v : Word) (hp : s.phase = .idle) :
    s.busWrite 0x1C v = { s with inByteLen := v } :=
  busWrite_idle v hp (writeEffective_reg s (by decide)) (by decide)

/-! CTRL (R33). -/

theorem ctrlWord_eq (s : State) : s.ctrlWord = if s.irqEn then 2 else 0 := by
  unfold State.ctrlWord
  cases s.irqEn <;> decide

/-- Settles O44: the two cases of a CTRL write, and CTRL's read. -/
theorem ctrlWritesControlTheFlags : Obligations.CtrlWritesControlTheFlags := by
  intro s v
  rw [busWrite_ctrl s v (by decide), busValue_reg s (r := .ctrl) rfl]
  refine ⟨fun h0 => ?_, fun h0 => ?_, ctrlWord_eq s⟩
  · rcases writeCtrl_cases s v with ⟨h1, _⟩ | ⟨_, e⟩
    · rw [h0] at h1; cases h1
    · simpa [Bool.and_comm] using e
  · rcases writeCtrl_cases s v with ⟨_, e⟩ | ⟨h1, _⟩
    · exact e
    · rw [h0] at h1; cases h1

/-! VALID (R21, R37). -/

theorem WorkReg.bit_lt (r : WorkReg) : r.bit < 6 := by cases r <;> decide

/-- A working register's mask has its own VALID bit and no other. -/
theorem WorkReg.mask_getLsbD (r : WorkReg) (k : Nat) : r.mask.getLsbD k = (r.bit == k) := by
  have := r.bit_lt
  rw [WorkReg.mask, ← BitVec.twoPow_eq, BitVec.getLsbD_twoPow, decide_eq_true (by omega), Bool.true_and]
  rfl

/-- A mask of VALID bits has the bits of its registers. -/
theorem maskOf_getLsbD (rs : List WorkReg) (k : Nat) : (maskOf rs).getLsbD k = rs.any (·.bit == k) := by
  have fold : ∀ m : Word, (rs.foldl (fun m r => m ||| r.mask) m).getLsbD k = (m.getLsbD k || rs.any (·.bit == k)) := by
    induction rs with
    | nil => simp
    | cons r rs ih => intro m; simp [ih, WorkReg.mask_getLsbD, Bool.or_assoc]
  simp [maskOf, fold]

/-- Bit k of VALID: some register with that VALID bit holds a value. -/
theorem validWord_getLsbD (s : State) (k : Nat) : s.validWord.getLsbD k =
    [WorkReg.ft, .tree, .ct, .payload, .outBytes, .outSyms].any (fun r => s.holds r && r.bit == k) := by
  rw [State.validWord, maskOf_getLsbD, List.any_filter]

theorem validWord_getLsbD_bit (s : State) (r : WorkReg) : s.validWord.getLsbD r.bit = s.holds r := by
  rw [validWord_getLsbD]
  cases r <;> simp [WorkReg.bit]

theorem validWord_getLsbD_reserved (s : State) {k : Nat} (hk : 6 ≤ k) : s.validWord.getLsbD k = false := by
  rw [validWord_getLsbD, List.any_eq_false]
  intro r _
  have := r.bit_lt
  simp; omega

/-- Settles O53: each working register's own bit, and no bit above them. -/
theorem validShowsWhichRegistersHold : Obligations.ValidShowsWhichRegistersHold := by
  intro s
  rw [busValue_reg s (r := .valid) rfl]
  have bit : ∀ r, s.validWord.getLsbD r.bit = s.holds r := validWord_getLsbD_bit s
  exact ⟨bit .ft, bit .tree, bit .ct, bit .payload, bit .outBytes, bit .outSyms,
    fun _ hk => validWord_getLsbD_reserved s hk⟩

/-! The constant registers (R35). -/

/-- Every legal capacity fits a register. -/
theorem caps_lt_of_wf {c : Caps} (h : c.wf) :
    c.inSym < 2 ^ 32 ∧ c.inByte < 2 ^ 32 ∧ c.outByte < 2 ^ 32 ∧ c.outSym < 2 ^ 32 ∧ c.payload < 2 ^ 32 := by
  unfold Caps.wf at h
  omega

theorem exec_caps {i : Instr} {s t : State} (h : exec i s = .next t) : t.caps = s.caps := by
  rcases exec_cases i s with ⟨u, hu, hx⟩ | ⟨f, _, hx⟩ <;> rw [hx] at h <;> injection h with h <;> subst h
  · exact (resultOf_sameBut hu).caps
  · exact (discarded_sameBut s i).caps

theorem step_caps {s t : State} (h : step s = .next t) : t.caps = s.caps := by
  rcases step_cases s with ⟨_, e⟩ | ⟨_, _, _, _, e⟩ | ⟨_, _, i, _, _, _, e⟩ | ⟨_, _, _, _, _, _, e⟩ <;> rw [e] at h
  · injection h with h; subst h; exact hostStep_caps s
  · injection h with h; subst h; exact hostStep_caps s.tick
  · exact exec_caps h
  · injection h with h; subst h; rfl

/-- Settles O56: the constants read as written, and no step changes a capacity. -/
theorem constantRegistersNeverChange : Obligations.ConstantRegistersNeverChange := by
  refine ⟨fun s => ⟨busValue_reg s (r := .id) rfl, busValue_reg s (r := .symMax) rfl, fun hw => ?_⟩,
    fun s t => step_caps⟩
  rw [busValue_reg s (r := .capInSym) rfl, busValue_reg s (r := .capInByte) rfl, busValue_reg s (r := .capOutByte) rfl,
    busValue_reg s (r := .capOutSym) rfl, busValue_reg s (r := .capPayload) rfl]
  obtain ⟨h1, h2, h3, h4, h5⟩ := caps_lt_of_wf hw
  exact ⟨toNat_ofNat_of_lt h1, toNat_ofNat_of_lt h2, toNat_ofNat_of_lt h3, toNat_ofNat_of_lt h4, toNat_ofNat_of_lt h5⟩

/-! The length registers (R39): under the invariant every size fits 32 bits. -/

/-- A register showing an optional list's length shows it exactly when the list's length fits 32 bits. -/
theorem lengthWord_reports {α : Type} {x : Option (List α)} (hb : ∀ l, x = some l → l.length < 2 ^ 32) :
    (∀ l, x = some l → (BitVec.ofNat 32 (x.getD []).length).toNat = l.length) ∧
    (x = none → BitVec.ofNat 32 (x.getD []).length = 0) := by
  constructor
  · rintro l rfl
    exact toNat_ofNat_of_lt (hb l rfl)
  · rintro rfl
    rfl

section
variable {s : State} (h : s.Inv)
include h

theorem State.Inv.outBytes_length_lt {l : List Byte} (hl : s.outBytes = some l) : l.length < 2 ^ 32 := by
  have := h.outBytes l hl
  have := caps_lt_of_wf h.caps
  omega

theorem State.Inv.outSyms_length_lt {l : List Nat} (hl : s.outSyms = some l) : l.length < 2 ^ 32 := by
  have := (h.outSyms l hl).1
  have := caps_lt_of_wf h.caps
  omega

theorem State.Inv.payload_length_lt {l : List Byte} (hl : s.payload = some l) : l.length < 2 ^ 32 := by
  have := h.payload l hl
  have := caps_lt_of_wf h.caps
  omega

/-- A table has at most one entry a symbol (R23). -/
theorem State.Inv.ft_length_le {ft : FreqTable} (hf : s.ft = some ft) : ft.length ≤ symMax + 1 := by
  obtain ⟨hsym, hord, _⟩ := h.ft ft hf
  exact length_le_symMax hord hsym

/-- A tree of N leaves has 2N - 1 nodes, the last of them the root (R24). -/
theorem State.Inv.tree_size {t : Tree} (ht : s.tree = some t) : t.root = t.nodes.length - 1 ∧ t.nodes.length < 2 ^ 32 := by
  obtain ⟨ft, hf, hne, rfl⟩ := h.tree t ht
  have hroot := build_root hne
  have hlen := build_length hne
  have hle := h.ft_length_le hf
  unfold symMax at hle
  omega

end

theorem treeRegs_report {s : State} (h : s.Inv) {t : Tree} (ht : s.tree = some t) :
    (s.readReg .treeNodes).toNat = t.nodes.length ∧ (s.readReg .treeRoot).toNat = t.nodes.length - 1 := by
  obtain ⟨hroot, hlt⟩ := h.tree_size ht
  simp only [State.readReg, ht, Option.map_some, Option.getD_some]
  exact ⟨toNat_ofNat_of_lt hlt, by rw [toNat_ofNat_of_lt (by omega), hroot]⟩

theorem treeRegs_none {s : State} (ht : s.tree = none) : s.readReg .treeNodes = 0 ∧ s.readReg .treeRoot = 0 := by
  simp [State.readReg, ht]

/-- Settles O54: the input length registers are the host's own words, and the sizes the others show fit 32 bits. -/
theorem lengthRegistersReportSizes : Obligations.LengthRegistersReportSizes := by
  refine ⟨fun s v hp => ⟨busWrite_inSymLen v hp, busWrite_inByteLen v hp⟩,
    fun s => ⟨busValue_reg s (r := .inSymLen) rfl, busValue_reg s (r := .inByteLen) rfl⟩, fun s h => ?_⟩
  rw [busValue_reg s (r := .outByteLen) rfl, busValue_reg s (r := .outSymLen) rfl, busValue_reg s (r := .payloadLen) rfl,
    busValue_reg s (r := .ftN) rfl, busValue_reg s (r := .treeNodes) rfl, busValue_reg s (r := .treeRoot) rfl]
  obtain ⟨outBytes, noOutBytes⟩ := lengthWord_reports fun _ => h.outBytes_length_lt
  obtain ⟨outSyms, noOutSyms⟩ := lengthWord_reports fun _ => h.outSyms_length_lt
  obtain ⟨payload, noPayload⟩ := lengthWord_reports fun _ => h.payload_length_lt
  obtain ⟨ft, noFt⟩ := lengthWord_reports fun ft hf =>
    Nat.lt_of_le_of_lt (h.ft_length_le (ft := ft) hf) (by decide : symMax + 1 < 2 ^ 32)
  exact ⟨outBytes, noOutBytes, outSyms, noOutSyms, payload, noPayload, ft, noFt, fun _ => treeRegs_report h,
    treeRegs_none⟩

end Sys2Proof.Machine

/-! PROOFS of the family `20_memory.md`: the data windows of R61 to R68 as the host reads and writes them. -/

namespace Sys2Proof.Machine

/-! One word of a window (R61): the address of word w lies in the window of its base, and a read of it shows the
window's word w. -/

theorem window_of_base {base w : Nat} {r : Region} (hr : regionOf (BitVec.ofNat 32 base) = r)
    (hb : base % 2 ^ 28 = 0 ∧ base < 2 ^ 32) (hw : w < 2 ^ 26) :
    regionOf (BitVec.ofNat 32 (base + 4 * w)) = r ∧ windowOffset (BitVec.ofNat 32 (base + 4 * w)) / 4 = w := by
  obtain ⟨h28, h32⟩ := hb
  constructor
  · have hdiv : (base + 4 * w) / 2 ^ 28 = base / 2 ^ 28 := by omega
    unfold regionOf at hr ⊢
    rwa [toNat_ofNat_of_lt (by omega), hdiv, ← toNat_ofNat_of_lt h32]
  · rw [windowOffset_ofNat h28 (by omega) (by omega)]
    omega

section
variable (s : State) {k : Nat} (hk : k < 2 ^ 26)
include hk

theorem busValue_inSyms : s.busValue (BitVec.ofNat 32 (0x10000000 + 4 * k)) = s.inSymsWord k := by
  obtain ⟨hr, hw⟩ := window_of_base (base := 0x10000000) (r := .inSyms) rfl (by decide) hk
  simp only [State.busValue, hr, hw]

theorem busValue_outBytes :
    s.busValue (BitVec.ofNat 32 (0x30000000 + 4 * k)) = byteListWord (s.outBytes.getD []) k := by
  obtain ⟨hr, hw⟩ := window_of_base (base := 0x30000000) (r := .outBytes) rfl (by decide) hk
  simp only [State.busValue, hr, hw]

theorem busValue_outSyms :
    s.busValue (BitVec.ofNat 32 (0x40000000 + 4 * k)) = BitVec.ofNat 32 ((s.outSyms.getD []).getD k 0) := by
  obtain ⟨hr, hw⟩ := window_of_base (base := 0x40000000) (r := .outSyms) rfl (by decide) hk
  simp only [State.busValue, hr, hw]

theorem busValue_payload :
    s.busValue (BitVec.ofNat 32 (0x50000000 + 4 * k)) = byteListWord (s.payload.getD []) k := by
  obtain ⟨hr, hw⟩ := window_of_base (base := 0x50000000) (r := .payload) rfl (by decide) hk
  simp only [State.busValue, hr, hw]

end

/-- Word j of entry i of the FT window (R66). -/
theorem busValue_ft (s : State) {i j : Nat} (hi : i < 2 ^ 25) (hj : j < 2) :
    s.busValue (BitVec.ofNat 32 (0x60000000 + 8 * i + 4 * j)) = ((s.ft.getD [])[i]?.map (·.word j)).getD 0 := by
  obtain ⟨hr, hw⟩ := window_of_base (base := 0x60000000) (r := .ft) (w := 2 * i + j) rfl (by decide) (by omega)
  have haddr : 0x60000000 + 8 * i + 4 * j = 0x60000000 + 4 * (2 * i + j) := by omega
  have hidx : (2 * i + j) / 2 = i ∧ (2 * i + j) % 2 = j := by omega
  simp only [State.busValue, haddr, hr, hw, hidx]

/-- Word j of node i of the TREE window (R67). -/
theorem busValue_tree (s : State) {i j : Nat} (hi : i < 2 ^ 24) (hj : j < 4) :
    s.busValue (BitVec.ofNat 32 (0x70000000 + 16 * i + 4 * j)) =
      (((s.tree.map (·.nodes)).getD [])[i]?.map (·.word j)).getD 0 := by
  obtain ⟨hr, hw⟩ := window_of_base (base := 0x70000000) (r := .tree) (w := 4 * i + j) rfl (by decide) (by omega)
  have haddr : 0x70000000 + 16 * i + 4 * j = 0x70000000 + 4 * (4 * i + j) := by omega
  have hidx : (4 * i + j) / 4 = i ∧ (4 * i + j) % 4 = j := by omega
  simp only [State.busValue, haddr, hr, hw, hidx]

/-- Word j of entry i of the CT window (R68). -/
theorem busValue_ct (s : State) {i j : Nat} (hi : i < 2 ^ 24) (hj : j < 4) :
    s.busValue (BitVec.ofNat 32 (0x80000000 + 16 * i + 4 * j)) = ((s.ct.getD [])[i]?.map (·.word j)).getD 0 := by
  obtain ⟨hr, hw⟩ := window_of_base (base := 0x80000000) (r := .ct) (w := 4 * i + j) rfl (by decide) (by omega)
  have haddr : 0x80000000 + 16 * i + 4 * j = 0x80000000 + 4 * (4 * i + j) := by omega
  have hidx : (4 * i + j) / 4 = i ∧ (4 * i + j) % 4 = j := by omega
  simp only [State.busValue, haddr, hr, hw, hidx]

/-! The IN_SYMS window (R62). -/

theorem inSymsWord_of_lt {s : State} {i : Nat} (hi : i < s.caps.inSym) : s.inSymsWord i = s.ramWord (symAddr i) :=
  if_pos hi

theorem inSymsWord_of_le {s : State} {i : Nat} (hi : s.caps.inSym ≤ i) : s.inSymsWord i = 0 :=
  if_neg (Nat.not_lt.2 hi)

/-- A word stored in the RAMs reads back as it was written. -/
theorem ramWord_memStore_be32 (s : State) (a : Nat) (v : Word) :
    ({ s with mem := memStore s.mem a (be32 v.toNat) } : State).ramWord a = v := by
  apply BitVec.eq_of_toNat_eq
  calc
    _ = beVal (be32 v.toNat) := by simp [ramWord_toNat, ramByte_memStore, be32]
    _ = v.toNat := beVal_be32 v.isLt

/-- An IDLE write to an IN_SYMS word in range stores its four bytes at the word's own address. -/
theorem busWrite_inSyms {s : State} {i : Nat} (v : Word) (hi : i < 2 ^ 26) (hc : i < s.caps.inSym) (hp : s.phase = .idle) :
    s.busWrite (BitVec.ofNat 32 (0x10000000 + 4 * i)) v = { s with mem := memStore s.mem (symAddr i) (be32 v.toNat) } := by
  have haddr : (BitVec.ofNat 32 (0x10000000 + 4 * i)).toNat = symAddr i := toNat_ofNat_of_lt (by omega)
  have hr := (window_of_base (base := 0x10000000) (r := .inSyms) rfl (by decide) hi).1
  have he : s.writeEffective (BitVec.ofNat 32 (0x10000000 + 4 * i)) = true := by
    rw [writeEffective_iff, haddr]
    unfold symAddr
    omega
  rw [busWrite_ram s _ v hp he (by simp [hr])]
  simp only [State.writeRam, haddr, hr]
  rfl

/-- Settles O49: a word in range is the RAM's word, and a word beyond is dead. -/
theorem inSymsWindowHoldsTheSymbols : Obligations.InSymsWindowHoldsTheSymbols := by
  rintro s i _ v hi rfl
  refine ⟨fun hc => ⟨?_, fun hp => ?_⟩, fun hc => ⟨?_, busWrite_dead s _ v (.inr ?_)⟩⟩
  · rw [busValue_inSyms s hi, inSymsWord_of_lt hc]
    rfl
  · rw [busWrite_inSyms v hi hc hp, busValue_inSyms _ hi, inSymsWord_of_lt (by exact hc)]
    refine ⟨ramWord_memStore_be32 s (symAddr i) v, rfl, fun x hx => ?_⟩
    rw [ramByte_memStore, be32_length, if_neg (by unfold symAddr; omega)]
  · rw [busValue_inSyms s hi, inSymsWord_of_le hc]
  · rw [toNat_ofNat_of_lt (by omega)]
    unfold deadAddress
    omega

/-! The output windows (R64). -/

/-- What a window shows of a register that may be `none`. -/
theorem getD_nil_of_shown {α : Type} {x : Option (List α)} {l : List α} (h : x = some l ∨ (x = none ∧ l = [])) :
    x.getD [] = l := by
  rcases h with rfl | ⟨rfl, rfl⟩ <;> rfl

/-- Settles O51: each window shows its register's list, and the empty list for `none`. -/
theorem outputWindowsShowTheirRegisters : Obligations.OutputWindowsShowTheirRegisters := by
  intro s k hk
  refine ⟨fun l h => ?_, fun l h => ?_, fun l h => ?_⟩
  · rw [busValue_outBytes s hk, getD_nil_of_shown h]
    exact ofNat_beVal_eq_word4 ..
  · rw [busValue_payload s hk, getD_nil_of_shown h]
    exact ofNat_beVal_eq_word4 ..
  · rw [busValue_outSyms s hk, getD_nil_of_shown h]

/-! The table windows (R66 to R68). -/

section
variable {s : State} {i j : Nat}

theorem ftWindow_entry {ft : FreqTable} {e : FtEntry} (h : s.ft = some ft ∨ (s.ft = none ∧ ft = []))
    (hi : i < 2 ^ 25) (he : ft[i]? = some e) (hj : j < 2) :
    s.busValue (BitVec.ofNat 32 (0x60000000 + 8 * i + 4 * j)) = e.word j := by
  simp [busValue_ft s hi hj, getD_nil_of_shown h, he]

theorem ftWindow_beyond {ft : FreqTable} (h : s.ft = some ft ∨ (s.ft = none ∧ ft = [])) (hi : i < 2 ^ 25)
    (hl : ft.length ≤ i) (hj : j < 2) : s.busValue (BitVec.ofNat 32 (0x60000000 + 8 * i + 4 * j)) = 0 := by
  simp [busValue_ft s hi hj, getD_nil_of_shown h, hl]

theorem tree_nodes_of_shown {ns : List Node} (h : (∃ r, s.tree = some ⟨ns, r⟩) ∨ (s.tree = none ∧ ns = [])) :
    (s.tree.map (·.nodes)).getD [] = ns := by
  rcases h with ⟨r, h⟩ | ⟨h, rfl⟩ <;> rw [h] <;> rfl

theorem treeWindow_node {ns : List Node} {n : Node} (h : (∃ r, s.tree = some ⟨ns, r⟩) ∨ (s.tree = none ∧ ns = []))
    (hi : i < 2 ^ 24) (hn : ns[i]? = some n) (hj : j < 4) :
    s.busValue (BitVec.ofNat 32 (0x70000000 + 16 * i + 4 * j)) = n.word j := by
  simp [busValue_tree s hi hj, tree_nodes_of_shown h, hn]

theorem treeWindow_beyond {ns : List Node} (h : (∃ r, s.tree = some ⟨ns, r⟩) ∨ (s.tree = none ∧ ns = []))
    (hi : i < 2 ^ 24) (hl : ns.length ≤ i) (hj : j < 4) :
    s.busValue (BitVec.ofNat 32 (0x70000000 + 16 * i + 4 * j)) = 0 := by
  simp [busValue_tree s hi hj, tree_nodes_of_shown h, hl]

theorem ctWindow_entry {ct : CodeTable} {e : CodeEntry} (h : s.ct = some ct ∨ (s.ct = none ∧ ct = []))
    (hi : i < 2 ^ 24) (he : ct[i]? = some e) (hj : j < 4) :
    s.busValue (BitVec.ofNat 32 (0x80000000 + 16 * i + 4 * j)) = e.word j := by
  simp [busValue_ct s hi hj, getD_nil_of_shown h, he]

theorem ctWindow_beyond {ct : CodeTable} (h : s.ct = some ct ∨ (s.ct = none ∧ ct = [])) (hi : i < 2 ^ 24)
    (hl : ct.length ≤ i) (hj : j < 4) : s.busValue (BitVec.ofNat 32 (0x80000000 + 16 * i + 4 * j)) = 0 := by
  simp [busValue_ct s hi hj, getD_nil_of_shown h, hl]

end

/-- The two words of the code as a 64-bit number (R68). -/
theorem CodeEntry.word_code (e : CodeEntry) :
    e.word 2 = BitVec.ofNat 32 (codeNumber e.code / 2 ^ 32) ∧ e.word 3 = BitVec.ofNat 32 (codeNumber e.code % 2 ^ 32) := by
  rw [codeNumber_eq_bitsVal]
  exact ⟨rfl, BitVec.eq_of_toNat_eq (by simp [CodeEntry.word])⟩

/-- Settles O52: word by word, each table's entries, and 0 beyond them. -/
theorem tableWindowsShowTheirRegisters : Obligations.TableWindowsShowTheirRegisters := by
  intro s
  refine ⟨fun i hi ft h => ⟨fun e he => ?_, fun hl j => ftWindow_beyond h hi hl⟩,
    fun i hi ns h => ⟨fun x f hn => ?_, fun f l r hn => ?_, fun hl j => treeWindow_beyond h hi hl⟩,
    fun i hi ct h => ⟨fun e he => ?_, fun hl j => ctWindow_beyond h hi hl⟩⟩
  · have word : ∀ j < 2, s.busValue (BitVec.ofNat 32 (0x60000000 + 8 * i + 4 * j)) = e.word j :=
      fun _ => ftWindow_entry h hi he
    exact ⟨word 0 (by decide), word 1 (by decide)⟩
  · have word : ∀ j < 4, s.busValue (BitVec.ofNat 32 (0x70000000 + 16 * i + 4 * j)) = (Node.leaf x f).word j :=
      fun _ => treeWindow_node h hi hn
    exact ⟨word 0 (by decide), word 1 (by decide), word 2 (by decide), word 3 (by decide)⟩
  · have word : ∀ j < 4, s.busValue (BitVec.ofNat 32 (0x70000000 + 16 * i + 4 * j)) = (Node.internal f l r).word j :=
      fun _ => treeWindow_node h hi hn
    exact ⟨word 0 (by decide), word 1 (by decide), word 2 (by decide), word 3 (by decide)⟩
  · have word : ∀ j < 4, s.busValue (BitVec.ofNat 32 (0x80000000 + 16 * i + 4 * j)) = e.word j :=
      fun _ => ctWindow_entry h hi he
    obtain ⟨high, low⟩ := e.word_code
    exact ⟨word 0 (by decide), word 1 (by decide), (word 2 (by decide)).trans high, (word 3 (by decide)).trans low⟩

end Sys2Proof.Machine

/-! PROOFS of the family `30_encoding.md`: the fields of a command word, the words the decoder accepts and rejects, and
the completion of a rejected word. -/

namespace Sys2Proof

/-! The two fields of a command word (R90). -/

/-- A word is its field RSV before its field OPC. -/
theorem rsvField_append_opcField (w : Word) : rsvField w ++ opcField w = w := by
  exact (BitVec.extractLsb'_append_extractLsb'_eq_extractLsb' rfl).trans (BitVec.extractLsb'_eq_self)

theorem opcField_toNat (w : Word) : (opcField w).toNat = w.toNat % 256 := by
  simp [opcField]

theorem opcField_eq_ofNat (w : Word) : opcField w = BitVec.ofNat 8 (w.toNat % 256) := by
  rw [← opcField_toNat, BitVec.ofNat_toNat, BitVec.setWidth_eq]

theorem rsvField_eq_zero_iff (w : Word) : rsvField w = 0 ↔ w.toNat / 256 = 0 := by
  have hw := w.isLt
  have hv : (rsvField w).toNat = w.toNat / 256 := by
    rw [rsvField, BitVec.extractLsb'_toNat, Nat.shiftRight_eq_div_pow]
    omega
  rw [← BitVec.toNat_inj, hv]
  rfl

/-! The opcode map (R93, R95). -/

/-- Every command's row of the family `Encoding` holds. -/
theorem encoding_statement : ∀ i, Laws.Encoding.Statement i
  | .nop => Laws.Encoding.nop
  | .freqAnalyze => Laws.Encoding.freqAnalyze
  | .treeBuild => Laws.Encoding.treeBuild
  | .codeDerive => Laws.Encoding.codeDerive
  | .bitPack => Laws.Encoding.bitPack
  | .contSerialize => Laws.Encoding.contSerialize
  | .contDeserialize => Laws.Encoding.contDeserialize
  | .payloadCheck => Laws.Encoding.payloadCheck
  | .bitUnpack => Laws.Encoding.bitUnpack
  | .compress => Laws.Encoding.compress
  | .decompress => Laws.Encoding.decompress

theorem decode_encode (i : Instr) : decode (encode i) = .ok i := by
  obtain ⟨_, _, _, _, h⟩ := encoding_statement i
  exact h

theorem eq_opcode_of_lookup {b : Byte} {i : Instr} (h : opcodeMap.lookup b = some i) : b = opcode i := by
  obtain ⟨l₁, l₂, hl, _⟩ := List.lookup_eq_some_iff.1 h
  have row : ∀ p ∈ opcodeMap, p.1 = opcode p.2 := by decide
  exact row (b, i) (by simp [hl])

/-- The bytes that no row of the opcode map lists are the two gaps of R95. -/
theorem opcodeMap_lookup_eq_none_iff (b : Byte) :
    opcodeMap.lookup b = none ↔ (0x09 ≤ b.toNat ∧ b.toNat ≤ 0x0F) ∨ 0x12 ≤ b.toNat := by
  simp only [List.lookup_eq_none_iff, opcodeMap, List.forall_mem_cons, bne_iff_ne, ne_eq, ← BitVec.toNat_inj,
    BitVec.ofNat_eq_ofNat, BitVec.toNat_ofNat, List.not_mem_nil, false_implies, implies_true, and_true]
  omega

/-! The decoder (R91). -/

theorem decode_eq_ok_iff (w : Word) (i : Instr) : decode w = .ok i ↔ w = encode i := by
  constructor
  · intro h
    unfold decode at h
    split at h
    next hr =>
      split at h
      next j hl =>
        cases h
        rw [← rsvField_append_opcField w, hr, eq_opcode_of_lookup hl, encode]
      next => cases h
    next => cases h
  · rintro rfl
    exact decode_encode i

theorem decode_eq_error_iff (w : Word) :
    (∃ r, decode w = .error r) ↔ rsvField w ≠ 0 ∨ opcodeMap.lookup (opcField w) = none := by
  unfold decode
  split
  next hr => cases opcodeMap.lookup (opcField w) <;> simp [hr]
  next hr => exact iff_of_true ⟨_, rfl⟩ (.inl hr)

/-- The words the decoder rejects, by their value (R91, R95). -/
theorem decode_rejects_iff (w : Word) : (∃ r, decode w = .error r) ↔
    w.toNat / 256 ≠ 0 ∨ (0x09 ≤ w.toNat % 256 ∧ w.toNat % 256 ≤ 0x0F) ∨ 0x12 ≤ w.toNat % 256 := by
  rw [decode_eq_error_iff, ne_eq, rsvField_eq_zero_iff, opcodeMap_lookup_eq_none_iff, opcField_toNat]

/-- Settles O3: a word is its two fields, RSV = 0 and OPC in the opcode map for a command's word and for no other. -/
theorem decoderAcceptsExactlyTheCommandWords : Obligations.DecoderAcceptsExactlyTheCommandWords :=
  fun w => ⟨decode_eq_ok_iff w, decode_rejects_iff w⟩

end Sys2Proof

namespace Sys2Proof.Machine

/-! The completion of a rejected word (R92). -/

theorem step_of_engineTurn {s : State} {w : Word} {k : Nat} (hp : s.phase = .busy w k) (ht : s.engineTurn = true) :
    step s = runCommand w s := by
  simp [step, hp, ht]

theorem runCommand_of_rejected {w : Word} {r : Reject} (s : State) (h : decode w = .error r) :
    runCommand w s = .next (s.illegalCommand w) := by
  simp [runCommand, h]

theorem illegalCommand_eq_failed (s : State) (w : Word) :
    s.illegalCommand w = s.failed 7 w (BitVec.ofNat 8 (w.toNat % 256)) := by
  rw [← opcField_eq_ofNat]
  exact completeErr_eq_failed s _

/-- STATUS after a failed command, with no sticky bit set: DONE, ERR, the code and the stage (R34, R272). -/
theorem statusWord_failed {s : State} (c : BitVec 4) (i : Word) (g : Byte) (hb : s.status.busErr = false)
    (ho : s.status.overrun = false) :
    (s.failed c i g).statusWord = 6 ||| c.setWidth 32 <<< 8 ||| g.setWidth 32 <<< 16 := by
  simp [State.statusWord, State.isBusy, hb, ho]

/-- Settles O4: at the engine's turn a rejected word runs to the completion `failed` with code 7. -/
theorem illegalWordCompletes : Obligations.IllegalWordCompletes := by
  intro s w k hp ht hw
  obtain ⟨r, hr⟩ := (decode_rejects_iff w).2 hw
  constructor
  · rw [step_of_engineTurn hp ht, runCommand_of_rejected s hr, illegalCommand_eq_failed]
  · intro _ hb ho
    rw [statusWord_failed 7 w 0x09 hb ho]
    decide

end Sys2Proof.Machine

/-! PROOFS of the family `40_frequency_analyzer.md`: FREQ_ANALYZE's two errors and the table it writes (R120). -/

namespace Sys2Proof.Machine

theorem exec_freqAnalyze_of_error {s : State} {r : Raise} (h : freqAnalyze s = .error r) :
    exec .freqAnalyze s = .next ((s.discarded .freqAnalyze).failed r.kind.code r.info 0x01) :=
  exec_of_error (i := .freqAnalyze) (runUnit_error h)

theorem exec_freqAnalyze_of_ok {s t : State} (h : freqAnalyze s = .ok t) : exec .freqAnalyze s = .next t.succeeded :=
  exec_of_ok (i := .freqAnalyze) (runUnit_ok h)

/-- R120's `cnt`: how often a symbol occurs in the input is the number of indices that hold it. -/
theorem count_inSyms (s : State) (x : Nat) :
    s.inSyms.count x = ((List.range s.inSymLen.toNat).filter (fun i => s.inSym i = x)).length := by
  rw [State.inSyms, List.count, List.countP_map, List.countP_eq_length_filter]
  rfl

/-- Settles O14: the two errors in the unit's order; else FT is the input's frequency table, whose entries are the
occurring symbols with their counts. -/
theorem freqAnalyzeCountsTheInput : Obligations.FreqAnalyzeCountsTheInput := by
  intro s
  refine ⟨fun hcap => ?_, fun hcap i hi hbad hbelow => ?_, fun hcap hsyms => ?_⟩
  · exact exec_freqAnalyze_of_error (freqAnalyze_capacity hcap)
  · exact exec_freqAnalyze_of_error (freqAnalyze_invalid hcap hi hbad hbelow)
  · have hall : ∀ x ∈ s.inSyms, x ≤ symMax := by
      intro x hx
      obtain ⟨i, hi, rfl⟩ := mem_inSyms.1 hx
      exact hsyms i hi
    have hok : freqAnalyze s = .ok (s.writeFt (some (freqTable s.inSyms))) := freqAnalyze_eq_ok.2 ⟨hcap, hall, rfl⟩
    refine ⟨freqTable s.inSyms, exec_freqAnalyze_of_ok hok, freqTable_ascends s.inSyms, fun x c => ?_⟩
    rw [← count_inSyms]
    exact mem_freqTable_iff s.inSyms x c

end Sys2Proof.Machine

/-! PROOFS of the family `41_tree_builder.md`: TREE_BUILD's two errors and its tree (R141), and the queue discipline of
`build` (R140). -/

namespace Sys2Proof.Machine

/-! The command (R141). -/

theorem exec_treeBuild_of_error {s : State} {r : Raise} (h : treeBuild s = .error r) :
    exec .treeBuild s = .next ((s.discarded .treeBuild).failed r.kind.code r.info 0x02) :=
  exec_of_error (i := .treeBuild) (runUnit_error h)

theorem exec_treeBuild_of_ok {s t : State} (h : treeBuild s = .ok t) : exec .treeBuild s = .next t.succeeded :=
  exec_of_ok (i := .treeBuild) (runUnit_ok h)

/-- A `require(FT)` that fails reports VALID's bit 0 (R274). -/
theorem notReady_ft {s : State} (h : s.ft = none) : s.notReady [.ft] = ⟨.notReady, 0x01⟩ := by
  have hmissing : missingBits s [.ft] = 1 := by simp [missingBits, State.holds, h, WorkReg.bit]
  rw [notReady_info s [.ft] (by decide), hmissing]
  rfl

/-- The root is the last of the 2N - 1 nodes (R142). -/
theorem build_root_eq {ft : FreqTable} (h : ft ≠ []) : (build ft).root = 2 * ft.length - 2 := by
  have hroot := build_root h
  have hlen := build_length h
  omega

/-- Settles O16: the unit's two errors, and its success on a non-empty table, each carried to the command's completion. -/
theorem treeBuildBuildsFromFt : Obligations.TreeBuildBuildsFromFt := by
  intro s
  refine ⟨fun hnone => ?_, fun hempty => ?_, fun ft hft hne => ⟨?_, build_length hne, build_root_eq hne⟩⟩
  · exact exec_treeBuild_of_error (treeBuild_eq_error.2 (.inl ⟨hnone, (notReady_ft hnone).symm⟩))
  · exact exec_treeBuild_of_error (treeBuild_eq_error.2 (.inr ⟨hempty, rfl⟩))
  · exact exec_treeBuild_of_ok (treeBuild_eq_ok.2 ⟨ft, hft, hne, rfl⟩)

/-! The queue discipline (R140). -/

/-- Settles O17: the merge loop's invariant `MergeInv`, read off the finished tree: the leaves, each node's merge, and the
queue at the end. -/
theorem buildPopsTheTwoSmallestKeys : Obligations.BuildPopsTheTwoSmallestKeys :=
  fun _ hne => ⟨fun _ _ => build_leaf hne, fun _ => build_merge hne, build_queue hne⟩

end Sys2Proof.Machine

/-! PROOFS of the family `42_code_table_deriver.md`: CODE_DERIVE's one error and the codes it gives the leaves (R160,
R161). -/

namespace Sys2Proof.Machine

/-! The command (R160). -/

/-- A `require(TREE)` that fails reports VALID's bit 1 (R274). -/
theorem notReady_tree {s : State} (h : s.tree = none) : s.notReady [.tree] = ⟨.notReady, 0x02⟩ := by
  have hmissing : missingBits s [.tree] = 2 := by simp [missingBits, State.holds, h, WorkReg.bit]
  rw [notReady_info s [.tree] (by decide), hmissing]
  rfl

theorem exec_codeDerive_of_tree_none {s : State} (h : s.tree = none) :
    exec .codeDerive s = .next ((s.discarded .codeDerive).failed 8 0x02 0x03) :=
  exec_of_error (i := .codeDerive) (runUnit_error (codeDerive_eq_error.2 ⟨h, (notReady_tree h).symm⟩))

theorem exec_codeDerive_of_tree_some {s : State} {t : Tree} (h : s.tree = some t) :
    exec .codeDerive s = .next { s with ct := some (deriveCodes t) }.succeeded :=
  exec_of_ok (i := .codeDerive) (runUnit_ok (codeDerive_eq_ok.2 ⟨t, h, rfl⟩))

/-! The code table (R25, R160). -/

/-- INV is the inverse of a legal CT (R25): its codes are distinct, so a lookup finds each entry by its code. -/
theorem invLookup_eq_some_iff {ct : CodeTable} (hw : CodeTable.wf ct) (b : Bits) (x : Nat) :
    invLookup ct b = some x ↔ ⟨x, b⟩ ∈ ct :=
  ⟨invLookup_eq_some, invLookup_of_mem hw⟩

theorem deriveCodes_codes_of_length_one {ft : FreqTable} (h : ft.length = 1) :
    (deriveCodes (build ft)).map CodeEntry.code = [[false]] := by
  obtain ⟨e, rfl⟩ := List.length_eq_one_iff.1 h
  rw [deriveCodes_single]
  rfl

/-- R29: a valid TREE is `build` of the FT that is held, and that FT is legal and not empty. -/
theorem State.Inv.tree_eq_build {s : State} (hinv : s.Inv) {t : Tree} {ft : FreqTable} (ht : s.tree = some t)
    (hft : s.ft = some ft) : t = build ft ∧ ft ≠ [] ∧ FreqTable.wf ft := by
  obtain ⟨ft', hft', hne, rfl⟩ := hinv.tree t ht
  obtain rfl : ft' = ft := Option.some.inj (hft'.symm.trans hft)
  exact ⟨rfl, hne, hinv.ft ft' hft⟩

/-- Settles O20: without a TREE the unit's one error; else, under the invariant, TREE is `build` of FT and CT is its
derived table, whose order, inverse, single code and walks are the laws of `deriveCodes`. -/
theorem codesAreLeafPaths : Obligations.CodesAreLeafPaths := by
  intro s
  refine ⟨exec_codeDerive_of_tree_none, fun hinv t ft ht hft => ?_⟩
  obtain ⟨rfl, hne, -, hascends, -⟩ := hinv.tree_eq_build ht hft
  exact ⟨deriveCodes (build ft), exec_codeDerive_of_tree_some ht, deriveCodes_syms hne,
    invLookup_eq_some_iff (deriveCodes_wf hne hascends), deriveCodes_codes_of_length_one,
    fun h2 _ _ => deriveCodes_walk h2⟩

end Sys2Proof.Machine

/-! PROOFS of the family `43_bit_packer.md`: BIT_PACK's errors in their order, and the payload it packs (R180, R181). -/

namespace Sys2Proof.Machine

/-! The command (R180). -/

theorem exec_bitPack_of_error {s : State} {r : Raise} (h : bitPack s = .error r) :
    exec .bitPack s = .next ((s.discarded .bitPack).failed r.kind.code r.info 0x04) :=
  exec_of_error (i := .bitPack) (runUnit_error h)

theorem exec_bitPack_of_ok {s t : State} (h : bitPack s = .ok t) : exec .bitPack s = .next t.succeeded :=
  exec_of_ok (i := .bitPack) (runUnit_ok h)

/-- A `require(CT)` that fails reports VALID's bit 2 (R274). -/
theorem notReady_ct {s : State} (h : s.ct = none) : s.notReady [.ct] = ⟨.notReady, 0x04⟩ := by
  have hmissing : missingBits s [.ct] = 4 := by simp [missingBits, State.holds, h, WorkReg.bit]
  rw [notReady_info s [.ct] (by decide), hmissing]
  rfl

section
variable {s : State} {ct : CodeTable} {codes : List Bits}

/-! The two outcomes of the packing itself, by the packed buffer's size against PAYLOAD_CAP (R180). -/

theorem bitPack_payload_capacity (hct : s.ct = some ct) (hin : s.inSymLen.toNat ≤ s.caps.inSym)
    (hcodes : CodesOf ct s.inSyms codes) (hcap : s.caps.payload < (packBits codes.flatten).length) :
    bitPack s = .error ⟨.capacityExceeded, 5⟩ := by
  rw [bitPack_codes hct hin hcodes, if_pos hcap]

theorem bitPack_packed (hct : s.ct = some ct) (hin : s.inSymLen.toNat ≤ s.caps.inSym)
    (hcodes : CodesOf ct s.inSyms codes) (hcap : (packBits codes.flatten).length ≤ s.caps.payload) :
    bitPack s = .ok { s with
      payload := some (packBits codes.flatten)
      pad := BitVec.ofNat 8 (padCount codes.flatten.length)
      pbits := BitVec.ofNat 64 codes.flatten.length } := by
  rw [bitPack_codes hct hin hcodes, if_neg (Nat.not_lt.2 hcap)]

end

/-- Settles O24: the unit's four errors in its order, each carried to the command's completion; else PAYLOAD is
`packBits` of the codes, whose size is `packBits_length` and whose bits are the padded stream of `packBits_unpack`. -/
theorem bitPackEncodesTheInput : Obligations.BitPackEncodesTheInput := by
  intro s
  refine ⟨fun hnone => ?_, fun ct hct => ⟨fun hcap => ?_, fun hin => ⟨fun i hi hmissing hbelow => ?_, ?_⟩⟩⟩
  · exact exec_bitPack_of_error ((bitPack_notReady hnone).trans (congrArg Except.error (notReady_ct hnone)))
  · exact exec_bitPack_of_error (bitPack_capacity hct hcap)
  · exact exec_bitPack_of_error (bitPack_missing hct hin hi hmissing hbelow)
  · rintro codes len p hcodes rfl rfl
    have hsize : (packBits codes.flatten).length = (8 + codes.flatten.length + (8 - codes.flatten.length % 8) % 8) / 8 :=
      packBits_length codes.flatten
    rw [← hsize]
    exact ⟨fun hcap => exec_bitPack_of_error (bitPack_payload_capacity hct hin hcodes hcap),
      fun hcap => ⟨packBits codes.flatten, exec_bitPack_of_ok (bitPack_packed hct hin hcodes hcap),
        packBits_unpack codes.flatten⟩⟩

end Sys2Proof.Machine

/-! PROOFS of the family `44_container_codec.md`: the container CONT_SERIALIZE writes (R200, R201), CONT_DESERIALIZE's
checks and what it reads (R202, R203), and PAYLOAD_CHECK's comparison (R204). -/

namespace Sys2Proof.Machine

/-! CONT_SERIALIZE (R200, R201). -/

theorem exec_contSerialize_of_error {s : State} {r : Raise} (h : contSerialize s = .error r) :
    exec .contSerialize s = .next ((s.discarded .contSerialize).failed r.kind.code r.info 0x05) :=
  exec_of_error (i := .contSerialize) (runUnit_error h)

theorem exec_contSerialize_of_ok {s t : State} (h : contSerialize s = .ok t) : exec .contSerialize s = .next t.succeeded :=
  exec_of_ok (i := .contSerialize) (runUnit_ok h)

/-- R200's container with its fields in a row: HL, N, the entries, the payload. -/
theorem containerBytes_eq_fields (ft : FreqTable) (pl : List Byte) :
    containerBytes ft pl =
      be32 (4 + 8 * ft.length) ++ be32 ft.length ++ ft.flatMap (fun e => be32 e.sym ++ be32 e.count) ++ pl := by
  rw [containerBytes, headerBytes_length, headerBytes]
  simp only [List.append_assoc]

/-- Settles O26: the unit's two errors; else OUT_BYTES is `containerBytes` of the two registers, which is the row of
fields the statement names. -/
theorem serializeWritesTheContainer : Obligations.SerializeWritesTheContainer := by
  intro s
  refine ⟨fun hnone => ?_, fun ft pl c hft hpl hc => ?_⟩
  · have hinfo := notReady_info s [.ft, .payload] (by decide)
    exact exec_contSerialize_of_error ((contSerialize_notReady hnone).trans (congrArg Except.error hinfo))
  · obtain rfl : c = containerBytes ft pl := hc.trans (containerBytes_eq_fields ft pl).symm
    have hunit := contSerialize_some hft hpl
    exact ⟨containerBytes_length ft pl, fun hcap => exec_contSerialize_of_error (hunit.trans (if_pos hcap)),
      fun hcap => exec_contSerialize_of_ok (hunit.trans (if_neg (Nat.not_lt.2 hcap)))⟩

/-! PAYLOAD_CHECK (R204). -/

theorem exec_payloadCheck_of_error {s : State} {r : Raise} (h : payloadCheck s = .error r) :
    exec .payloadCheck s = .next (s.failed r.kind.code r.info 0x07) :=
  exec_of_error (i := .payloadCheck) (runUnit_error h)

theorem exec_payloadCheck_of_ok {s t : State} (h : payloadCheck s = .ok t) : exec .payloadCheck s = .next t.succeeded :=
  exec_of_ok (i := .payloadCheck) (runUnit_ok h)

/-- R29 with R162: under the invariant a valid CT is derived from the FT that is held, so every FT symbol has a code. -/
theorem State.Inv.exists_ft_codes {s : State} (hinv : s.Inv) {ft : FreqTable} {ct : CodeTable} (hft : s.ft = some ft)
    (hct : s.ct = some ct) : ∃ codes, CodesOf ct (ft.map FtEntry.sym) codes := by
  obtain ⟨t, ht, rfl⟩ := hinv.ct ct hct
  obtain ⟨rfl, hne, -⟩ := hinv.tree_eq_build ht hft
  exact exists_codesOf_ft hne

/-- Settles O30: the unit's two errors, the expected length being `expectedBytes` with its sum taken over the codes. -/
theorem payloadCheckComparesTheImpliedLength : Obligations.PayloadCheckComparesTheImpliedLength := by
  intro s
  refine ⟨fun hnone => ?_, fun ft ct pl hft hct hpl => ⟨fun hinv => hinv.exists_ft_codes hft hct, ?_⟩⟩
  · have hinfo := notReady_info s [.ft, .ct, .payload] (by decide)
    exact exec_payloadCheck_of_error ((payloadCheck_notReady hnone).trans (congrArg Except.error hinfo))
  · rintro codes expected hcodes hexpected
    obtain rfl : expected = expectedBytes ft ct := by rw [hexpected, expectedBytes, impliedBits_eq_sum hcodes]
    have hunit := payloadCheck_some hft hct hpl
    exact ⟨fun hshort => exec_payloadCheck_of_error (hunit.trans (if_pos hshort)),
      fun hlong => exec_payloadCheck_of_ok (hunit.trans (if_neg (Nat.not_lt.2 hlong)))⟩

/-! CONT_DESERIALIZE: the command around `readContainer` (R202). -/

theorem exec_contDeserialize_of_error {s : State} {r : Raise} (h : contDeserialize s = .error r) :
    exec .contDeserialize s = .next ((s.discarded .contDeserialize).failed r.kind.code r.info 0x06) :=
  exec_of_error (i := .contDeserialize) (runUnit_error h)

theorem contDeserialize_capacity {s : State} (h : s.caps.inByte < s.inByteLen.toNat) :
    contDeserialize s = .error ⟨.capacityExceeded, 2⟩ :=
  if_pos h

section
variable {s : State} (hin : s.inByteLen.toNat ≤ s.caps.inByte)
include hin

theorem contDeserialize_of_read_error {r : Raise} (h : readContainer s.caps.payload s.inBytes = .error r) :
    contDeserialize s = .error r := by
  rw [contDeserialize, if_neg (Nat.not_lt.2 hin), h]

theorem contDeserialize_of_read_ok {ft : FreqTable} {pl : List Byte}
    (h : readContainer s.caps.payload s.inBytes = .ok (ft, pl)) :
    contDeserialize s = .ok { s.writeFt (some ft) with payload := some pl } := by
  rw [contDeserialize, if_neg (Nat.not_lt.2 hin), h]

/-- A CorruptHeader of the reading is reported with its subcode in the low byte and the entry index above it. -/
theorem exec_contDeserialize_of_corrupt {sub i : Nat} (hsub : sub < 256)
    (h : readContainer s.caps.payload s.inBytes = .error (corruptHeader sub i)) :
    exec .contDeserialize s =
      .next ((s.discarded .contDeserialize).failed 3 (BitVec.ofNat 32 (sub + 256 * i)) 0x06) := by
  rw [← corruptHeader_info i hsub]
  exact exec_contDeserialize_of_error (contDeserialize_of_read_error hin h)

end

/-! A container's header and what reading does around it (R202). -/

/-- The header H of a container: the HL bytes behind the length field. -/
def headerOf (b : List Byte) : List Byte := (b.drop 4).take (fieldAt b 0)

theorem fieldAt_zero (b : List Byte) : fieldAt b 0 = beVal (b.take 4) := rfl

theorem headerOf_length {b : List Byte} (hl : fieldAt b 0 ≤ b.length - 4) : (headerOf b).length = fieldAt b 0 := by
  rw [headerOf, List.length_take, List.length_drop, Nat.min_eq_left hl]

theorem readContainer_of_short {b : List Byte} (cap : Nat) (h : b.length < 4) :
    readContainer cap b = .error (corruptHeader 1 0) :=
  if_pos h

theorem readContainer_of_long_header {b : List Byte} (cap : Nat) (h4 : 4 ≤ b.length) (hl : b.length - 4 < fieldAt b 0) :
    readContainer cap b = .error (corruptHeader 2 0) :=
  (if_neg (Nat.not_lt.2 h4)).trans (if_pos hl)

section
variable {b : List Byte} (cap : Nat) (h4 : 4 ≤ b.length) (hl : fieldAt b 0 ≤ b.length - 4)
include h4 hl

theorem readContainer_of_parse_error {r : Raise} (hp : parseHeader (headerOf b) = .error r) :
    readContainer cap b = .error r := by
  rw [headerOf, fieldAt_zero] at hp
  rw [fieldAt_zero] at hl
  rw [readContainer, if_neg (Nat.not_lt.2 h4), if_neg (Nat.not_lt.2 hl), hp]

/-- Behind a header that parses, only the payload's size is left to check. -/
theorem readContainer_of_parse_ok {ft : FreqTable} (hp : parseHeader (headerOf b) = .ok ft) :
    readContainer cap b =
      if cap < b.length - 4 - fieldAt b 0 then .error ⟨.capacityExceeded, 5⟩
      else .ok (ft, b.drop (4 + fieldAt b 0)) := by
  rw [headerOf, fieldAt_zero] at hp
  rw [fieldAt_zero] at hl
  rw [readContainer, if_neg (Nat.not_lt.2 h4), if_neg (Nat.not_lt.2 hl), hp, fieldAt_zero, Nat.sub_sub, ← List.length_drop]

end

/-! The table in a container's fields (R200). -/

/-- The entries a container's fields hold, for an entry count n: entry i stands at offset 8 + 8i. -/
def tableAt (b : List Byte) (n : Nat) : FreqTable :=
  (List.range n).map fun i => ⟨fieldAt b (8 + 8 * i), fieldAt b (12 + 8 * i)⟩

theorem tableAt_length (b : List Byte) (n : Nat) : (tableAt b n).length = n := by simp [tableAt]

theorem tableAt_getElem? (b : List Byte) {n i : Nat} (hi : i < n) :
    (tableAt b n)[i]? = some ⟨fieldAt b (8 + 8 * i), fieldAt b (12 + 8 * i)⟩ := by
  simp [tableAt, hi]

/-- A table whose entries stand at offset 8 is the one its fields hold. -/
theorem tableAt_of_drop {b rest : List Byte} {ft : FreqTable} (hb : ∀ e ∈ ft, e.sym < 2 ^ 32 ∧ e.count < 2 ^ 32)
    (h : b.drop 8 = ft.flatMap entryBytes ++ rest) : tableAt b ft.length = ft := by
  refine List.ext_getElem? fun i => ?_
  by_cases hi : i < ft.length
  · obtain ⟨hsym, hcount⟩ := fieldAt_entries hb (List.getElem?_eq_getElem hi) rest
    rw [← h, fieldAt_drop] at hsym hcount
    rw [← Nat.add_assoc] at hcount
    rw [tableAt_getElem? b hi, hsym, hcount, List.getElem?_eq_getElem hi]
  · rw [List.getElem?_eq_none (by rw [tableAt_length]; omega), List.getElem?_eq_none (by omega)]

/-- The entry count of a header is the container's field at offset 4. -/
theorem beVal_take_headerOf {b : List Byte} (hl4 : 4 ≤ fieldAt b 0) : beVal ((headerOf b).take 4) = fieldAt b 4 := by
  rw [headerOf, List.take_take, Nat.min_eq_left hl4, fieldAt]

/-! The header's parse, by the container's fields (R203). -/

/-- R203's subcode 3: a header with no room for its entry count, or whose length is not that of its entries. -/
theorem parseHeader_of_bad_length {b : List Byte} (hlen : (headerOf b).length = fieldAt b 0)
    (hbad : fieldAt b 0 < 4 ∨ fieldAt b 0 ≠ 4 + 8 * fieldAt b 4) :
    parseHeader (headerOf b) = .error (corruptHeader 3 0) := by
  rw [parseHeader, hlen]
  by_cases hl4 : fieldAt b 0 < 4
  · rw [if_pos hl4]
  · rw [if_neg hl4, beVal_take_headerOf (Nat.not_lt.1 hl4), if_pos (hbad.resolve_left hl4)]

/-- R203: entry i of a container fails with this subcode. -/
def badFieldsAt (b : List Byte) (i sub : Nat) : Prop :=
  (sub = 4 ∧ symMax < fieldAt b (8 + 8 * i)) ∨
  (sub = 5 ∧ fieldAt b (8 + 8 * i) ≤ symMax ∧ 0 < i ∧ fieldAt b (8 + 8 * i) ≤ fieldAt b (8 * i)) ∨
  (sub = 6 ∧ fieldAt b (8 + 8 * i) ≤ symMax ∧ (i = 0 ∨ fieldAt b (8 * i) < fieldAt b (8 + 8 * i)) ∧
    fieldAt b (12 + 8 * i) = 0)

theorem badFieldsAt_subcode_lt {b : List Byte} {i sub : Nat} (h : badFieldsAt b i sub) : sub < 256 := by
  rcases h with ⟨rfl, -⟩ | ⟨rfl, -⟩ | ⟨rfl, -⟩ <;> decide

/-- The symbol before entry i of the table in the fields stands 8 bytes before entry i's. -/
theorem mem_prevAt_tableAt {b : List Byte} {n i p : Nat} (hi : i < n) :
    p ∈ prevAt none (tableAt b n) i ↔ 0 < i ∧ p = fieldAt b (8 * i) := by
  cases i with
  | zero => simp [prevAt]
  | succ j =>
    rw [prevAt, tableAt_getElem? b (Nat.lt_of_succ_lt hi), Nat.mul_succ, Nat.add_comm (8 * j)]
    simp [eq_comm]

theorem entryBad_tableAt {b : List Byte} {n i sub : Nat} (hi : i < n) :
    entryBad (prevAt none (tableAt b n) i) ⟨fieldAt b (8 + 8 * i), fieldAt b (12 + 8 * i)⟩ sub ↔ badFieldsAt b i sub := by
  simp only [entryBad, badFieldsAt, mem_prevAt_tableAt hi]
  cases i with
  | zero => simp
  | succ j => simp

theorem not_entryBad_tableAt {b : List Byte} {n k : Nat} {d : FtEntry} (h : k < n → ∀ sub, ¬ badFieldsAt b k sub)
    (hd : (tableAt b n)[k]? = some d) (sub : Nat) : ¬ entryBad (prevAt none (tableAt b n) k) d sub := by
  have hk : k < n := tableAt_length b n ▸ (List.getElem?_eq_some_iff.1 hd).1
  obtain rfl := Option.some.inj ((tableAt_getElem? b hk).symm.trans hd)
  exact fun hbad => h hk sub ((entryBad_tableAt hk).1 hbad)

section
variable {b : List Byte} (hlen : (headerOf b).length = fieldAt b 0) (hl : fieldAt b 0 = 4 + 8 * fieldAt b 4)
include hlen hl

/-- A header of the length its entry count asks for is the header of the table its fields hold. -/
theorem headerOf_eq_headerBytes :
    headerOf b = headerBytes (tableAt b (fieldAt b 4)) ∧
      ∀ e ∈ tableAt b (fieldAt b 4), e.sym < 2 ^ 32 ∧ e.count < 2 ^ 32 := by
  have hn : beVal ((headerOf b).take 4) = fieldAt b 4 := beVal_take_headerOf (by omega)
  obtain ⟨ft, hh, hft, hb⟩ := exists_header (h := headerOf b) (by omega) (by omega)
  have hdrop : b.drop 8 = ft.flatMap entryBytes ++ b.drop (4 + fieldAt b 0) :=
    calc b.drop 8 = (headerOf b ++ b.drop (4 + fieldAt b 0)).drop 4 := by
          rw [headerOf, ← List.drop_drop, List.take_append_drop, List.drop_drop]
      _ = ft.flatMap entryBytes ++ b.drop (4 + fieldAt b 0) := by
          rw [hh, headerBytes_eq, List.append_assoc, drop_be32_append]
  rw [← hn, ← hft, tableAt_of_drop hb hdrop]
  exact ⟨hh, hb⟩

theorem entryCount_lt : (tableAt b (fieldAt b 4)).length < 2 ^ 32 := by
  rw [tableAt_length, ← beVal_take_headerOf (by omega)]
  exact beVal_lt_of_length (by rw [List.length_take]; omega)

/-- R203's subcodes 4 to 6: the header is rejected at its first bad entry. -/
theorem parseHeader_of_first_bad {i sub : Nat} (hi : i < fieldAt b 4) (hbad : badFieldsAt b i sub)
    (hbelow : ∀ j < i, ∀ sub', ¬ badFieldsAt b j sub') :
    parseHeader (headerOf b) = .error (corruptHeader sub i) := by
  obtain ⟨hh, hb⟩ := headerOf_eq_headerBytes hlen hl
  have hentries := parseEntries_first_bad (i := 0) hb (tableAt_getElem? b hi) ((entryBad_tableAt hi).2 hbad)
    fun k hk _ => not_entryBad_tableAt fun _ => hbelow k hk
  rw [hh, parseHeader_headerBytes (entryCount_lt hlen hl), hentries, Nat.zero_add]

/-- With no bad entry only the sum of the counts is left to check (R203's subcode 7). -/
theorem parseHeader_of_none_bad (hnone : ∀ i < fieldAt b 4, ∀ sub, ¬ badFieldsAt b i sub) :
    parseHeader (headerOf b) =
      if countMax < countSum (tableAt b (fieldAt b 4)) then .error (corruptHeader 7 0)
      else .ok (tableAt b (fieldAt b 4)) := by
  obtain ⟨hh, hb⟩ := headerOf_eq_headerBytes hlen hl
  have hentries := parseEntries_none_bad (i := 0) hb fun k _ => not_entryBad_tableAt (hnone k)
  rw [hh, parseHeader_headerBytes (entryCount_lt hlen hl), hentries]
  rfl

end

/-- Settles O28: each check of the reading in its order, carried to the command's completion; the header's checks are
those of the table in its fields, and behind a legal header only the payload's size is left. -/
theorem deserializeChecksInOrder : Obligations.DeserializeChecksInOrder := by
  rintro s b m hl n bad rfl rfl rfl rfl hbad
  obtain rfl : bad = badFieldsAt s.inBytes := funext fun i => funext fun sub => propext (hbad i sub)
  have hm : s.inByteLen.toNat = s.inBytes.length := (inBytes_length s).symm
  refine ⟨fun hcap => ?_, fun hin h4 => ?_, fun hin h4 hlong => ?_, fun hin h4 hfits hwrong => ?_,
    fun hin h4 hfits hl => ⟨?_, ?_⟩⟩
  · exact exec_contDeserialize_of_error (contDeserialize_capacity hcap)
  · exact exec_contDeserialize_of_corrupt (i := 0) hin (by decide) (readContainer_of_short _ (hm ▸ h4))
  · exact exec_contDeserialize_of_corrupt (i := 0) hin (by decide) (readContainer_of_long_header _ (hm ▸ h4) (hm ▸ hlong))
  · rw [hm] at h4 hfits
    exact exec_contDeserialize_of_corrupt (i := 0) hin (by decide) (readContainer_of_parse_error _ h4 hfits
      (parseHeader_of_bad_length (headerOf_length hfits) hwrong))
  · rw [hm] at h4 hfits
    intro i hi sub hsub hbelow
    exact exec_contDeserialize_of_corrupt hin (badFieldsAt_subcode_lt hsub) (readContainer_of_parse_error _ h4 hfits
      (parseHeader_of_first_bad (headerOf_length hfits) hl hi hsub hbelow))
  · rw [hm] at h4 hfits ⊢
    rintro hnone ft rfl
    have hparse := parseHeader_of_none_bad (headerOf_length hfits) hl hnone
    refine ⟨fun hsum => ?_, fun hsum hcap => ?_, fun hsum hcap => ?_⟩
    · exact exec_contDeserialize_of_corrupt (i := 0) hin (by decide)
        (readContainer_of_parse_error _ h4 hfits (hparse.trans (if_pos hsum)))
    · have hread := readContainer_of_parse_ok s.caps.payload h4 hfits (hparse.trans (if_neg (Nat.not_lt.2 hsum)))
      exact exec_contDeserialize_of_error (contDeserialize_of_read_error hin (hread.trans (if_pos hcap)))
    · have hread := readContainer_of_parse_ok s.caps.payload h4 hfits (hparse.trans (if_neg (Nat.not_lt.2 hsum)))
      exact exec_of_ok (i := .contDeserialize)
        (runUnit_ok (contDeserialize_of_read_ok hin (hread.trans (if_neg (Nat.not_lt.2 hcap)))))

end Sys2Proof.Machine

/-! PROOFS of the family `45_bit_unpacker.md`: BIT_UNPACK's errors in their order, and the symbols it decodes (R230,
R231). -/

namespace Sys2Proof.Machine

/-! The command (R230). -/

theorem exec_bitUnpack_of_error {s : State} {r : Raise} (h : bitUnpack s = .error r) :
    exec .bitUnpack s = .next ((s.discarded .bitUnpack).failed r.kind.code r.info 0x08) :=
  exec_of_error (i := .bitUnpack) (runUnit_error h)

theorem exec_bitUnpack_of_ok {s t : State} (h : bitUnpack s = .ok t) : exec .bitUnpack s = .next t.succeeded :=
  exec_of_ok (i := .bitUnpack) (runUnit_ok h)

/-- R29 with R162: under the invariant a valid CT is derived from a legal FT, so it is a legal code table. -/
theorem State.Inv.ct_wf {s : State} (hinv : s.Inv) {ct : CodeTable} (hct : s.ct = some ct) : CodeTable.wf ct := by
  obtain ⟨t, ht, rfl⟩ := hinv.ct ct hct
  obtain ⟨ft, hft, hne, rfl⟩ := hinv.tree t ht
  obtain ⟨-, hascends, -⟩ := hinv.ft ft hft
  exact deriveCodes_wf hne hascends

/-! The scan of codes and a rest that no code begins (R230): its three outcomes. -/

section
variable {ct : CodeTable} (hw : CodeTable.wf ct) {cap : Nat} {out : List Nat} {codes : List Bits}
  (hcodes : CodesOf ct out codes)
include hw hcodes

theorem scanBits_of_codes (hcap : out.length ≤ cap) : scanBits ct cap [] [] codes.flatten = .ok out := by
  have hscan := scanBits_start hw hcodes [] (cap := cap)
  rw [List.append_nil, if_neg (Nat.not_lt.2 hcap)] at hscan
  exact hscan

theorem scanBits_of_too_many (hcap : cap < out.length) (left : Bits) :
    scanBits ct cap [] [] (codes.flatten ++ left) = .error ⟨.capacityExceeded, 4⟩ :=
  (scanBits_start hw hcodes left).trans (if_pos hcap)

theorem scanBits_of_left_over (hcap : out.length ≤ cap) {left : Bits} (hne : left ≠ [])
    (hleft : ∀ e ∈ ct, ¬ e.code <+: left) :
    scanBits ct cap [] [] (codes.flatten ++ left) = .error ⟨.decodeError, 3⟩ := by
  rw [scanBits_start hw hcodes left, if_neg (Nat.not_lt.2 hcap), scanBits_rest out hleft, if_neg hne]

end

/-! The command around the scan: behind an accepted padding count it completes as the scan does. -/

section
variable {s : State} {ct : CodeTable} {b : Byte} {rest : List Byte} (hct : s.ct = some ct)
  (hpl : s.payload = some (b :: rest)) (hpad : padOk b.toNat (8 * rest.length) = true)
include hct hpl hpad

theorem exec_bitUnpack_of_scan_error {r : Raise}
    (h : scanBits ct s.caps.outSym [] [] (payloadBits b.toNat rest) = .error r) :
    exec .bitUnpack s = .next ((s.discarded .bitUnpack).failed r.kind.code r.info 0x08) :=
  exec_bitUnpack_of_error (by rw [bitUnpack_scan hct hpl hpad, h])

theorem exec_bitUnpack_of_scan_ok {out : List Nat}
    (h : scanBits ct s.caps.outSym [] [] (payloadBits b.toNat rest) = .ok out) :
    exec .bitUnpack s = .next
      { s with outSyms := some out, pad := b, pbits := BitVec.ofNat 64 (8 * rest.length - b.toNat) }.succeeded :=
  exec_bitUnpack_of_ok (by rw [bitUnpack_scan hct hpl hpad, h])

end

/-- Settles O31: the unit's errors before the scan, each carried to the command's completion; behind an accepted padding
count the scan of `codes.flatten ++ left` decides, by OUT_SYM_CAP and by what is left over. -/
theorem bitUnpackDecodesThePayload : Obligations.BitUnpackDecodesThePayload := by
  intro s
  refine ⟨fun hnone => ?_, fun ct hct => ⟨fun hempty => ?_, ?_⟩⟩
  · have hinfo := notReady_info s [.ct, .payload] (by decide)
    exact exec_bitUnpack_of_error ((bitUnpack_notReady hnone).trans (congrArg Except.error hinfo))
  · exact exec_bitUnpack_of_error (bitUnpack_empty hct hempty)
  · rintro b rest r hpl rfl
    refine ⟨fun hbad => ?_, fun hok hinv out codes left hcodes hbits => ?_⟩
    · have hpad : padOk b.toNat (8 * rest.length) = false := Bool.eq_false_iff.2 (mt (padOk_iff _ _).1 hbad)
      rw [← badPad_info b]
      exact exec_bitUnpack_of_error (bitUnpack_badPad hct hpl hpad)
    · have hpad : padOk b.toNat (8 * rest.length) = true := (padOk_iff _ _).2 hok
      have hw := hinv.ct_wf hct
      have hsplit : payloadBits b.toNat rest = codes.flatten ++ left := hbits
      refine ⟨fun hnil hcap => ?_, fun hcap => ?_, fun hne hleft hcap => ?_⟩
      · rw [hnil, List.append_nil] at hsplit
        exact exec_bitUnpack_of_scan_ok hct hpl hpad (hsplit ▸ scanBits_of_codes hw hcodes hcap)
      · exact exec_bitUnpack_of_scan_error hct hpl hpad (hsplit ▸ scanBits_of_too_many hw hcodes hcap left)
      · exact exec_bitUnpack_of_scan_error hct hpl hpad (hsplit ▸ scanBits_of_left_over hw hcodes hcap hne hleft)

end Sys2Proof.Machine

/-! PROOFS of the family `46_composite_and_control.md`: NOP (R250), and a composite as its primitive commands in order
(R251). A primitive command completes between two steps and a composite does not; no step looks at what a completion
changes, so the two runs agree up to `State.succeeded`. -/

namespace Sys2Proof.Machine

/-! NOP (R250). -/

theorem decode_of_rsvField_ne_zero {w : Word} (h : rsvField w ≠ 0) : decode w = .error .reservedBits :=
  if_neg h

/-- Settles O13: NOP has no steps, so it only completes; 0x0 is its encoding, and 0x100 has RSV = 1. -/
theorem nopOnlyCompletes : Obligations.NopOnlyCompletes :=
  ⟨fun _ => exec_of_ok (i := .nop) rfl, decode_encode .nop, decode_of_rsvField_ne_zero (by decide)⟩

/-! A step after a completion (R251, R272). -/

@[simp] theorem succeeded_succeeded (s : State) : s.succeeded.succeeded = s.succeeded := rfl

/-- A command's steps do not look at what the completion of the command before them changed. -/
theorem resultOf_succeeded (i : Instr) (s : State) : resultOf i s.succeeded = (resultOf i s).map State.succeeded := by
  have hblind := resultOf_blind i s .idle s.succeeded.status 0 s.latency s.bus
  refine Eq.trans hblind ?_
  cases h : resultOf i s with
  | error f => rfl
  | ok t =>
    have hsame := resultOf_sameBut h
    simp [rebookResult, Except.map, State.rebook, State.succeeded, hsame.status, hsame.latency, hsame.bus]

section
variable {i : Instr} {s a : State} (hsa : a.succeeded = s.succeeded)
include hsa

theorem map_resultOf_congr : (resultOf i a).map State.succeeded = (resultOf i s).map State.succeeded := by
  rw [← resultOf_succeeded, hsa, resultOf_succeeded]

theorem resultOf_ok_congr {t : State} (h : resultOf i s = .ok t) :
    ∃ b, resultOf i a = .ok b ∧ b.succeeded = t.succeeded := by
  have hmap := map_resultOf_congr (i := i) hsa
  rw [h] at hmap
  cases ha : resultOf i a with
  | ok b => exact ⟨b, rfl, Except.ok.inj (ha ▸ hmap)⟩
  | error f => rw [ha] at hmap; cases hmap

theorem resultOf_error_congr {f : Failure} (h : resultOf i s = .error f) : resultOf i a = .error f := by
  have hmap := map_resultOf_congr (i := i) hsa
  rw [h] at hmap
  cases ha : resultOf i a with
  | ok b => rw [ha] at hmap; cases hmap
  | error g => exact congrArg Except.error (Except.error.inj (ha ▸ hmap))

end

/-! Steps in a row, without a completion between them (R251). -/

/-- The steps of several commands one after another on the result `r`, stopping at the first failure. -/
def resultsFrom (r : Except Failure State) (is : List Instr) : Except Failure State :=
  is.foldl (fun r i => andThen r (resultOf i)) r

/-- A composite's steps are those of its primitive commands (R253, R254). -/
theorem resultOf_composite {i : Instr} (hi : i = .compress ∨ i = .decompress) (s : State) :
    resultOf i s = resultsFrom (.ok s) (compositeSteps i) := by
  rcases hi with rfl | rfl <;> rfl

theorem resultsFrom_error (f : Failure) (is : List Instr) : resultsFrom (.error f) is = .error f := by
  induction is with
  | nil => rfl
  | cons i is ih => exact ih

/-- Commands that succeed in turn, each completing, leave what their steps in a row leave, but for the completions. -/
theorem resultsFrom_of_succeedInTurn {is : List Instr} {s t a : State} (hsa : a.succeeded = s.succeeded)
    (h : succeedInTurn is s t) : ∃ b, resultsFrom (.ok a) is = .ok b ∧ b.succeeded = t.succeeded := by
  induction is generalizing s a with
  | nil => exact ⟨a, rfl, h ▸ hsa⟩
  | cons i is ih =>
    obtain ⟨u, hexec, herr, hrest⟩ := h
    obtain ⟨v, hv, rfl⟩ := ok_of_exec hexec herr
    obtain ⟨b, hb, hbv⟩ := resultOf_ok_congr hsa hv
    have hstep : resultsFrom (.ok a) (i :: is) = resultsFrom (.ok b) is := congrArg (resultsFrom · is) hb
    rw [hstep]
    exact ih (hbv.trans (succeeded_succeeded v).symm) hrest

/-- Behind commands that succeed, a command's failure is that of all their steps in a row. -/
theorem resultsFrom_of_failure {before after : List Instr} {j : Instr} {s u : State} {f : Failure}
    (h : succeedInTurn before s u) (hj : resultOf j u = .error f) :
    resultsFrom (.ok s) (before ++ j :: after) = .error f := by
  obtain ⟨b, hb, hbu⟩ := resultsFrom_of_succeedInTurn rfl h
  calc resultsFrom (.ok s) (before ++ j :: after)
      = resultsFrom (resultsFrom (.ok s) before) (j :: after) := List.foldl_append
    _ = resultsFrom (resultOf j b) after := by rw [hb]; rfl
    _ = .error f := by rw [resultOf_error_congr hbu hj, resultsFrom_error]

/-- The state after commands that succeed, at least one, is one after a completion. -/
theorem succeeded_of_succeedInTurn {i : Instr} {is : List Instr} {s t : State} (h : succeedInTurn (i :: is) s t) :
    t.succeeded = t := by
  induction is generalizing i s with
  | nil =>
    obtain ⟨u, hexec, herr, rfl⟩ := h
    obtain ⟨v, -, rfl⟩ := ok_of_exec hexec herr
    exact succeeded_succeeded v
  | cons j is ih =>
    obtain ⟨u, -, -, hrest⟩ := h
    exact ih hrest

theorem compositeSteps_ne_nil {i : Instr} (hi : i = .compress ∨ i = .decompress) : compositeSteps i ≠ [] := by
  rcases hi with rfl | rfl <;> exact List.cons_ne_nil _ _

/-- Settles O33: the primitive commands' run and the composite's steps in a row agree up to completion, so they reach the
same state, or fail with the same failure, which the composite reports. -/
theorem compositesRunTheirStepsInOrder : Obligations.CompositesRunTheirStepsInOrder := by
  intro i s hi
  refine ⟨fun t h => ?_, fun before j after u v hsteps hbefore hexec herr => ?_⟩
  · obtain ⟨b, hb, hbt⟩ := resultsFrom_of_succeedInTurn rfl h
    obtain ⟨j, is, hcons⟩ := List.exists_cons_of_ne_nil (compositeSteps_ne_nil hi)
    have ht : t.succeeded = t := succeeded_of_succeedInTurn (hcons ▸ h)
    rw [exec_of_ok ((resultOf_composite hi s).trans hb), hbt, ht]
  · obtain ⟨f, hf, rfl⟩ := error_of_exec hexec herr
    have hfail : resultOf i s = .error f := by
      rw [resultOf_composite hi, hsteps, resultsFrom_of_failure hbefore hf]
    exact exec_of_error hfail

end Sys2Proof.Machine

/-! PROOFS of the family `60_exceptions.md`: what a failed command leaves (R273), and the interrupt output (R276). -/

namespace Sys2Proof.Machine

/-! A command's inputs (R273). -/

/-- Two states that differ in working registers, PAD and PBITS only have the same input buffers and length registers. -/
theorem SameBut.inputs {s t : State} (h : SameBut s t) :
    t.mem = s.mem ∧ t.inSymLen = s.inSymLen ∧ t.inByteLen = s.inByteLen :=
  ⟨h.mem, h.inSymLen, h.inByteLen⟩

theorem exec_inputs {i : Instr} {s t : State} (h : exec i s = .next t) :
    t.mem = s.mem ∧ t.inSymLen = s.inSymLen ∧ t.inByteLen = s.inByteLen := by
  rcases exec_cases i s with ⟨u, hu, hx⟩ | ⟨f, _, hx⟩ <;> rw [hx] at h <;> injection h with h <;> subst h
  · exact (resultOf_sameBut hu).inputs
  · exact (discarded_sameBut s i).inputs

/-- Settles O10: an error is the completion of a failure, which discards the command's writes column; neither completion
touches the inputs. -/
theorem failureDiscardsTheWritesColumn : Obligations.FailureDiscardsTheWritesColumn := by
  intro i s t h
  refine ⟨fun herr => ?_, exec_inputs h⟩
  obtain ⟨f, -, rfl⟩ := error_of_exec h herr
  exact ⟨f.kind.code, f.info, f.stage, rfl⟩

/-! The interrupt output (R276). -/

theorem irq_of_done {s : State} (h : s.status.done = true) : s.irq = s.irqEn := by simp [State.irq, h]

theorem irq_of_not_done {s : State} (h : s.status.done = false) : s.irq = false := by simp [State.irq, h]

theorem irq_of_masked {s : State} (h : s.irqEn = false) : s.irq = false := by simp [State.irq, h]

theorem exec_done {i : Instr} {s t : State} (h : exec i s = .next t) : t.status.done = true := by
  rcases exec_cases i s with ⟨_, _, hx⟩ | ⟨_, _, hx⟩ <;> rw [hx] at h <;> injection h with h <;> subst h <;> rfl

theorem exec_irqEn {i : Instr} {s t : State} (h : exec i s = .next t) : t.irqEn = s.irqEn := by
  rcases exec_cases i s with ⟨u, hu, hx⟩ | ⟨f, _, hx⟩ <;> rw [hx] at h <;> injection h with h <;> subst h
  · exact (resultOf_sameBut hu).irqEn
  · exact (discarded_sameBut s i).irqEn

/-- DONE and IRQ_EN after a CTRL write that is no soft reset (R33). -/
theorem writeCtrl_done_irqEn (s : State) {v : Word} (h0 : v.getLsbD 0 = false) :
    (s.writeCtrl v).status.done = (s.status.done && !v.getLsbD 2) ∧ (s.writeCtrl v).irqEn = v.getLsbD 1 := by
  rcases writeCtrl_cases s v with ⟨h1, _⟩ | ⟨_, e⟩
  · rw [h0] at h1; cases h1
  · rw [e]; exact ⟨rfl, rfl⟩

/-- Without SOFT_RESET and ACK it leaves DONE, whatever its IRQ_EN. -/
theorem writeCtrl_done_of_no_ack (s : State) {v : Word} (h0 : v.getLsbD 0 = false) (h2 : v.getLsbD 2 = false) :
    (s.writeCtrl v).status.done = s.status.done := by
  rw [(writeCtrl_done_irqEn s h0).1, h2, Bool.not_false, Bool.and_true]

/-- A CTRL write with SOFT_RESET or ACK clears DONE. -/
theorem writeCtrl_clears_done (s : State) {v : Word} (h : v.getLsbD 0 = true ∨ v.getLsbD 2 = true) :
    (s.writeCtrl v).status.done = false := by
  rcases writeCtrl_cases s v with ⟨_, e⟩ | ⟨h0, _⟩
  · rw [e]; rfl
  · have h2 : v.getLsbD 2 = true := h.resolve_left (by rw [h0]; exact Bool.false_ne_true)
    rw [(writeCtrl_done_irqEn s h0).1, h2, Bool.not_true, Bool.and_false]

/-- A CTRL write without IRQ_EN masks the output; a soft reset clears IRQ_EN too. -/
theorem writeCtrl_irqEn_of_masked (s : State) {v : Word} (h1 : v.getLsbD 1 = false) : (s.writeCtrl v).irqEn = false := by
  rcases writeCtrl_cases s v with ⟨_, e⟩ | ⟨h0, _⟩
  · rw [e]; rfl
  · rw [(writeCtrl_done_irqEn s h0).2, h1]

theorem busWrite_cmd {s : State} (w : Word) (hp : s.phase = .idle) : s.busWrite 0x08 w = s.accept w :=
  busWrite_idle w hp (writeEffective_reg s (by decide)) (by decide)

/-! What clears DONE and what sets it, over every step (R276). -/

/-- The writes that clear DONE: to CTRL with SOFT_RESET or ACK (R33), and to CMD in IDLE (R38). -/
def clearsDone (p : Phase) (a v : Word) : Prop :=
  (a = 0x04 ∧ (v.getLsbD 0 = true ∨ v.getLsbD 2 = true)) ∨ (a = 0x08 ∧ p = .idle)

theorem writeCtrl_done_cases (s : State) (v : Word) :
    (s.writeCtrl v).status.done = s.status.done ∨
    ((s.writeCtrl v).status.done = false ∧ (v.getLsbD 0 = true ∨ v.getLsbD 2 = true)) := by
  by_cases h : v.getLsbD 0 = true ∨ v.getLsbD 2 = true
  · exact .inr ⟨writeCtrl_clears_done s h, h⟩
  · rw [not_or, Bool.not_eq_true, Bool.not_eq_true] at h
    exact .inl (writeCtrl_done_of_no_ack s h.1 h.2)

theorem writeIdle_done_cases (s : State) (a v : Word) :
    (s.writeIdle a v).status.done = s.status.done ∨ ((s.writeIdle a v).status.done = false ∧ a = 0x08) := by
  rcases writeIdle_cases s a v with ⟨ha, e⟩ | e | e | e | ⟨_, e⟩ <;> rw [e]
  · exact .inr ⟨rfl, ha⟩
  all_goals exact .inl rfl

/-- A write leaves DONE, or clears it and is one of those that do. -/
theorem busWrite_done_cases (s : State) (a v : Word) :
    (s.busWrite a v).status.done = s.status.done ∨
    ((s.busWrite a v).status.done = false ∧ clearsDone s.phase a v) := by
  rcases busWrite_cases s a v with ⟨_, e⟩ | ⟨_, hc, e⟩ | ⟨_, _, _, e⟩ | ⟨_, _, hp, e⟩ <;> rw [e]
  · exact .inl rfl
  · have ha : a = 0x04 := BitVec.eq_of_toNat_eq ((isCtrl_iff a).1 hc)
    exact (writeCtrl_done_cases s v).imp_right fun ⟨hd, hv⟩ => ⟨hd, .inl ⟨ha, hv⟩⟩
  · exact .inl rfl
  · exact (writeIdle_done_cases s a v).imp_right fun ⟨hd, ha⟩ => ⟨hd, .inr ⟨ha, hp⟩⟩

theorem busRead_done (s : State) (a : Word) : (s.busRead a).status.done = s.status.done := by
  obtain ⟨-, hstatus, -⟩ := busRead_frame s a
  rw [hstatus]

/-- The host's next access is a write that clears DONE. -/
def State.hostClearsDone (s : State) : Prop := ∃ a v rest, s.bus = .write a v :: rest ∧ clearsDone s.phase a v

/-- The host's turn leaves DONE, or clears it by such a write; it never sets it. -/
theorem hostStep_done_cases (s : State) :
    s.hostStep.status.done = s.status.done ∨ (s.hostStep.status.done = false ∧ s.hostClearsDone) := by
  rcases hostStep_cases s with ⟨_, e⟩ | ⟨a, rest, _, e⟩ | ⟨a, v, rest, hb, e⟩ | ⟨rest, _, _, e⟩ | ⟨rest, _, _, e⟩ <;> rw [e]
  · exact .inl rfl
  · exact .inl (busRead_done _ a)
  · exact (busWrite_done_cases { s with bus := rest } a v).imp_right fun ⟨hd, hc⟩ => ⟨hd, a, v, rest, hb, hc⟩
  · exact .inl (busRead_done _ _)
  · exact .inl (busRead_done _ _)

/-- Everything a step can do to DONE: the engine's completion sets it, the host's turn leaves it or clears it. -/
theorem step_done_cases {s t : State} (h : step s = .next t) :
    (s.engineTurn = true ∧ t.status.done = true) ∨ t.status.done = s.status.done ∨
    (t.status.done = false ∧ s.hostClearsDone) := by
  rcases step_cases s with ⟨_, e⟩ | ⟨_, _, _, _, e⟩ | ⟨_, _, i, _, ht, _, e⟩ | ⟨_, _, _, _, ht, _, e⟩ <;> rw [e] at h
  · injection h with h; subst h; exact .inr (hostStep_done_cases s)
  · injection h with h; subst h; exact .inr (hostStep_done_cases s.tick)
  · exact .inl ⟨ht, exec_done h⟩
  · injection h with h; subst h; exact .inl ⟨ht, rfl⟩

/-- Settles O57: the output clause by clause from DONE and IRQ_EN, and the two clauses over every step from the ways a
step can treat DONE. -/
theorem irqFollowsDoneAndEnable : Obligations.IrqFollowsDoneAndEnable := by
  intro s
  refine ⟨rfl, fun i t h => ?completion, fun v hv => ?lowered, fun v h0 _ h2 => ?masked, fun w hp => ?accepted,
    fun _ => rfl, fun t h hs ht => ?cleared, fun t h hs ht => ?set⟩
  case completion => rw [irq_of_done (exec_done h), exec_irqEn h]
  case lowered =>
    rw [busWrite_ctrl s v (by decide)]
    rcases hv with h0 | h2 | h1
    · exact irq_of_not_done (writeCtrl_clears_done s (.inl h0))
    · exact irq_of_not_done (writeCtrl_clears_done s (.inr h2))
    · exact irq_of_masked (writeCtrl_irqEn_of_masked s h1)
  case masked => rw [busWrite_ctrl s v (by decide)]; exact writeCtrl_done_of_no_ack s h0 h2
  case accepted => rw [busWrite_cmd w hp]; exact irq_of_not_done rfl
  case cleared =>
    rcases step_done_cases h with ⟨_, hdone⟩ | hsame | ⟨_, hclears⟩
    · rw [ht] at hdone; cases hdone
    · rw [ht, hs] at hsame; cases hsame
    · exact hclears
  case set =>
    rcases step_done_cases h with ⟨hturn, _⟩ | hsame | ⟨hdone, _⟩
    · exact hturn
    · rw [ht, hs] at hsame; cases hsame
    · rw [ht] at hdone; cases hdone

end Sys2Proof.Machine

/-! PROOFS of the family `other`, part 1: the invariant (R9, R22 to R30, R34, R38, R270). It holds after a reset, and
every update a command or a host access makes keeps it, so every step does. -/

namespace Sys2Proof.Machine

/-! Reset (R300, R301). -/

/-- Power-on holds no values, so only the capacities are left to check. -/
theorem powerOn_inv {c : Caps} (h : c.wf) : (State.powerOn c).Inv where
  caps := h
  memWf := List.Pairwise.nil
  memRange := by rintro _ ⟨⟩
  ft := by rintro _ ⟨⟩
  tree := by rintro _ ⟨⟩
  ct := by rintro _ ⟨⟩
  payload := by rintro _ ⟨⟩
  outBytes := by rintro _ ⟨⟩
  outSyms := by rintro _ ⟨⟩
  pad := Nat.zero_le _
  pbits := Nat.zero_le _
  noErr _ := ⟨rfl, rfl, rfl⟩
  errCode := by rintro ⟨⟩
  busy := by rintro _ _ ⟨⟩

/-- The free capacities are within R9's bounds. -/
theorem config_caps_wf : Config.caps.wf := by
  have := Config.inSymSlack.isLt
  have := Config.inByteSlack.isLt
  have := Config.outByteSlack.isLt
  have := Config.outSymSlack.isLt
  have := Config.payloadSlack.isLt
  simp only [Caps.wf, Config.caps]
  omega

/-- Settles O40: power-on meets the invariant for all legal capacities, the free ones among them. -/
theorem resetMeetsTheInvariant : Obligations.ResetMeetsTheInvariant :=
  ⟨fun _ => powerOn_inv, powerOn_inv config_caps_wf⟩

namespace State.Inv

variable {s : State} (h : s.Inv)
include h

/-! The working registers (R23 to R29). -/

theorem writeFt {ft : FreqTable} (hft : FreqTable.wf ft) : (s.writeFt (some ft)).Inv :=
  { h with
    ft := by rintro _ ⟨⟩; exact hft
    tree := by rintro _ ⟨⟩
    ct := by rintro _ ⟨⟩ }

theorem writeTree {ft : FreqTable} (hft : s.ft = some ft) (hne : ft ≠ []) : (s.writeTree (some (build ft))).Inv :=
  { h with
    tree := by rintro _ ⟨⟩; exact ⟨ft, hft, hne, rfl⟩
    ct := by rintro _ ⟨⟩ }

theorem writeCt {t : Tree} (ht : s.tree = some t) : (s.writeCt (some (deriveCodes t))).Inv :=
  { h with ct := by rintro _ ⟨⟩; exact ⟨t, ht, rfl⟩ }

theorem writePayload {b : List Byte} (hb : b.length ≤ s.caps.payload) : { s with payload := some b }.Inv :=
  { h with payload := by rintro _ ⟨⟩; exact hb }

theorem writeOutBytes {b : List Byte} (hb : b.length ≤ s.caps.outByte) : { s with outBytes := some b }.Inv :=
  { h with outBytes := by rintro _ ⟨⟩; exact hb }

theorem writeOutSyms {x : List Nat} (hx : x.length ≤ s.caps.outSym ∧ ∀ y ∈ x, y ≤ symMax) :
    { s with outSyms := some x }.Inv :=
  { h with outSyms := by rintro _ ⟨⟩; exact hx }

theorem writePad {p : Byte} {n : BitVec 64} (hp : p.toNat ≤ 8) (hn : n.toNat ≤ 8 * s.caps.payload) :
    { s with pad := p, pbits := n }.Inv :=
  { h with
    pad := hp
    pbits := hn }

/-- A register that is `none` has nothing to check, nor have those derived from it (R29). -/
theorem invalidate (r : WorkReg) : (s.invalidate r).Inv := by
  cases r with
  | ft => exact { h with ft := by rintro _ ⟨⟩, tree := by rintro _ ⟨⟩, ct := by rintro _ ⟨⟩ }
  | tree => exact { h with tree := by rintro _ ⟨⟩, ct := by rintro _ ⟨⟩ }
  | ct => exact { h with ct := by rintro _ ⟨⟩ }
  | payload => exact { h with payload := by rintro _ ⟨⟩ }
  | outBytes => exact { h with outBytes := by rintro _ ⟨⟩ }
  | outSyms => exact { h with outSyms := by rintro _ ⟨⟩ }

theorem foldl_invalidate (rs : List WorkReg) : (rs.foldl State.invalidate s).Inv := by
  induction rs generalizing s with
  | nil => exact h
  | cons r rs ih => exact ih (h.invalidate r)

/-- R273 keeps the invariant: it invalidates registers, and may clear PAD and PBITS. -/
theorem discarded (i : Instr) : (s.discarded i).Inv := by
  rw [← discardWrites_eq_discarded, State.discardWrites]
  have hregs := h.foldl_invalidate (writesColumn i)
  split
  · exact hregs.writePad (Nat.zero_le _) (Nat.zero_le _)
  · exact hregs

/-! Completion (R272). -/

theorem succeeded : s.succeeded.Inv :=
  { h with
    noErr := fun _ => ⟨rfl, rfl, rfl⟩
    errCode := by rintro ⟨⟩
    busy := by rintro _ _ ⟨⟩ }

theorem failed {c : BitVec 4} (i : Word) (g : Byte) (hc : 1 ≤ c.toNat ∧ c.toNat ≤ 9) : (s.failed c i g).Inv :=
  { h with
    noErr := by rintro ⟨⟩
    errCode := fun _ => hc
    busy := by rintro _ _ ⟨⟩ }


/-! The commands' steps. -/

theorem freqAnalyze {t : State} (ht : freqAnalyze s = .ok t) : t.Inv := by
  obtain ⟨-, hsyms, rfl⟩ := freqAnalyze_eq_ok.1 ht
  refine h.writeFt (freqTable_wf hsyms ?_)
  have := s.inSymLen.isLt
  rw [inSyms_length, countMax]
  omega

theorem treeBuild {t : State} (ht : treeBuild s = .ok t) : t.Inv := by
  obtain ⟨ft, hft, hne, rfl⟩ := treeBuild_eq_ok.1 ht
  exact h.writeTree hft hne

theorem codeDerive {t : State} (ht : codeDerive s = .ok t) : t.Inv := by
  obtain ⟨tr, htr, rfl⟩ := codeDerive_eq_ok.1 ht
  exact h.writeCt htr

theorem bitPack {t : State} (ht : bitPack s = .ok t) : t.Inv := by
  obtain ⟨ct, codes, -, -, -, hcap, rfl⟩ := bitPack_eq_ok ht
  have hpad := padCount_le codes.flatten.length
  have hmod := add_padCount_mod codes.flatten.length
  have hlen := packBits_length codes.flatten
  refine (h.writePayload hcap).writePad (by rw [padCount_toNat]; omega) ?_
  calc (BitVec.ofNat 64 codes.flatten.length).toNat
      ≤ codes.flatten.length := by rw [BitVec.toNat_ofNat]; exact Nat.mod_le _ _
    _ ≤ 8 * s.caps.payload := by omega

theorem contSerialize {t : State} (ht : contSerialize s = .ok t) : t.Inv := by
  obtain ⟨ft, pl, -, -, hcap, rfl⟩ := contSerialize_eq_ok ht
  exact h.writeOutBytes hcap

theorem contDeserialize {t : State} (ht : contDeserialize s = .ok t) : t.Inv := by
  obtain ⟨-, ft, pl, hft, -, hcap, rfl⟩ := contDeserialize_eq_ok.1 ht
  exact (h.writeFt hft).writePayload hcap

theorem payloadCheck {t : State} (ht : payloadCheck s = .ok t) : t.Inv := by
  obtain ⟨rfl, -⟩ := payloadCheck_eq_ok ht
  exact h

/-- The symbols of a valid CT are those of a legal FT (R29). -/
theorem ct_syms_le {ct : CodeTable} (hct : s.ct = some ct) {y : Nat} (hy : y ∈ ct.map CodeEntry.sym) : y ≤ symMax := by
  obtain ⟨t, ht, rfl⟩ := h.ct ct hct
  obtain ⟨ft, hft, hne, rfl⟩ := h.tree t ht
  obtain ⟨hsyms, -⟩ := h.ft ft hft
  rw [deriveCodes_syms hne] at hy
  obtain ⟨e, he, rfl⟩ := List.mem_map.1 hy
  exact hsyms e he

theorem bitUnpack {t : State} (ht : bitUnpack s = .ok t) : t.Inv := by
  obtain ⟨ct, b, rest, out, hct, hpl, hpad, hscan, rfl⟩ := bitUnpack_eq_ok ht
  obtain ⟨hcap, hsyms⟩ := scanBits_ok hscan (Nat.zero_le _) (by simp)
  have hrest := h.payload _ hpl
  rw [List.length_cons] at hrest
  rw [padOk_iff] at hpad
  refine (h.writeOutSyms ⟨hcap, fun y hy => h.ct_syms_le hct (hsyms y hy)⟩).writePad (by omega) ?_
  calc (BitVec.ofNat 64 (8 * rest.length - b.toNat)).toNat
      ≤ 8 * rest.length - b.toNat := by rw [BitVec.toNat_ofNat]; exact Nat.mod_le _ _
    _ ≤ 8 * s.caps.payload := by omega

theorem resultOf {i : Instr} {t : State} (ht : resultOf i s = .ok t) : t.Inv := by
  cases i with
  | nop => cases ht; exact h
  | freqAnalyze => exact h.freqAnalyze (runUnit_eq_ok.1 ht)
  | treeBuild => exact h.treeBuild (runUnit_eq_ok.1 ht)
  | codeDerive => exact h.codeDerive (runUnit_eq_ok.1 ht)
  | bitPack => exact h.bitPack (runUnit_eq_ok.1 ht)
  | contSerialize => exact h.contSerialize (runUnit_eq_ok.1 ht)
  | contDeserialize => exact h.contDeserialize (runUnit_eq_ok.1 ht)
  | payloadCheck => exact h.payloadCheck (runUnit_eq_ok.1 ht)
  | bitUnpack => exact h.bitUnpack (runUnit_eq_ok.1 ht)
  | compress =>
    obtain ⟨a, b, c, d, h1, h2, h3, h4, h5⟩ := compressSteps_eq_ok.1 ht
    exact ((((h.freqAnalyze h1).treeBuild h2).codeDerive h3).bitPack h4).contSerialize h5
  | decompress =>
    obtain ⟨a, b, c, d, h1, h2, h3, h4, h5⟩ := decompressSteps_eq_ok.1 ht
    exact ((((h.contDeserialize h1).treeBuild h2).codeDerive h3).payloadCheck h4).bitUnpack h5

theorem exec (i : Instr) : SafeOutcome (exec i s) := by
  rcases exec_cases i s with ⟨t, ht, e⟩ | ⟨f, -, e⟩
  · exact ⟨_, e, (h.resultOf ht).succeeded⟩
  · exact ⟨_, e, (h.discarded i).failed f.info f.stage (errCode_bounds f.kind)⟩

/-! The host's accesses (R33, R38, R62, R63, R65, R301). -/

theorem accept (w : Word) : (s.accept w).Inv :=
  { h with
    noErr := fun _ => ⟨rfl, rfl, rfl⟩
    errCode := by rintro ⟨⟩
    busy := by rintro _ _ ⟨⟩; exact ⟨rfl, rfl, rfl, rfl⟩ }

theorem softReset : s.softReset.Inv :=
  { powerOn_inv h.caps with
    memWf := h.memWf
    memRange := h.memRange }

theorem writeCtrl (v : Word) : (s.writeCtrl v).Inv := by
  rcases writeCtrl_cases s v with ⟨-, e⟩ | ⟨-, e⟩ <;> rw [e]
  · exact h.softReset
  · refine { h with busy := fun w k hp => ?_ }
    obtain ⟨hw, hk, hdone, herr⟩ := h.busy w k hp
    exact ⟨hw, hk, by simp [hdone], herr⟩

theorem writeRam {a v : Word} (he : s.writeEffective a = true) (hr : regionOf a ≠ .regs) : (s.writeRam a v).Inv :=
  { h with
    memWf := writeRam_wf a v h.memWf
    memRange := fun x hx => (writeRam_range he hr hx).elim id (h.memRange x) }

theorem busWrite (a v : Word) : (s.busWrite a v).Inv := by
  rcases busWrite_cases s a v with ⟨-, e⟩ | ⟨-, -, e⟩ | ⟨-, -, -, e⟩ | ⟨he, -, -, e⟩ <;> rw [e]
  · exact { h with }
  · exact h.writeCtrl v
  · exact { h with }
  · rcases writeIdle_cases s a v with ⟨-, e⟩ | e | e | e | ⟨hr, e⟩ <;> rw [e]
    · exact h.accept v
    · exact { h with }
    · exact { h with }
    · exact h
    · exact h.writeRam he hr

theorem busRead (a : Word) : (s.busRead a).Inv := by
  rcases busRead_cases s a with ⟨-, e⟩ | ⟨-, -, -, e⟩ | ⟨-, -, e⟩ <;> rw [e] <;> exact { h with }

theorem hostStep : s.hostStep.Inv := by
  have hrest : ∀ rest, State.Inv { s with bus := rest } := fun _ => { h with }
  rcases hostStep_cases s with ⟨-, e⟩ | ⟨a, rest, -, e⟩ | ⟨a, v, rest, -, e⟩ | ⟨rest, -, -, e⟩ | ⟨rest, -, -, e⟩ <;> rw [e]
  · exact h
  · exact (hrest rest).busRead a
  · exact (hrest rest).busWrite a v
  · exact h.busRead statusAddr
  · exact (hrest rest).busRead statusAddr

end State.Inv

/-- Settles O41: each of the four things a step can do keeps the invariant. -/
theorem stepKeepsTheInvariant : Obligations.StepKeepsTheInvariant := by
  intro s h
  have htick : s.tick.Inv := { h with }
  rcases step_cases s with ⟨-, e⟩ | ⟨_, _, -, -, e⟩ | ⟨_, _, i, -, -, -, e⟩ | ⟨w, _, _, -, -, -, e⟩ <;> rw [e]
  · exact ⟨_, rfl, h.hostStep⟩
  · exact ⟨_, rfl, htick.hostStep⟩
  · exact h.exec i
  · exact ⟨_, rfl, h.failed w (opcField w) (errCode_bounds .illegalCommand)⟩

end Sys2Proof.Machine

/-! PROOFS of the family `other`, part 2: the decoder's words, the step, and what every command does: its completion
(R272), its frame (R93), its first check (R274) and the errors its steps raise (R270). -/

namespace Sys2Proof.Machine

/-! Words and fields (R69, R91, R93). -/

/-- Settles O1: eleven encodings, three words with RSV not 0, and two opcodes in the gaps. -/
theorem tableWordsDecode : Obligations.TableWordsDecode :=
  ⟨decode_encode .nop, decode_encode .freqAnalyze, decode_encode .treeBuild, decode_encode .codeDerive,
    decode_encode .bitPack, decode_encode .contSerialize, decode_encode .contDeserialize, decode_encode .payloadCheck,
    decode_encode .bitUnpack, decode_encode .compress, decode_encode .decompress,
    decode_of_rsvField_ne_zero (by decide), decode_of_rsvField_ne_zero (by decide), rfl, rfl,
    decode_of_rsvField_ne_zero (by decide)⟩

/-- Settles O2. -/
theorem encodeThenDecode : Obligations.EncodeThenDecode := fun i _ => decode_encode i

/-- Settles O27: the laws of `be32` and `beVal`. -/
theorem bigEndianFieldsRoundTrip : Obligations.BigEndianFieldsRoundTrip :=
  ⟨fun _ => beVal_be32, fun a b c d => ⟨be32_beVal a b c d, beVal_four a b c d⟩⟩

/-! Whose turn it is (R70, R91, R96). -/

theorem engineTurn_iff {s : State} {w : Word} {k : Nat} (hp : s.phase = .busy w k) :
    s.engineTurn = true ↔ s.latency = 0 ∨ s.bus = [] := by
  simp [State.engineTurn, State.isBusy, hp]

theorem step_of_decoded {s : State} {w : Word} {k : Nat} {i : Instr} (hp : s.phase = .busy w k)
    (ht : s.engineTurn = true) (hd : decode w = .ok i) : step s = exec i s := by
  rw [step_of_engineTurn hp ht, runCommand, hd]

theorem step_of_hostTurn {s : State} {w : Word} {k : Nat} (hp : s.phase = .busy w k) (ht : s.engineTurn = false) :
    step s = .next s.tick.hostStep := by
  simp [step, hp, ht]

theorem step_idle {s : State} (hp : s.phase = .idle) : step s = .next s.hostStep := by
  simp [step, hp]

theorem hostStep_read {s : State} {a : Word} {rest : List HostOp} (h : s.bus = .read a :: rest) :
    s.hostStep = { s with bus := rest }.busRead a := by
  rw [State.hostStep, h]

theorem hostStep_write {s : State} {a v : Word} {rest : List HostOp} (h : s.bus = .write a v :: rest) :
    s.hostStep = { s with bus := rest }.busWrite a v := by
  rw [State.hostStep, h]

/-- WAIT reads STATUS and stays queued while BUSY. -/
theorem hostStep_wait {s : State} {rest : List HostOp} (h : s.bus = .wait :: rest) :
    s.hostStep = { s with
      bus := if (s.busValue 0x0C).getLsbD 0 then .wait :: rest else rest
      reads := s.reads ++ [s.busValue 0x0C] } := by
  have hbit : (s.busValue 0x0C).getLsbD 0 = s.isBusy := busValue_status_bit0 s
  rw [hbit, State.hostStep, h]
  cases s.isBusy
  · exact busRead_status _
  · refine (busRead_status s).trans ?_
    rw [if_pos rfl, ← h]
    rfl

/-- Settles O5: the engine's turn is `runCommand`, every other turn is the host's, which takes its next access. -/
theorem stepRunsTheDecodedCommand : Obligations.StepRunsTheDecodedCommand := by
  intro s
  refine ⟨fun w k i hp ht hd => step_of_decoded hp ((engineTurn_iff hp).2 ht) hd, fun w k hp hl hb => ?_, step_idle,
    fun h => ?_, fun _ _ => hostStep_read, fun _ _ _ => hostStep_write, fun _ => hostStep_wait⟩
  · refine step_of_hostTurn hp (Bool.eq_false_iff.2 fun ht => ?_)
    rcases (engineTurn_iff hp).1 ht with h | h
    · exact hl h
    · exact hb h
  · rw [State.hostStep, h]

/-- Settles O6: each of the four things a step can do answers a next state. -/
theorem stepAlwaysAnswersNext : Obligations.StepAlwaysAnswersNext := by
  intro s
  rcases step_cases s with ⟨_, e⟩ | ⟨_, _, _, _, e⟩ | ⟨_, _, i, _, _, _, e⟩ | ⟨_, _, _, _, _, _, e⟩
  · exact ⟨_, e⟩
  · exact ⟨_, e⟩
  · rw [e]; exact exec_next i s
  · exact ⟨_, e⟩

/-! Completion (R272). -/

/-- No command touches the sticky bits (R34). -/
theorem exec_sticky {i : Instr} {s t : State} (h : exec i s = .next t) :
    t.status.busErr = s.status.busErr ∧ t.status.overrun = s.status.overrun := by
  rcases exec_cases i s with ⟨u, hu, hx⟩ | ⟨f, -, hx⟩ <;> rw [hx] at h <;> injection h with h <;> subst h
  · simp [(resultOf_sameBut hu).status]
  · simp [(discarded_sameBut s i).status]

/-- Settles O8: a success and a failure each complete, and report what STATUS and ERRINFO show. -/
theorem everyCommandCompletes : Obligations.EveryCommandCompletes := by
  intro i s
  rcases exec_cases i s with ⟨t, -, e⟩ | ⟨f, -, e⟩
  · exact ⟨_, e, rfl, rfl, rfl, fun _ => ⟨rfl, rfl, rfl⟩, by rintro ⟨⟩, exec_sticky e⟩
  · exact ⟨_, e, rfl, rfl, rfl, by rintro ⟨⟩, fun _ => errCode_bounds f.kind, exec_sticky e⟩

/-! What DECOMPRESS's steps do on success (R254). -/

/-- Everything DECOMPRESS's steps do on success, for `ct` the codes of the container's table. -/
theorem decompressSteps_success {s t : State} :
    decompressSteps s = .ok t ↔
      s.inByteLen.toNat ≤ s.caps.inByte ∧ ∃ ft b rest out, FreqTable.wf ft ∧ ft ≠ [] ∧
        s.inBytes = containerBytes ft (b :: rest) ∧ rest.length + 1 ≤ s.caps.payload ∧
        expectedBytes ft (deriveCodes (build ft)) ≤ rest.length + 1 ∧ padOk b.toNat (8 * rest.length) = true ∧
        scanBits (deriveCodes (build ft)) s.caps.outSym [] [] (payloadBits b.toNat rest) = .ok out ∧
        t = { s with
          ft := some ft
          tree := some (build ft)
          ct := some (deriveCodes (build ft))
          payload := some (b :: rest)
          outSyms := some out
          pad := b
          pbits := BitVec.ofNat 64 (8 * rest.length - b.toNat) } := by
  rw [decompressSteps_eq_ok]
  constructor
  · rintro ⟨a, b, c, d, h1, h2, h3, h4, h5⟩
    obtain ⟨hin, ft, pl, hft, hbytes, hcap, rfl⟩ := contDeserialize_eq_ok.1 h1
    obtain ⟨ft', e1, hne, rfl⟩ := treeBuild_eq_ok.1 h2
    obtain ⟨tr, e2, rfl⟩ := codeDerive_eq_ok.1 h3
    obtain ⟨rfl, ft'', ct, pl', e3, e4, e5, hlen⟩ := payloadCheck_eq_ok h4
    obtain ⟨ct', p, rest, out, e6, e7, hpad, hscan, rfl⟩ := bitUnpack_eq_ok h5
    simp only [State.writeFt_ft, State.writeTree_ft, State.writeTree_tree, State.writeTree_payload, State.writeCt_ft,
      State.writeCt_ct, State.writeCt_payload, Option.some.injEq] at e1 e2 e3 e4 e5 e6 e7
    subst e1 e2 e3 e4 e5 e6 e7
    exact ⟨hin, ft, p, rest, out, hft, hne, hbytes, hcap, hlen, hpad, hscan, rfl⟩
  · rintro ⟨hin, ft, p, rest, out, hft, hne, hbytes, hcap, hlen, hpad, hscan, rfl⟩
    let c : State := { s with
      ft := some ft, tree := some (build ft), ct := some (deriveCodes (build ft)), payload := some (p :: rest) }
    refine ⟨_, _, c, c, contDeserialize_eq_ok.2 ⟨hin, ft, p :: rest, hft, hbytes, hcap, rfl⟩,
      treeBuild_eq_ok.2 ⟨ft, rfl, hne, rfl⟩, codeDerive_eq_ok.2 ⟨_, rfl, rfl⟩, ?_, ?_⟩
    · exact (payloadCheck_some (s := c) rfl rfl rfl).trans (if_neg (Nat.not_lt.2 hlen))
    · rw [bitUnpack_scan (s := c) rfl rfl hpad]
      simp only [c, hscan]

/-! The frame (R29, R93). -/

/-- The working registers, PAD and PBITS that are outside command `i`'s writes, and what R29 invalidates with them, are
in `t` as in `s`. -/
def KeepsUnwritten (i : Instr) (s t : State) : Prop :=
  (i ∉ [.freqAnalyze, .contDeserialize, .compress, .decompress] → t.ft = s.ft) ∧
  (i ∉ [.freqAnalyze, .treeBuild, .contDeserialize, .compress, .decompress] → t.tree = s.tree) ∧
  (i ∉ [.freqAnalyze, .treeBuild, .codeDerive, .contDeserialize, .compress, .decompress] → t.ct = s.ct) ∧
  (i ∉ [.bitPack, .contDeserialize, .compress, .decompress] → t.payload = s.payload) ∧
  (i ∉ [.contSerialize, .compress] → t.outBytes = s.outBytes) ∧
  (i ∉ [.bitUnpack, .decompress] → t.outSyms = s.outSyms) ∧
  (i ∉ [.bitPack, .bitUnpack, .compress, .decompress] → t.pad = s.pad ∧ t.pbits = s.pbits)

theorem discarded_keepsUnwritten (i : Instr) (s : State) : KeepsUnwritten i s (s.discarded i) := by
  cases i <;> simp [KeepsUnwritten, State.discarded]

theorem resultOf_keepsUnwritten {i : Instr} {s t : State} (h : resultOf i s = .ok t) : KeepsUnwritten i s t := by
  cases i with
  | nop => cases h; simp [KeepsUnwritten]
  | freqAnalyze => obtain ⟨-, -, rfl⟩ := freqAnalyze_eq_ok.1 (runUnit_eq_ok.1 h); simp [KeepsUnwritten]
  | treeBuild => obtain ⟨_, -, -, rfl⟩ := treeBuild_eq_ok.1 (runUnit_eq_ok.1 h); simp [KeepsUnwritten]
  | codeDerive => obtain ⟨_, -, rfl⟩ := codeDerive_eq_ok.1 (runUnit_eq_ok.1 h); simp [KeepsUnwritten]
  | bitPack => obtain ⟨_, _, -, -, -, -, rfl⟩ := bitPack_eq_ok (runUnit_eq_ok.1 h); simp [KeepsUnwritten]
  | contSerialize => obtain ⟨_, _, -, -, -, rfl⟩ := contSerialize_eq_ok (runUnit_eq_ok.1 h); simp [KeepsUnwritten]
  | contDeserialize =>
    obtain ⟨-, _, _, -, -, -, rfl⟩ := contDeserialize_eq_ok.1 (runUnit_eq_ok.1 h); simp [KeepsUnwritten]
  | payloadCheck => obtain ⟨rfl, -⟩ := payloadCheck_eq_ok (runUnit_eq_ok.1 h); simp [KeepsUnwritten]
  | bitUnpack => obtain ⟨_, _, _, _, -, -, -, -, rfl⟩ := bitUnpack_eq_ok (runUnit_eq_ok.1 h); simp [KeepsUnwritten]
  | compress =>
    obtain ⟨-, -, -, _, _, -, -, -, -, rfl⟩ := (compressSteps_success rfl rfl).1 h; simp [KeepsUnwritten]
  | decompress =>
    obtain ⟨-, _, _, _, _, -, -, -, -, -, -, -, rfl⟩ := decompressSteps_success.1 h; simp [KeepsUnwritten]

/-- What `SameBut` says of the RAMs, the capacities, the host's registers and the host's side. -/
theorem SameBut.frame {s t : State} (h : SameBut s t) :
    (∀ a, t.ramByte a = s.ramByte a) ∧ t.mem = s.mem ∧ t.caps = s.caps ∧ t.inSymLen = s.inSymLen ∧
    t.inByteLen = s.inByteLen ∧ t.cmd = s.cmd ∧ t.irqEn = s.irqEn ∧ t.bus = s.bus ∧ t.reads = s.reads ∧
    t.draws = s.draws :=
  ⟨fun a => by rw [State.ramByte, h.mem, State.ramByte], h.mem, h.caps, h.inSymLen, h.inByteLen, h.cmd, h.irqEn, h.bus,
    h.reads, h.draws⟩

/-- A command changes what its steps or R273 change, and in its completion the phase, STATUS and ERRINFO. -/
theorem exec_frame {i : Instr} {s t : State} (h : exec i s = .next t) :
    ∃ u p st e, SameBut s u ∧ KeepsUnwritten i s u ∧ t = { u with phase := p, status := st, errInfo := e } := by
  rcases exec_cases i s with ⟨u, hu, hx⟩ | ⟨f, -, hx⟩ <;> rw [hx] at h <;> injection h with h <;> subst h
  · exact ⟨u, _, _, _, resultOf_sameBut hu, resultOf_keepsUnwritten hu, rfl⟩
  · exact ⟨s.discarded i, _, _, _, discarded_sameBut s i, discarded_keepsUnwritten i s, rfl⟩

/-- Settles O9: neither the steps nor R273 change more than the writes column, and a completion no register of these. -/
theorem commandsLeaveTheRestUnchanged : Obligations.CommandsLeaveTheRestUnchanged := by
  intro i s t h
  obtain ⟨u, _, _, _, hsame, hkeeps, rfl⟩ := exec_frame h
  obtain ⟨h1, h2, h3, h4, h5, h6, h7, h8, h9, h10⟩ := hsame.frame
  exact ⟨h1, h2, h3, h4, h5, h6, h7, h8, h9, h10, hkeeps⟩

/-! How the composites' steps fail (R253, R254). -/

/-- The failures R253 lists for COMPRESS from `s`. -/
inductive CompressFails (s : State) : Failure → Prop
  | inputCapacity : CompressFails s ⟨.capacityExceeded, 1, 0x01⟩
  | invalidSymbol (i : Nat) (hi : i < s.inSymLen.toNat) (hbad : symMax < s.inSym i) :
      CompressFails s ⟨.invalidInput, BitVec.ofNat 32 i, 0x01⟩
  | emptyInput (h : s.inSymLen = 0) : CompressFails s ⟨.invalidInput, 0, 0x02⟩
  | payloadCapacity : CompressFails s ⟨.capacityExceeded, 5, 0x04⟩
  | outputCapacity : CompressFails s ⟨.capacityExceeded, 3, 0x05⟩

/-- COMPRESS's steps fail only as listed. The registers they require were just written and every input symbol has a code,
so NotReady and MissingCode do not occur; an empty FT is that of an empty input. -/
theorem compressSteps_fails {s : State} {f : Failure} (h : compressSteps s = .error f) : CompressFails s f := by
  rcases compressSteps_eq_error.1 h with ⟨r, hr, rfl⟩ | ⟨a, ha, h⟩
  · rcases freqAnalyze_eq_error hr with ⟨rfl, -⟩ | ⟨-, i, hi, rfl, hbad⟩
    · exact .inputCapacity
    · exact .invalidSymbol i hi hbad
  obtain ⟨hin, -, rfl⟩ := freqAnalyze_eq_ok.1 ha
  rcases h with ⟨r, hr, rfl⟩ | ⟨b, hb, h⟩
  · rcases treeBuild_eq_error.1 hr with ⟨hft, -⟩ | ⟨hft, rfl⟩
    · cases hft
    · have hnil : s.inSyms = [] := freqTable_eq_nil.1 (Option.some.inj hft)
      have hlen := inSyms_length s
      rw [hnil] at hlen
      exact .emptyInput (BitVec.eq_of_toNat_eq hlen.symm)
  obtain ⟨ft, hft, hne, rfl⟩ := treeBuild_eq_ok.1 hb
  obtain rfl : freqTable s.inSyms = ft := Option.some.inj hft
  rcases h with ⟨r, hr, rfl⟩ | ⟨c, hc, h⟩
  · obtain ⟨htree, -⟩ := codeDerive_eq_error.1 hr
    cases htree
  obtain ⟨tr, htr, rfl⟩ := codeDerive_eq_ok.1 hc
  obtain rfl : build (freqTable s.inSyms) = tr := Option.some.inj htr
  rcases h with ⟨r, hr, rfl⟩ | ⟨d, hd, r, hr, rfl⟩
  · rcases bitPack_eq_error hr with ⟨hct, -⟩ | ⟨ct, hct, ⟨-, hcap⟩ | ⟨-, x, hx, hcode, -⟩ | ⟨-, rfl⟩⟩
    · cases hct
    · exact absurd hin (Nat.not_le.2 hcap)
    · obtain rfl : deriveCodes (build (freqTable s.inSyms)) = ct := Option.some.inj hct
      obtain ⟨codes, hcodes⟩ := exists_codesOf_input hne
      exact absurd hcode (codeOf_ne_none_of_codesOf hcodes x hx)
    · exact .payloadCapacity
  · obtain ⟨ct, codes, -, -, -, -, rfl⟩ := bitPack_eq_ok hd
    rcases contSerialize_eq_error hr with ⟨hft | hpl, -⟩ | rfl
    · cases hft
    · cases hpl
    · exact .outputCapacity

/-- The failures R254 lists for DECOMPRESS from `s`. -/
inductive DecompressFails (s : State) : Failure → Prop
  | inputCapacity : DecompressFails s ⟨.capacityExceeded, 2, 0x06⟩
  | corruptHeader (sub i : Nat) (h1 : 1 ≤ sub) (h7 : sub ≤ 7) :
      DecompressFails s ⟨.corruptHeader, BitVec.ofNat 32 (sub + 256 * i), 0x06⟩
  | payloadCapacity : DecompressFails s ⟨.capacityExceeded, 5, 0x06⟩
  | emptyTable (pl : List Byte) (h : s.inBytes = containerBytes [] pl) : DecompressFails s ⟨.invalidInput, 0, 0x02⟩
  | truncated (ft : FreqTable) (pl : List Byte) (hwf : FreqTable.wf ft) (hne : ft ≠ [])
      (h : s.inBytes = containerBytes ft pl) (hlen : pl.length < expectedBytes ft (deriveCodes (build ft))) :
      DecompressFails s ⟨.truncatedPayload, BitVec.ofNat 32 (expectedBytes ft (deriveCodes (build ft))), 0x07⟩
  | emptyPayload : DecompressFails s ⟨.decodeError, 1, 0x08⟩
  | badPadding (b : Byte) : DecompressFails s ⟨.decodeError, BitVec.ofNat 32 (2 + 256 * b.toNat), 0x08⟩
  | leftOver : DecompressFails s ⟨.decodeError, 3, 0x08⟩
  | outputCapacity : DecompressFails s ⟨.capacityExceeded, 4, 0x08⟩

/-- DECOMPRESS's steps fail only as listed: the registers they require were just written, so NotReady does not occur. -/
theorem decompressSteps_fails {s : State} {f : Failure} (h : decompressSteps s = .error f) : DecompressFails s f := by
  rcases decompressSteps_eq_error.1 h with ⟨r, hr, rfl⟩ | ⟨a, ha, h⟩
  · rcases contDeserialize_eq_error hr with rfl | rfl | ⟨sub, i, h1, h7, rfl⟩
    · exact .inputCapacity
    · exact .payloadCapacity
    · rw [corruptHeader_info i (by omega)]
      exact .corruptHeader sub i h1 h7
  obtain ⟨-, ft, pl, hwf, hbytes, -, rfl⟩ := contDeserialize_eq_ok.1 ha
  rcases h with ⟨r, hr, rfl⟩ | ⟨b, hb, h⟩
  · rcases treeBuild_eq_error.1 hr with ⟨hft, -⟩ | ⟨hft, rfl⟩
    · cases hft
    · obtain rfl : ft = [] := Option.some.inj hft
      exact .emptyTable pl hbytes
  obtain ⟨ft', hft, hne, rfl⟩ := treeBuild_eq_ok.1 hb
  obtain rfl : ft = ft' := Option.some.inj hft
  rcases h with ⟨r, hr, rfl⟩ | ⟨c, hc, h⟩
  · obtain ⟨htree, -⟩ := codeDerive_eq_error.1 hr
    cases htree
  obtain ⟨tr, htr, rfl⟩ := codeDerive_eq_ok.1 hc
  obtain rfl : build ft = tr := Option.some.inj htr
  rcases h with ⟨r, hr, rfl⟩ | ⟨d, hd, r, hr, rfl⟩
  · rcases payloadCheck_eq_error hr with ⟨hft | hct | hpl, -⟩ | ⟨_, _, _, hft, hct, hpl, hlen, rfl⟩
    · cases hft
    · cases hct
    · cases hpl
    · cases hft; cases hct; cases hpl
      exact .truncated ft pl hwf hne hbytes hlen
  · obtain ⟨rfl, -⟩ := payloadCheck_eq_ok hd
    rcases bitUnpack_eq_error hr with ⟨hct | hpl, -⟩ | rfl | ⟨b, rfl⟩ | rfl | rfl
    · cases hct
    · cases hpl
    · exact .emptyPayload
    · have hinfo := congrArg (fun info => (⟨.decodeError, info, 0x08⟩ : Failure)) (badPad_info b)
      exact hinfo ▸ .badPadding b
    · exact .leftOver
    · exact .outputCapacity

/-! The errors by kind and step (R270). -/

/-- R270's "raised by" column: the pairs of an error kind and the opcode of a step that raises it. -/
def raisedBy : List (ErrKind × Byte) :=
  [(.invalidInput, 0x01), (.invalidInput, 0x02), (.missingCode, 0x04), (.corruptHeader, 0x06),
    (.truncatedPayload, 0x07), (.decodeError, 0x08), (.notReady, 0x02), (.notReady, 0x03), (.notReady, 0x04),
    (.notReady, 0x05), (.notReady, 0x07), (.notReady, 0x08), (.capacityExceeded, 0x01), (.capacityExceeded, 0x04),
    (.capacityExceeded, 0x06), (.capacityExceeded, 0x05), (.capacityExceeded, 0x08)]

theorem resultOf_raisedBy {i : Instr} {s : State} {f : Failure} (h : resultOf i s = .error f) :
    (f.kind, f.stage) ∈ raisedBy := by
  cases i with
  | nop => cases h
  | freqAnalyze =>
    obtain ⟨r, hr, rfl⟩ := runUnit_eq_error.1 h
    rcases freqAnalyze_eq_error hr with ⟨rfl, -⟩ | ⟨-, _, -, rfl, -⟩ <;> simp [raisedBy, opcode]
  | treeBuild =>
    obtain ⟨r, hr, rfl⟩ := runUnit_eq_error.1 h
    rcases treeBuild_eq_error.1 hr with ⟨-, rfl⟩ | ⟨-, rfl⟩ <;> simp [raisedBy, opcode, State.notReady]
  | codeDerive =>
    obtain ⟨r, hr, rfl⟩ := runUnit_eq_error.1 h
    obtain ⟨-, rfl⟩ := codeDerive_eq_error.1 hr
    simp [raisedBy, opcode, State.notReady]
  | bitPack =>
    obtain ⟨r, hr, rfl⟩ := runUnit_eq_error.1 h
    rcases bitPack_eq_error hr with ⟨-, rfl⟩ | ⟨_, -, ⟨rfl, -⟩ | ⟨-, _, -, -, _, rfl⟩ | ⟨-, rfl⟩⟩ <;>
      simp [raisedBy, opcode, State.notReady]
  | contSerialize =>
    obtain ⟨r, hr, rfl⟩ := runUnit_eq_error.1 h
    rcases contSerialize_eq_error hr with ⟨-, rfl⟩ | rfl <;> simp [raisedBy, opcode, State.notReady]
  | contDeserialize =>
    obtain ⟨r, hr, rfl⟩ := runUnit_eq_error.1 h
    rcases contDeserialize_eq_error hr with rfl | rfl | ⟨_, _, -, -, rfl⟩ <;> simp [raisedBy, opcode, corruptHeader]
  | payloadCheck =>
    obtain ⟨r, hr, rfl⟩ := runUnit_eq_error.1 h
    rcases payloadCheck_eq_error hr with ⟨-, rfl⟩ | ⟨_, _, _, -, -, -, -, rfl⟩ <;>
      simp [raisedBy, opcode, State.notReady]
  | bitUnpack =>
    obtain ⟨r, hr, rfl⟩ := runUnit_eq_error.1 h
    rcases bitUnpack_eq_error hr with ⟨-, rfl⟩ | rfl | ⟨_, rfl⟩ | rfl | rfl <;>
      simp [raisedBy, opcode, State.notReady]
  | compress => cases compressSteps_fails h <;> simp [raisedBy]
  | decompress => cases decompressSteps_fails h <;> simp [raisedBy]

/-- A primitive command is one unit, so its failure's stage is its own opcode (R272). -/
theorem resultOf_stage {i : Instr} {s : State} {f : Failure} (hc : i ≠ .compress) (hd : i ≠ .decompress)
    (h : resultOf i s = .error f) : f.stage = opcode i := by
  cases i with
  | nop => cases h
  | compress => exact absurd rfl hc
  | decompress => exact absurd rfl hd
  | _ => obtain ⟨_, -, rfl⟩ := runUnit_eq_error.1 h; rfl

/-- Settles O12: the pairs are `raisedBy` with the kinds as codes. -/
theorem errorsComeFromTheirSteps : Obligations.ErrorsComeFromTheirSteps := by
  intro i s t h herr
  obtain ⟨f, hf, rfl⟩ := error_of_exec h herr
  refine ⟨?_, fun hc hd => resultOf_stage hc hd hf⟩
  exact List.mem_map_of_mem (f := fun x => (x.1.code.toNat, x.2.toNat)) (resultOf_raisedBy hf)

/-! The first check (R274). -/

theorem runUnit_notReady {i : Instr} {u : State → Except Raise State} {s : State}
    (hi : requires i ∈ [[.ft], [.tree], [.ct], [.ft, .payload], [.ft, .ct, .payload], [.ct, .payload]])
    (h : u s = .error (s.notReady (requires i))) :
    runUnit i u s = .error ⟨.notReady, BitVec.ofNat 32 (missingBits s (requires i)), opcode i⟩ := by
  rw [runUnit_error h, notReady_info s _ hi]

/-- A command with a required register that holds no value fails with NotReady. -/
theorem resultOf_notReady {i : Instr} {s : State} (h : ∃ r ∈ requires i, s.holds r = false) :
    resultOf i s = .error ⟨.notReady, BitVec.ofNat 32 (missingBits s (requires i)), opcode i⟩ := by
  cases i with
  | nop | freqAnalyze | contDeserialize | compress | decompress => simp [requires] at h
  | treeBuild =>
    simp [requires, State.holds] at h
    exact runUnit_notReady (by decide) (treeBuild_eq_error.2 (.inl ⟨h, rfl⟩))
  | codeDerive =>
    simp [requires, State.holds] at h
    exact runUnit_notReady (by decide) (codeDerive_eq_error.2 ⟨h, rfl⟩)
  | bitPack =>
    simp [requires, State.holds] at h
    exact runUnit_notReady (by decide) (bitPack_notReady h)
  | contSerialize =>
    simp [requires, State.holds] at h
    exact runUnit_notReady (by decide) (contSerialize_notReady h)
  | payloadCheck =>
    simp [requires, State.holds] at h
    exact runUnit_notReady (by decide) (payloadCheck_notReady h)
  | bitUnpack =>
    simp [requires, State.holds] at h
    exact runUnit_notReady (by decide) (bitUnpack_notReady h)

/-- A command whose required registers all hold a value does not fail with NotReady. -/
theorem resultOf_ready {i : Instr} {s : State} {f : Failure} (hall : ∀ r ∈ requires i, s.holds r = true)
    (h : resultOf i s = .error f) : f.kind ≠ .notReady := by
  cases i with
  | nop => cases h
  | freqAnalyze =>
    obtain ⟨r, hr, rfl⟩ := runUnit_eq_error.1 h
    rcases freqAnalyze_eq_error hr with ⟨rfl, -⟩ | ⟨-, _, -, rfl, -⟩ <;> simp
  | treeBuild =>
    obtain ⟨r, hr, rfl⟩ := runUnit_eq_error.1 h
    rcases treeBuild_eq_error.1 hr with ⟨hft, -⟩ | ⟨-, rfl⟩
    · simp [requires, State.holds, hft] at hall
    · simp
  | codeDerive =>
    obtain ⟨r, hr, rfl⟩ := runUnit_eq_error.1 h
    obtain ⟨htree, -⟩ := codeDerive_eq_error.1 hr
    simp [requires, State.holds, htree] at hall
  | bitPack =>
    obtain ⟨r, hr, rfl⟩ := runUnit_eq_error.1 h
    rcases bitPack_eq_error hr with ⟨hct, -⟩ | ⟨_, -, ⟨rfl, -⟩ | ⟨-, _, -, -, _, rfl⟩ | ⟨-, rfl⟩⟩
    · simp [requires, State.holds, hct] at hall
    all_goals simp
  | contSerialize =>
    obtain ⟨r, hr, rfl⟩ := runUnit_eq_error.1 h
    rcases contSerialize_eq_error hr with ⟨hnone, -⟩ | rfl
    · rcases hnone with hnone | hnone <;> simp [requires, State.holds, hnone] at hall
    · simp
  | contDeserialize =>
    obtain ⟨r, hr, rfl⟩ := runUnit_eq_error.1 h
    rcases contDeserialize_eq_error hr with rfl | rfl | ⟨_, _, -, -, rfl⟩ <;> simp [corruptHeader]
  | payloadCheck =>
    obtain ⟨r, hr, rfl⟩ := runUnit_eq_error.1 h
    rcases payloadCheck_eq_error hr with ⟨hnone, -⟩ | ⟨_, _, _, -, -, -, -, rfl⟩
    · rcases hnone with hnone | hnone | hnone <;> simp [requires, State.holds, hnone] at hall
    · simp
  | bitUnpack =>
    obtain ⟨r, hr, rfl⟩ := runUnit_eq_error.1 h
    rcases bitUnpack_eq_error hr with ⟨hnone, -⟩ | rfl | ⟨_, rfl⟩ | rfl | rfl
    · rcases hnone with hnone | hnone <;> simp [requires, State.holds, hnone] at hall
    all_goals simp
  | compress => cases compressSteps_fails h <;> simp
  | decompress => cases decompressSteps_fails h <;> simp

theorem ErrKind.code_eq_notReady {k : ErrKind} (h : k.code = 8) : k = .notReady := by
  revert h
  cases k <;> decide

/-- Settles O11: a missing register is the steps' failure NotReady; with none missing no step raises it. -/
theorem notReadyIsTheFirstCheck : Obligations.NotReadyIsTheFirstCheck := by
  intro i s
  refine ⟨fun hmissing => exec_of_error (resultOf_notReady hmissing), fun hall t h => ?_⟩
  rcases exec_cases i s with ⟨u, -, hx⟩ | ⟨f, hf, hx⟩ <;> rw [hx] at h <;> injection h with h <;> subst h
  · simp
  · exact fun hcode => resultOf_ready hall hf (ErrKind.code_eq_notReady hcode)

end Sys2Proof.Machine

/-! PROOFS of the family `other`, part 3: the properties the spec infers of the values the commands write: frequency
tables (R121), trees (R24, R142), codes (R11, R162, R163), packed payloads (R183, R232) and containers (R200, R203). -/

namespace Sys2Proof.Machine

/-! Frequency tables (R121). -/

/-- What FREQ_ANALYZE writes: the table of an input of symbols. -/
theorem FreqAnalyzed.eq_freqTable {s : State} {ft : FreqTable} (h : FreqAnalyzed s ft) :
    ft = freqTable s.inSyms ∧ ∀ x ∈ s.inSyms, x ≤ symMax := by
  obtain ⟨t, hexec, herr, hft⟩ := h
  obtain ⟨u, hu, rfl⟩ := ok_of_exec hexec herr
  obtain ⟨-, hsyms, rfl⟩ := freqAnalyze_eq_ok.1 (runUnit_eq_ok.1 hu)
  exact ⟨(Option.some.inj hft).symm, hsyms⟩

/-- A table has at most one entry an input symbol, and at most one a symbol of the alphabet. -/
theorem freqTable_length_le {xs : List Nat} (h : ∀ x ∈ xs, x ≤ symMax) :
    (freqTable xs).length ≤ min xs.length (symMax + 1) := by
  refine Nat.le_min.2 ⟨?_, ?_⟩
  · rw [← countSum_freqTable xs]
    exact length_le_countSum fun _ he => (mem_freqTable he).2
  · exact length_le_symMax (freqTable_ascends xs) fun _ he => h _ (mem_freqTable he).1

/-- Settles O15: each table is `freqTable` of its input, which counts the input. -/
theorem frequencyTablesConserveAndMerge : Obligations.FrequencyTablesConserveAndMerge := by
  refine ⟨fun s ft h => ?_, fun s s' ft ft' h h' hperm => ?_, fun s a b ft fa fb h ha hb happend x => ?_⟩
  · obtain ⟨rfl, hsyms⟩ := h.eq_freqTable
    rw [countSum_freqTable, ← inSyms_length]
    exact ⟨rfl, freqTable_length_le hsyms⟩
  · obtain ⟨rfl, -⟩ := h.eq_freqTable
    obtain ⟨rfl, -⟩ := h'.eq_freqTable
    exact freqTable_of_perm hperm
  · obtain ⟨rfl, -⟩ := h.eq_freqTable
    obtain ⟨rfl, -⟩ := ha.eq_freqTable
    obtain ⟨rfl, -⟩ := hb.eq_freqTable
    simp only [tableCount_freqTable, happend, List.count_append]

/-! Trees (R24, R142). -/

theorem filter_isLeaf_leavesOf (ft : FreqTable) : (leavesOf ft).filter Node.isLeaf = leavesOf ft :=
  List.filter_eq_self.2 fun _ => leaf_of_mem_leavesOf

theorem build_filter_leaves {ft : FreqTable} (h : ft ≠ []) : (build ft).nodes.filter Node.isLeaf = leavesOf ft := by
  obtain ⟨ins, hn, hi, -⟩ := build_nodes h
  have hnone : ins.filter Node.isLeaf = [] := List.filter_eq_nil_iff.2 fun x hx => by simp [hi x hx]
  rw [hn, List.filter_append, filter_isLeaf_leavesOf, hnone, List.append_nil]

theorem build_filter_internals_length {ft : FreqTable} (h : ft ≠ []) :
    ((build ft).nodes.filter (fun n => !n.isLeaf)).length = ft.length - 1 := by
  obtain ⟨ins, hn, hi, hlen⟩ := build_nodes h
  have hleaves : (leavesOf ft).filter (fun n => !n.isLeaf) = [] :=
    List.filter_eq_nil_iff.2 fun x hx => by simp [leaf_of_mem_leavesOf hx]
  have hins : ins.filter (fun n => !n.isLeaf) = ins := List.filter_eq_self.2 fun x hx => by simp [hi x hx]
  rw [hn, List.filter_append, hleaves, hins, List.nil_append, hlen]

/-- Merged frequencies never decrease: the children of a later merge are popped later (R142). -/
theorem build_freq_mono {ft : FreqTable} (h : ft ≠ []) {j k f l r f' l' r' : Nat} (hjk : j ≤ k)
    (hj : (build ft).nodes[j]? = some (.internal f l r)) (hk : (build ft).nodes[k]? = some (.internal f' l' r')) :
    f ≤ f' := by
  rcases Nat.eq_or_lt_of_le hjk with rfl | hlt
  · cases hj.symm.trans hk; exact Nat.le_refl _
  · obtain ⟨-, -, -, x, y, hx, hy, rfl⟩ := build_child h hj
    obtain ⟨-, -, -, x', y', hx', hy', rfl⟩ := build_child h hk
    have hleft := freq_le_of_keyBefore (build_order h hlt hj hk (c := l) (c' := l') (by simp [Node.children])
      (by simp [Node.children])) hx hx'
    have hright := freq_le_of_keyBefore (build_order h hlt hj hk (c := r) (c' := r') (by simp [Node.children])
      (by simp [Node.children])) hy hy'
    exact Nat.add_le_add hleft hright

theorem exec_treeBuild_of_ft {s : State} {ft : FreqTable} (hft : s.ft = some ft) (hne : ft ≠ []) :
    exec .treeBuild s = .next (s.writeTree (some (build ft))).succeeded :=
  exec_treeBuild_of_ok (treeBuild_eq_ok.2 ⟨ft, hft, hne, rfl⟩)

/-- Settles O18: the tree is `build` of FT, whose shape the laws of `build` give. -/
theorem builtTreesHaveTheHuffmanShape : Obligations.BuiltTreesHaveTheHuffmanShape := by
  intro s ft hft hne
  have hroot := build_root hne
  have hleaves := build_filter_leaves hne
  refine ⟨_, build ft, exec_treeBuild_of_ft hft hne, rfl, ?_, build_filter_internals_length hne, build_length hne,
    by omega, hleaves, build_root_freq hne, fun k f l r hk => ?_, fun _ _ _ _ _ _ _ _ => build_freq_mono hne,
    fun s' hft' => ⟨_, exec_treeBuild_of_ft hft' hne, rfl⟩⟩
  · rw [hleaves, leavesOf_length]
  · obtain ⟨hl, hr, hkey, -⟩ := build_child hne hk
    exact ⟨hl, hr, hkey⟩

/-- Settles O19: under the invariant TREE is `build` of FT. -/
theorem treeValuesAreTrees : Obligations.TreeValuesAreTrees := by
  intro s t hinv ht
  obtain ⟨ft, hft, hne, rfl⟩ := hinv.tree t ht
  obtain ⟨ins, hn, -⟩ := build_nodes hne
  refine ⟨build_wf hne, ft, hft, hne, build_length hne, ?_⟩
  rw [hn, ← leavesOf_length ft, List.take_left]
  rfl

/-! Codes (R11, R162, R163). -/

/-- R29: a valid CT is the codes of `build` of the legal, non-empty FT. -/
theorem State.Inv.ct_eq_deriveCodes {s : State} (hinv : s.Inv) {ct : CodeTable} (hct : s.ct = some ct) :
    ∃ ft, s.ft = some ft ∧ s.tree = some (build ft) ∧ ct = deriveCodes (build ft) ∧ ft ≠ [] ∧ FreqTable.wf ft := by
  obtain ⟨t, ht, rfl⟩ := hinv.ct ct hct
  obtain ⟨ft, hft, hne, rfl⟩ := hinv.tree t ht
  exact ⟨ft, hft, ht, rfl, hne, hinv.ft ft hft⟩

/-- Settles O21: the laws of `deriveCodes`. -/
theorem codesArePrefixFree : Obligations.CodesArePrefixFree := by
  intro s ct hinv hct
  obtain ⟨ft, hft, ht, rfl, hne, -⟩ := hinv.ct_eq_deriveCodes hct
  refine ⟨fun _ => deriveCodes_code_ne_nil hne, fun _ _ _ _ => deriveCodes_prefixFree hne, ft, build ft, hft, ht,
    deriveCodes_syms hne, fun h2 i e he => ?_⟩
  obtain ⟨-, hwalk⟩ := deriveCodes_walk h2 he
  exact hwalk

/-- Settles O23: the Fibonacci bound on the depth of a leaf. -/
theorem codesHaveAtMost45Bits : Obligations.CodesHaveAtMost45Bits := by
  intro s ct hinv hct e he
  obtain ⟨ft, -, -, rfl, hne, hwf⟩ := hinv.ct_eq_deriveCodes hct
  exact deriveCodes_code_length_le hne hwf he

/-- With the one code "0", the strings that split into codes are those of zeros. -/
theorem split_single_iff (x : Nat) (b : Bits) :
    (∃ es : CodeTable, (∀ e ∈ es, e ∈ [(⟨x, [false]⟩ : CodeEntry)]) ∧ b = es.flatMap CodeEntry.code) ↔
      ∀ d ∈ b, d = false := by
  constructor
  · rintro ⟨es, hes, rfl⟩ d hd
    obtain ⟨e, he, hd⟩ := List.mem_flatMap.1 hd
    obtain rfl := List.mem_singleton.1 (hes e he)
    exact List.mem_singleton.1 hd
  · intro hb
    refine ⟨List.replicate b.length ⟨x, [false]⟩, fun e he => by simp [List.eq_of_mem_replicate he], ?_⟩
    have hzeros : b = List.replicate b.length false := List.eq_replicate_iff.2 ⟨rfl, hb⟩
    conv_lhs => rw [hzeros]
    simp [List.flatMap_replicate]

/-- Settles O22: existence and uniqueness of the split for two codes or more, and the single code "0". -/
theorem bitStringsSplitInOneWay : Obligations.BitStringsSplitInOneWay := by
  intro s ct hinv hct
  have hw := hinv.ct_wf hct
  obtain ⟨ft, -, -, rfl, hne, -⟩ := hinv.ct_eq_deriveCodes hct
  rw [deriveCodes_length hne]
  refine ⟨fun h2 b => ⟨exists_split h2 b, fun es r es' r' hes hes' he he' hr hr' => ?_⟩, fun h1 b => ?_⟩
  · obtain ⟨e, hmem, hpre, hprop⟩ := hr
    obtain ⟨e', hmem', hpre', hprop'⟩ := hr'
    exact split_unique hw hes hes' (not_prefix_of_proper hw hmem hpre hprop)
      (not_prefix_of_proper hw hmem' hpre' hprop') (he.symm.trans he')
  · obtain ⟨e, rfl⟩ := List.length_eq_one_iff.1 h1
    rw [deriveCodes_single]
    exact split_single_iff e.sym b

/-! Packed payloads (R183, R232). -/

/-- What a BIT_PACK that completed without an error wrote. -/
theorem exec_bitPack_ok {s t : State} (h : exec .bitPack s = .next t) (herr : t.status.err = false) :
    ∃ ct codes, s.ct = some ct ∧ CodesOf ct s.inSyms codes ∧ (packBits codes.flatten).length ≤ s.caps.payload ∧
      t.payload = some (packBits codes.flatten) ∧ t.pad = BitVec.ofNat 8 (padCount codes.flatten.length) ∧
      t.pbits = BitVec.ofNat 64 codes.flatten.length := by
  obtain ⟨u, hu, rfl⟩ := ok_of_exec h herr
  obtain ⟨ct, codes, hct, -, hcodes, hcap, rfl⟩ := bitPack_eq_ok (runUnit_eq_ok.1 hu)
  exact ⟨ct, codes, hct, hcodes, hcap, rfl, rfl, rfl⟩

/-- A payload of at most PAYLOAD_CAP bytes has fewer than 2^64 bits, so PBITS holds its length (R40). -/
theorem pbits_toNat {c : Caps} (hc : c.wf) {p : Bits} (h : (packBits p).length ≤ c.payload) :
    (BitVec.ofNat 64 p.length).toNat = p.length := by
  have hlen := packBits_length p
  unfold Caps.wf at hc
  rw [BitVec.toNat_ofNat, Nat.mod_eq_of_lt (by omega)]

/-- Settles O25: PAYLOAD is `packBits` of the codes, so it is the padding count and the bytes of the codes and the
padding; its sizes are arithmetic on `padCount`. -/
theorem packedPayloadsHaveTheStatedShape : Obligations.PackedPayloadsHaveTheStatedShape := by
  intro s t ct hinv hct hexec herr
  obtain ⟨ct', codes, hct', hcodes, hcap, hpl, hpad, hpbits⟩ := exec_bitPack_ok hexec herr
  obtain rfl : ct = ct' := Option.some.inj (hct.symm.trans hct')
  obtain ⟨rest, hcons, hbits⟩ := packBits_eq_cons codes.flatten
  have hlen := packBits_length codes.flatten
  have hle := padCount_le codes.flatten.length
  have hmod := add_padCount_mod codes.flatten.length
  rw [hcons, List.length_cons] at hlen
  rw [hpbits, pbits_toNat hinv.caps hcap]
  refine ⟨_, rest, codes, hpl.trans (congrArg some hcons), hpad.symm, ?_, ?_, ?_, fun _ => ?_, hcodes, rfl, ?_⟩
  · rwa [padCount_toNat]
  · rwa [padCount_toNat]
  · omega
  · rw [← encodeSyms_eq hcodes]
    exact (impliedBits_freqTable s.inSyms ct).symm
  · rw [padCount_toNat]
    exact hbits

/-- Settles O32: a scan of the packed codes with the same legal CT emits the packed symbols. -/
theorem unpackReversesPack : Obligations.UnpackReversesPack := by
  intro s t u hinv hexec herr huct hupl hcap
  obtain ⟨ct, codes, hct, hcodes, -, hpl, hpad, hpbits⟩ := exec_bitPack_ok hexec herr
  rw [hpad, hpbits]
  refine exec_bitUnpack_of_ok (bitUnpack_packBits (hinv.ct_wf hct) hcodes (huct.trans hct) (hupl.trans hpl) ?_)
  rwa [inSyms_length]

/-! Containers (R200, R203). -/

theorem exec_contDeserialize_of_container {s : State} {ft : FreqTable} {pl : List Byte} (hwf : FreqTable.wf ft)
    (hbytes : s.inBytes = containerBytes ft pl) (hin : s.inByteLen.toNat ≤ s.caps.inByte)
    (hcap : pl.length ≤ s.caps.payload) :
    exec .contDeserialize s = .next { s with ft := some ft, tree := none, ct := none, payload := some pl }.succeeded :=
  exec_of_ok (i := .contDeserialize) (runUnit_ok (contDeserialize_eq_ok.2 ⟨hin, ft, pl, hwf, hbytes, hcap, rfl⟩))

/-- Settles O29: the reading step accepts a container exactly when it is one of a legal table. -/
theorem containersReadBackExactly : Obligations.ContainersReadBackExactly := by
  refine ⟨fun s ft pl => exec_contDeserialize_of_container, fun s t hexec herr => ?_⟩
  obtain ⟨u, hu, rfl⟩ := ok_of_exec hexec herr
  obtain ⟨-, ft, pl, hwf, hbytes, -, rfl⟩ := contDeserialize_eq_ok.1 (runUnit_eq_ok.1 hu)
  exact ⟨ft, pl, rfl, rfl, hwf, hbytes⟩

end Sys2Proof.Machine

/-! PROOFS of the family `other`, part 4: COMPRESS and DECOMPRESS (R205, R253 to R256): what they write, the errors they
can report, that a container describes itself, that the result depends on the input alone, and the round trip. -/

namespace Sys2Proof.Machine

/-! COMPRESS (R253). -/

/-- Settles O34: the steps' success, for the codes of the input and `packBits` of them. -/
theorem compressWritesTheContainer : Obligations.CompressWritesTheContainer := by
  rintro s ft ct rfl rfl hpos hin hsyms
  have hall : ∀ x ∈ s.inSyms, x ≤ symMax := by
    intro x hx
    obtain ⟨i, hi, rfl⟩ := mem_inSyms.1 hx
    exact hsyms i hi
  have hne : freqTable s.inSyms ≠ [] := by
    intro h
    have hlen := inSyms_length s
    rw [freqTable_eq_nil.1 h] at hlen
    exact absurd hlen.symm (Nat.pos_iff_ne_zero.1 hpos)
  refine ⟨exists_codesOf_input hne, ?_⟩
  rintro codes len p hcodes rfl rfl hpl hout
  have hlen := packBits_length codes.flatten
  have hcont := containerBytes_length (freqTable s.inSyms) (packBits codes.flatten)
  unfold padCount at hlen
  refine ⟨packBits codes.flatten, packBits_unpack codes.flatten, exec_of_ok (i := .compress) ?_⟩
  exact (compressSteps_success rfl rfl).2 ⟨hin, hall, hne, codes, _, hcodes, rfl, by omega, by omega, rfl⟩

/-- What a COMPRESS that completed without an error wrote. -/
theorem exec_compress_ok {s t : State} (h : exec .compress s = .next t) (herr : t.status.err = false) :
    ∃ ft codes pl, ft = freqTable s.inSyms ∧ ft ≠ [] ∧ FreqTable.wf ft ∧
      CodesOf (deriveCodes (build ft)) s.inSyms codes ∧ pl = packBits codes.flatten ∧ pl.length ≤ s.caps.payload ∧
      t = { s with
        ft := some ft
        tree := some (build ft)
        ct := some (deriveCodes (build ft))
        payload := some pl
        pad := BitVec.ofNat 8 (padCount codes.flatten.length)
        pbits := BitVec.ofNat 64 codes.flatten.length
        outBytes := some (containerBytes ft pl) }.succeeded := by
  obtain ⟨u, hu, rfl⟩ := ok_of_exec h herr
  obtain ⟨-, hsyms, hne, codes, pl, hcodes, hpl, hcap, -, rfl⟩ := (compressSteps_success rfl rfl).1 hu
  have hlt := s.inSymLen.isLt
  have hwf : FreqTable.wf (freqTable s.inSyms) := freqTable_wf hsyms (by rw [inSyms_length, countMax]; omega)
  exact ⟨_, codes, pl, rfl, hne, hwf, hcodes, hpl, hcap, rfl⟩

/-- Settles O37: the container's length field and sizes, and its reading, from the laws of `containerBytes`. -/
theorem compressedContainersAreSelfDescribing : Obligations.CompressedContainersAreSelfDescribing := by
  intro s t hexec herr
  obtain ⟨ft, codes, pl, hft, hne, hwf, hcodes, hpl, hcap, rfl⟩ := exec_compress_ok hexec herr
  obtain ⟨hsym, hord, -⟩ := id hwf
  have hle := length_le_symMax hord hsym
  unfold symMax at hle
  have hfield := fieldAt_containerBytes_zero ft pl (by omega)
  have hheader := headerBytes_length ft
  refine ⟨ft, _, pl, containerBytes ft pl, rfl, rfl, rfl, rfl, hft, hfield, ?_, hheader.trans hfield.symm, ?_,
    fun u hucaps hubytes huin => exec_contDeserialize_of_container hwf hubytes huin (by rwa [hucaps])⟩
  · rw [hfield, ← hheader]
    rfl
  · rw [hpl, hft]
    exact packBits_length_expected s.inSyms (hft ▸ hcodes)

/-! DECOMPRESS (R254). -/

/-- Settles O35: the steps' success, with the scan of the codes of `out`. -/
theorem decompressReadsTheContainer : Obligations.DecompressReadsTheContainer := by
  rintro s ft ct b rest r out codes hwf hne rfl hbytes hin hcap hlen rfl hpad hcodes hbits hout
  obtain ⟨-, hord, -⟩ := id hwf
  have hscan : scanBits (deriveCodes (build ft)) s.caps.outSym [] [] (payloadBits b.toNat rest) = .ok out := by
    rw [show payloadBits b.toNat rest = codes.flatten from hbits]
    exact scanBits_of_codes (deriveCodes_wf hne hord) hcodes hout
  exact exec_of_ok (i := .decompress) (decompressSteps_success.2
    ⟨hin, ft, b, rest, out, hwf, hne, hbytes, hcap, hlen, (padOk_iff _ _).2 hpad, hscan, rfl⟩)

/-! The errors of a composite (R253, R254). -/

/-- A header with no entries has N = 0 at offset 4. -/
theorem fieldAt_containerBytes_nil (pl : List Byte) : fieldAt (containerBytes [] pl) 4 = 0 := rfl

/-- The low byte of a detail word with a subcode (R270). -/
theorem subcode_of_info {sub : Nat} (i : Nat) (h : sub < 256) : (BitVec.ofNat 32 (sub + 256 * i)).toNat % 256 = sub := by
  rw [BitVec.toNat_ofNat]
  omega

/-- Settles O36: the failures of `CompressFails` and `DecompressFails`, as the completion reports them. -/
theorem compositesFailOnlyAsListed : Obligations.CompositesFailOnlyAsListed := by
  constructor
  · intro s t h herr
    obtain ⟨f, hf, rfl⟩ := error_of_exec h herr
    cases compressSteps_fails hf with
    | inputCapacity => exact .inl ⟨rfl, rfl, rfl⟩
    | invalidSymbol i hi hbad => exact .inr (.inl ⟨rfl, rfl, i, hi, rfl, hbad⟩)
    | emptyInput hlen => exact .inr (.inr (.inl ⟨rfl, rfl, rfl, hlen⟩))
    | payloadCapacity => exact .inr (.inr (.inr (.inl ⟨rfl, rfl, rfl⟩)))
    | outputCapacity => exact .inr (.inr (.inr (.inr ⟨rfl, rfl, rfl⟩)))
  · intro s t h herr
    obtain ⟨f, hf, rfl⟩ := error_of_exec h herr
    have decodeError : ∀ info : Word, 1 ≤ info.toNat % 256 ∧ info.toNat % 256 ≤ 3 →
        f = ⟨.decodeError, info, 0x08⟩ → f.kind.code = 5 ∧ f.stage = 0x08 ∧ 1 ≤ f.info.toNat % 256 ∧
          f.info.toNat % 256 ≤ 3 := by
      rintro info ⟨h1, h3⟩ rfl
      exact ⟨rfl, rfl, h1, h3⟩
    cases decompressSteps_fails hf with
    | inputCapacity => exact .inl ⟨rfl, rfl, rfl⟩
    | corruptHeader sub i h1 h7 =>
      have hsub := subcode_of_info i (by omega : sub < 256)
      exact .inr (.inl ⟨rfl, rfl, hsub.ge.trans' h1, hsub.le.trans h7⟩)
    | payloadCapacity => exact .inr (.inr (.inl ⟨rfl, rfl, rfl⟩))
    | emptyTable pl hbytes =>
      exact .inr (.inr (.inr (.inl ⟨rfl, rfl, rfl, hbytes ▸ fieldAt_containerBytes_nil pl⟩)))
    | truncated ft pl hwf hne hbytes hlen =>
      exact .inr (.inr (.inr (.inr (.inl ⟨rfl, rfl, ft, _, pl, hwf, hne, hbytes, rfl, hlen, rfl⟩))))
    | emptyPayload => exact .inr (.inr (.inr (.inr (.inr (.inl (decodeError 1 (by decide) rfl))))))
    | badPadding b =>
      have hsub := subcode_of_info b.toNat (by decide : 2 < 256)
      exact .inr (.inr (.inr (.inr (.inr (.inl (decodeError _ (by rw [hsub]; decide) rfl))))))
    | leftOver => exact .inr (.inr (.inr (.inr (.inr (.inl (decodeError 3 (by decide) rfl))))))
    | outputCapacity => exact .inr (.inr (.inr (.inr (.inr (.inr ⟨rfl, rfl, rfl⟩)))))

/-! Noninterference (R255). -/

section
variable {α β γ ε : Type}

/-- What the step `u` answers, seen through `out`, depends on no more of the state than `view` shows. -/
def DependsOnlyOn (view : State → α) (out : State → β) (u : State → Except ε State) : Prop :=
  ∀ a b, view a = view b → (u a).map out = (u b).map out

theorem DependsOnlyOn.runUnit {view : State → α} {out : State → β} {u : State → Except Raise State} (i : Instr)
    (h : DependsOnlyOn view out u) : DependsOnlyOn view out (runUnit i u) := by
  intro a b hab
  have hu := h a b hab
  unfold Machine.runUnit
  cases ha : u a <;> cases hb : u b <;> simp_all [Except.map]

theorem DependsOnlyOn.andThen {view : State → α} {mid : State → β} {out : State → γ} {f g : State → Except Failure State}
    (hf : DependsOnlyOn view mid f) (hg : DependsOnlyOn mid out g) :
    DependsOnlyOn view out (fun s => andThen (f s) g) := by
  intro a b hab
  have hmid := hf a b hab
  cases ha : f a with
  | error e =>
    cases hb : f b with
    | error e' => rw [ha, hb] at hmid; cases hmid; simp [ha, hb]
    | ok y => rw [ha, hb] at hmid; cases hmid
  | ok x =>
    cases hb : f b with
    | error e' => rw [ha, hb] at hmid; cases hmid
    | ok y =>
      rw [ha, hb] at hmid
      simpa [ha, hb] using hg x y (Except.ok.inj hmid)

/-! The units, each adding the registers it writes to the view. -/

/-- COMPRESS's input, its length register and the capacities. -/
def State.symInput (s : State) : Caps × Word × List Nat := (s.caps, s.inSymLen, s.inSyms)

/-- DECOMPRESS's input, its length register and the capacities. -/
def State.byteInput (s : State) : Caps × Word × List Byte := (s.caps, s.inByteLen, s.inBytes)

theorem freqAnalyze_dependsOnlyOn : DependsOnlyOn State.symInput (fun s => (s.symInput, s.ft)) freqAnalyze := by
  intro a b hab
  obtain ⟨hcaps, hlen, hsyms⟩ : a.caps = b.caps ∧ a.inSymLen = b.inSymLen ∧ a.inSyms = b.inSyms := by
    simpa [State.symInput] using hab
  have hview : ∀ v, (a.writeFt v).symInput = (b.writeFt v).symInput := fun _ => hab
  unfold freqAnalyze
  rw [hcaps, hlen, hsyms]
  split
  · rfl
  · split
    · rfl
    · simp [Except.map, hview]

theorem contDeserialize_dependsOnlyOn :
    DependsOnlyOn State.byteInput (fun s => ((s.caps, s.payload), s.ft)) contDeserialize := by
  intro a b hab
  obtain ⟨hcaps, hlen, hbytes⟩ : a.caps = b.caps ∧ a.inByteLen = b.inByteLen ∧ a.inBytes = b.inBytes := by
    simpa [State.byteInput] using hab
  unfold contDeserialize
  rw [hcaps, hlen, hbytes]
  split
  · rfl
  · split
    · rfl
    · simp [Except.map, hcaps]

/-- The detail word of a failed `require` shows only the registers required. -/
theorem notReady_congr {a b : State} {rs : List WorkReg}
    (hrs : rs ∈ [[.ft], [.tree], [.ct], [.ft, .payload], [.ft, .ct, .payload], [.ct, .payload]])
    (h : ∀ r ∈ rs, a.holds r = b.holds r) : a.notReady rs = b.notReady rs := by
  have hfilter : rs.filter (fun r => !a.holds r) = rs.filter (fun r => !b.holds r) :=
    List.filter_congr fun r hr => by rw [h r hr]
  rw [notReady_info a rs hrs, notReady_info b rs hrs, missingBits, missingBits, hfilter]

section
variable {k : State → α}

theorem treeBuild_dependsOnlyOn (hk : ∀ s v, k (s.writeTree v) = k s) :
    DependsOnlyOn (fun s => (k s, s.ft)) (fun s => (k s, s.ft, s.tree)) treeBuild := by
  intro a b hab
  obtain ⟨hka, hft⟩ := Prod.mk.inj hab
  have hnot : a.notReady [.ft] = b.notReady [.ft] := notReady_congr (by decide) (by simp [State.holds, hft])
  unfold treeBuild
  rw [hft, hnot]
  rcases hb : b.ft with _ | ⟨_ | ⟨e, ft⟩⟩
  · rfl
  · rfl
  · simp [Except.map, hk, hka, hft]

theorem codeDerive_dependsOnlyOn (hk : ∀ s v, k (s.writeCt v) = k s) :
    DependsOnlyOn (fun s => (k s, s.ft, s.tree)) (fun s => (k s, s.ft, s.tree, s.ct)) codeDerive := by
  intro a b hab
  obtain ⟨hka, hft, htree⟩ : k a = k b ∧ a.ft = b.ft ∧ a.tree = b.tree := by simpa using hab
  have hnot : a.notReady [.tree] = b.notReady [.tree] := notReady_congr (by decide) (by simp [State.holds, htree])
  unfold codeDerive
  rw [htree, hnot]
  cases hb : b.tree
  · rfl
  · simp [Except.map, hk, hka, hft, htree]

end

theorem bitPack_dependsOnlyOn :
    DependsOnlyOn (fun s => (s.symInput, s.ft, s.tree, s.ct))
      (fun s => (s.caps, s.ft, s.tree, s.ct, s.payload, s.pad, s.pbits)) bitPack := by
  intro a b hab
  obtain ⟨⟨hcaps, hlen, hsyms⟩, hft, htree, hct⟩ : (a.caps = b.caps ∧ a.inSymLen = b.inSymLen ∧ a.inSyms = b.inSyms) ∧
      a.ft = b.ft ∧ a.tree = b.tree ∧ a.ct = b.ct := by simpa [State.symInput] using hab
  have hnot : a.notReady [.ct] = b.notReady [.ct] := notReady_congr (by decide) (by simp [State.holds, hct])
  unfold bitPack
  rw [hcaps, hlen, hsyms, hct, hnot]
  cases b.ct with
  | none => rfl
  | some ct =>
    simp only
    split
    · rfl
    · split
      · rfl
      · split
        · rfl
        · split
          · rfl
          · simp [Except.map, hft, htree]

theorem contSerialize_dependsOnlyOn :
    DependsOnlyOn (fun s => (s.caps, s.ft, s.tree, s.ct, s.payload, s.pad, s.pbits))
      (fun s => (s.ft, s.tree, s.ct, s.payload, s.pad, s.pbits, s.outBytes)) contSerialize := by
  intro a b hab
  obtain ⟨hcaps, hft, htree, hct, hpl, hpad, hpbits⟩ : a.caps = b.caps ∧ a.ft = b.ft ∧ a.tree = b.tree ∧ a.ct = b.ct ∧
      a.payload = b.payload ∧ a.pad = b.pad ∧ a.pbits = b.pbits := by simpa using hab
  have hnot : a.notReady [.ft, .payload] = b.notReady [.ft, .payload] :=
    notReady_congr (by decide) (by simp [State.holds, hft, hpl])
  unfold contSerialize
  rw [hcaps, hft, hpl, hnot]
  cases b.ft with
  | none => rfl
  | some ft =>
    cases b.payload with
    | none => rfl
    | some pl =>
      simp only
      split
      · rfl
      · simp [Except.map, htree, hct, hpad, hpbits]

theorem payloadCheck_dependsOnlyOn :
    DependsOnlyOn (fun s => ((s.caps, s.payload), s.ft, s.tree, s.ct))
      (fun s => ((s.caps, s.payload), s.ft, s.tree, s.ct)) payloadCheck := by
  intro a b hab
  obtain ⟨⟨-, hpl⟩, hft, -, hct⟩ : (a.caps = b.caps ∧ a.payload = b.payload) ∧ a.ft = b.ft ∧ a.tree = b.tree ∧
      a.ct = b.ct := by simpa using hab
  have hnot : a.notReady [.ft, .ct, .payload] = b.notReady [.ft, .ct, .payload] :=
    notReady_congr (by decide) (by simp [State.holds, hft, hct, hpl])
  unfold payloadCheck
  rw [hft, hct, hpl, hnot]
  split
  · split
    · rfl
    · exact congrArg Except.ok hab
  · rfl

theorem bitUnpack_dependsOnlyOn :
    DependsOnlyOn (fun s => ((s.caps, s.payload), s.ft, s.tree, s.ct))
      (fun s => (s.ft, s.tree, s.ct, s.payload, s.pad, s.pbits, s.outSyms)) bitUnpack := by
  intro a b hab
  obtain ⟨⟨hcaps, hpl⟩, hft, htree, hct⟩ : (a.caps = b.caps ∧ a.payload = b.payload) ∧ a.ft = b.ft ∧ a.tree = b.tree ∧
      a.ct = b.ct := by simpa using hab
  have hnot : a.notReady [.ct, .payload] = b.notReady [.ct, .payload] :=
    notReady_congr (by decide) (by simp [State.holds, hct, hpl])
  unfold bitUnpack
  rw [hcaps, hct, hpl, hnot]
  cases b.ct with
  | none => rfl
  | some ct =>
    rcases b.payload with _ | ⟨_ | ⟨p, rest⟩⟩
    · rfl
    · rfl
    · simp only
      split
      · split
        · rfl
        · simp [Except.map, hft, htree]
      · rfl

end

/-! The composites. -/

theorem compress_dependsOnlyOn :
    DependsOnlyOn State.symInput (fun s => (s.ft, s.tree, s.ct, s.payload, s.pad, s.pbits, s.outBytes))
      (resultOf .compress) :=
  ((((freqAnalyze_dependsOnlyOn.runUnit _).andThen ((treeBuild_dependsOnlyOn fun _ _ => rfl).runUnit _)).andThen
    ((codeDerive_dependsOnlyOn fun _ _ => rfl).runUnit _)).andThen (bitPack_dependsOnlyOn.runUnit _)).andThen
    (contSerialize_dependsOnlyOn.runUnit _)

theorem decompress_dependsOnlyOn :
    DependsOnlyOn State.byteInput (fun s => (s.ft, s.tree, s.ct, s.payload, s.pad, s.pbits, s.outSyms))
      (resultOf .decompress) :=
  ((((contDeserialize_dependsOnlyOn.runUnit _).andThen ((treeBuild_dependsOnlyOn fun _ _ => rfl).runUnit _)).andThen
    ((codeDerive_dependsOnlyOn fun _ _ => rfl).runUnit _)).andThen (payloadCheck_dependsOnlyOn.runUnit _)).andThen
    (bitUnpack_dependsOnlyOn.runUnit _)

/-- STATUS and ERRINFO after a command show only whether its steps failed, and their failure. -/
theorem report_of_map {α : Type} {out : State → α} {i : Instr} {s s' t t' : State}
    (hmap : (resultOf i s).map out = (resultOf i s').map out) (h : exec i s = .next t) (h' : exec i s' = .next t') :
    (∃ u u', t = u.succeeded ∧ t' = u'.succeeded ∧ out u = out u') ∨
    (∃ c info g, t = (s.discarded i).failed c info g ∧ t' = (s'.discarded i).failed c info g) := by
  rcases exec_cases i s with ⟨u, hu, hx⟩ | ⟨f, hf, hx⟩ <;> rcases exec_cases i s' with ⟨u', hu', hx'⟩ | ⟨f', hf', hx'⟩
  all_goals rw [hx] at h; rw [hx'] at h'; injection h with h; injection h' with h'; subst h h'
  · rw [hu, hu'] at hmap
    exact .inl ⟨u, u', rfl, rfl, Except.ok.inj hmap⟩
  · rw [hu, hf'] at hmap
    cases hmap
  · rw [hf, hu'] at hmap
    cases hmap
  · rw [hf, hf'] at hmap
    cases hmap
    exact .inr ⟨_, _, _, rfl, rfl⟩

/-- Settles O38: the steps depend on the input alone, and a failure leaves the written registers `none`. -/
theorem compositesIgnoreOldWorkingRegisters : Obligations.CompositesIgnoreOldWorkingRegisters := by
  constructor
  · intro s s' t t' hcaps hlen hsyms h h'
    have hmap := compress_dependsOnlyOn s s' (by simp [State.symInput, hcaps, hlen, hsyms])
    rcases report_of_map hmap h h' with ⟨u, u', rfl, rfl, hout⟩ | ⟨c, info, g, rfl, rfl⟩
    · simpa using hout
    · simp [State.discarded]
  · intro s s' t t' hcaps hlen hbytes h h'
    have hmap := decompress_dependsOnlyOn s s' (by simp [State.byteInput, hcaps, hlen, hbytes])
    rcases report_of_map hmap h h' with ⟨u, u', rfl, rfl, hout⟩ | ⟨c, info, g, rfl, rfl⟩
    · simpa using hout
    · simp [State.discarded]

/-! The round trip (R256). -/

/-- A packed buffer as the unpacker takes it apart: an accepted padding count, and behind it the payload's bits. -/
theorem packBits_takes_apart (p : Bits) :
    ∃ b rest, packBits p = b :: rest ∧ b = BitVec.ofNat 8 (padCount p.length) ∧ padOk b.toNat (8 * rest.length) = true ∧
      payloadBits b.toNat rest = p ∧ 8 * rest.length - b.toNat = p.length := by
  obtain ⟨rest, hcons, hbits⟩ := packBits_eq_cons p
  have hle := padCount_le p.length
  have hlen := congrArg List.length hbits
  rw [unpackBits_length, List.length_append, List.length_replicate] at hlen
  refine ⟨_, rest, hcons, rfl, ?_, ?_, ?_⟩ <;> rw [padCount_toNat]
  · rw [padOk_iff]
    omega
  · exact payloadBits_pack hbits
  · omega

/-- Settles O39: the container reads back to the input's table and its packed codes, and the scan of the codes with the
same table emits the input. -/
theorem decompressReversesCompress : Obligations.DecompressReversesCompress := by
  intro s t u c hcaps hpos hout hexec herr hc hucaps hubytes hclen
  obtain ⟨ft, codes, pl, hft, hne, hwf, hcodes, hpl, hcap, rfl⟩ := exec_compress_ok hexec herr
  obtain rfl : containerBytes ft pl = c := Option.some.inj hc
  obtain ⟨b, rest, hcons, hb, hpad, hbits, hlen⟩ := packBits_takes_apart codes.flatten
  rw [hcons] at hpl
  subst hpl
  have hexpected : expectedBytes ft (deriveCodes (build ft)) = rest.length + 1 := by
    have := packBits_length_expected s.inSyms hcodes
    rw [hcons, ← hft] at this
    exact this.symm
  have hin : u.inByteLen.toNat ≤ u.caps.inByte := by
    rw [← inBytes_length, hubytes]
    exact hclen
  obtain ⟨-, hord, -⟩ := id hwf
  have hscan : scanBits (deriveCodes (build ft)) u.caps.outSym [] [] (payloadBits b.toNat rest) = .ok s.inSyms := by
    rw [hbits]
    exact scanBits_of_codes (deriveCodes_wf hne hord) hcodes (by rwa [inSyms_length, hucaps])
  refine ⟨_, exec_of_ok (i := .decompress) (decompressSteps_success.2 ⟨hin, ft, b, rest, s.inSyms, hwf, hne, hubytes,
    by rwa [hucaps], hexpected.le, hpad, hscan, rfl⟩), rfl, rfl, rfl, rfl, rfl, rfl, hb, ?_⟩
  simp [hlen]

end Sys2Proof.Machine

/-! PROOFS of the family `other`, part 5: the host bus: resets and CMD (R38, R300, R301), the accesses R65 and R310 make
ineffective, the reads of R311, the sticky bits (R34), the IN_BYTES window (R63) and STATUS, PAD and PBITS (R34, R40). -/

namespace Sys2Proof.Machine

/-! Resets (R300, R301). -/

/-- The host registers but for the constants of R35. -/
def clearedRegs : List HostReg :=
  [.ctrl, .cmd, .status, .errInfo, .valid, .inSymLen, .inByteLen, .outByteLen, .outSymLen, .payloadLen, .ftN, .treeNodes,
    .treeRoot, .pad, .pbitsLo, .pbitsHi]

/-- R32's reset column, but for the constants. -/
theorem powerOn_readReg (c : Caps) : ∀ r ∈ clearedRegs, (State.powerOn c).readReg r = 0 := by
  have hstatus : (State.powerOn c).statusWord = 0 := by
    simp [State.statusWord, State.isBusy, State.powerOn, Status.reset]
  have hpbits : (State.powerOn c).readReg .pbitsHi = 0 := by simp [State.readReg, State.powerOn]
  simp only [clearedRegs, List.forall_mem_cons]
  exact ⟨rfl, rfl, hstatus, rfl, rfl, rfl, rfl, rfl, rfl, rfl, rfl, rfl, rfl, rfl, rfl, hpbits, List.forall_mem_nil _⟩

/-- Settles O42: every register's reset value. -/
theorem powerOnClearsTheBlock : Obligations.PowerOnClearsTheBlock := by
  refine ⟨fun c => ⟨State.powerOn c, rfl, rfl, rfl, rfl, rfl, rfl, rfl, rfl, rfl, rfl, rfl, rfl, fun _ => rfl, ?_, ?_⟩, rfl⟩
  · have reg : ∀ a ∈ [0x04, 0x08, 0x0C, 0x10, 0x14, 0x18, 0x1C, 0x20, 0x24, 0x28, 0x2C, 0x30, 0x34, 0x38, 0x3C, 0x40],
        ∃ r ∈ clearedRegs, regAt (BitVec.ofNat 32 a).toNat = some r := by decide
    intro a ha
    obtain ⟨r, hr, hreg⟩ := reg a ha
    rw [busValue_reg _ hreg, powerOn_readReg c r hr]
  · exact ⟨busValue_reg _ (r := .id) rfl, busValue_reg _ (r := .capInSym) rfl, busValue_reg _ (r := .capInByte) rfl,
      busValue_reg _ (r := .capOutByte) rfl, busValue_reg _ (r := .capOutSym) rfl, busValue_reg _ (r := .capPayload) rfl,
      busValue_reg _ (r := .symMax) rfl⟩

/-- A CTRL write with SOFT_RESET, in either phase (R33). -/
theorem busWrite_softReset (s : State) {v : Word} (h : v.getLsbD 0 = true) : s.busWrite 0x00000004 v = s.softReset := by
  rw [busWrite_ctrl s v (by decide)]
  exact if_pos h

/-- Settles O43. -/
theorem softResetKeepsOnlyTheRams : Obligations.SoftResetKeepsOnlyTheRams := by
  intro s v h
  rw [busWrite_softReset s h]
  exact ⟨rfl, fun _ => rfl⟩

/-! Writes while BUSY, and CMD (R38, R310). -/

theorem busWrite_busy {s : State} {a : Word} (v : Word) (hp : s.phase ≠ .idle) (he : s.writeEffective a = true)
    (hc : isCtrl a = false) : s.busWrite a v = s.setOverrun := by
  simp [State.busWrite, he, hc, (isBusy_iff s).2 hp]

theorem isCtrl_eq_false {a : Word} (h : a.toNat ≠ 4) : isCtrl a = false := by
  rw [← Bool.not_eq_true, isCtrl_iff]
  exact h

/-- Settles O45: acceptance in IDLE, refusal while BUSY, and CMD's read. -/
theorem cmdWritesAreAcceptedWhenIdle : Obligations.CmdWritesAreAcceptedWhenIdle := by
  refine fun s w => ⟨fun hp => ⟨Config.freeLatency s.draws, busWrite_cmd w hp⟩, fun hp => ?_, busValue_reg s (r := .cmd) rfl⟩
  exact busWrite_busy w hp (writeEffective_reg s (by decide)) (by decide)

/-! Reads (R65, R311). -/

theorem busRead_misaligned (s : State) {a : Word} (h : a.toNat % 4 ≠ 0) : s.busRead a = s.setBusErr.answer 0 := by
  rcases busRead_cases s a with ⟨-, e⟩ | ⟨h', -⟩ | ⟨h', -⟩
  · exact e
  · exact absurd h' h
  · exact absurd h' h

/-- An aligned read of what R311 does not list, or in IDLE, answers the word of its address. -/
theorem busRead_word {s : State} {a : Word} (h4 : a.toNat % 4 = 0)
    (h : s.phase = .idle ∨ ¬ unspecifiedWhileBusy a.toNat) : s.busRead a = s.answer (s.busValue a) := by
  rcases busRead_cases s a with ⟨h', -⟩ | ⟨-, hp, hh, -⟩ | ⟨-, -, e⟩
  · exact absurd h4 h'
  · rcases h with h | h
    · exact absurd h hp
    · exact absurd ((hiddenWhileBusy_iff a h4).1 hh) h
  · exact e

theorem busRead_unspecified {s : State} {a : Word} (h4 : a.toNat % 4 = 0) (hp : s.phase ≠ .idle)
    (h : unspecifiedWhileBusy a.toNat) :
    s.busRead a = { s.answer (Config.freeRead s.draws) with draws := s.draws + 1 } := by
  rcases busRead_cases s a with ⟨h', -⟩ | ⟨-, -, -, e⟩ | ⟨-, hp' | hh, -⟩
  · exact absurd h4 h'
  · exact e
  · exact absurd hp' hp
  · rw [(hiddenWhileBusy_iff a h4).2 h] at hh
    cases hh

/-- Settles O48: the aligned reads, by R311's list. -/
theorem busyReadsOfResultsAreDraws : Obligations.BusyReadsOfResultsAreDraws :=
  fun _ _ hp h4 => ⟨busRead_unspecified h4 hp, fun h => busRead_word h4 (.inr h)⟩

/-- A reserved address reads 0 (R65). -/
theorem busValue_reserved (s : State) {a : Word}
    (h : (0x5C ≤ a.toNat ∧ a.toNat < 0x10000000) ∨ 0x90000000 ≤ a.toNat) : s.busValue a = 0 := by
  rcases regionOf_cases a with ⟨hr, -, hoff⟩ | ⟨-, h1, h2, -⟩ | ⟨-, h1, h2, -⟩ | ⟨hr, -⟩ | ⟨-, -, -, -, -, h1, h2⟩
  · have hnone : regAt (windowOffset a) = none := by
      have := (regionOf_regs_iff a).1 hr
      exact regAt_none (by omega)
    simp [State.busValue, hr, hnone]
  · omega
  · omega
  · simp [State.busValue, hr]
  · omega

/-- The word of an address does not depend on what was read before. -/
theorem busValue_answer (s : State) (v a : Word) : (s.answer v).busValue a = s.busValue a := rfl

/-! The sticky bits (R34). -/

/-- BUSERR and OVERRUN are set in `t` where they are in `s`. -/
def KeepsSticky (s t : State) : Prop :=
  (s.status.busErr = true → t.status.busErr = true) ∧ (s.status.overrun = true → t.status.overrun = true)

theorem KeepsSticky.of_eq {s t : State} (hb : t.status.busErr = s.status.busErr) (ho : t.status.overrun = s.status.overrun) :
    KeepsSticky s t :=
  ⟨fun h => hb.trans h, fun h => ho.trans h⟩

theorem setBusErr_keepsSticky (s : State) : KeepsSticky s s.setBusErr := ⟨fun _ => rfl, id⟩

theorem setOverrun_keepsSticky (s : State) : KeepsSticky s s.setOverrun := ⟨id, fun _ => rfl⟩

theorem busRead_keepsSticky (s : State) (a : Word) : KeepsSticky s (s.busRead a) := by
  rcases busRead_cases s a with ⟨-, e⟩ | ⟨-, -, -, e⟩ | ⟨-, -, e⟩ <;> rw [e]
  · exact setBusErr_keepsSticky s
  · exact .of_eq rfl rfl
  · exact .of_eq rfl rfl

/-- A write to CTRL with SOFT_RESET or CLR_STICKY (R33). -/
def clearsSticky (a v : Word) : Prop := a = 0x00000004 ∧ (v.getLsbD 0 = true ∨ v.getLsbD 3 = true)

theorem busWrite_sticky_cases (s : State) (a v : Word) : KeepsSticky s (s.busWrite a v) ∨ clearsSticky a v := by
  rcases busWrite_cases s a v with ⟨-, e⟩ | ⟨-, hc, e⟩ | ⟨-, -, -, e⟩ | ⟨-, -, -, e⟩ <;> rw [e]
  · exact .inl (setBusErr_keepsSticky s)
  · have ha : a = 0x00000004 := BitVec.eq_of_toNat_eq ((isCtrl_iff a).1 hc)
    rcases writeCtrl_cases s v with ⟨h0, -⟩ | ⟨-, e⟩
    · exact .inr ⟨ha, .inl h0⟩
    · cases h3 : v.getLsbD 3
      · simp only [h3, Bool.not_false, Bool.and_true] at e
        rw [e]
        exact .inl (.of_eq rfl rfl)
      · exact .inr ⟨ha, .inr h3⟩
  · exact .inl (setOverrun_keepsSticky s)
  · rcases writeIdle_cases s a v with ⟨-, e⟩ | e | e | e | ⟨-, e⟩ <;> rw [e] <;> exact .inl (.of_eq rfl rfl)

/-- The host's next access is a write that clears the sticky bits. -/
def State.hostClearsSticky (s : State) : Prop :=
  ∃ v rest, s.bus = .write 0x00000004 v :: rest ∧ (v.getLsbD 0 = true ∨ v.getLsbD 3 = true)

theorem hostStep_sticky_cases (s : State) : KeepsSticky s s.hostStep ∨ s.hostClearsSticky := by
  rcases hostStep_cases s with ⟨-, e⟩ | ⟨a, rest, -, e⟩ | ⟨a, v, rest, hb, e⟩ | ⟨rest, -, -, e⟩ | ⟨rest, -, -, e⟩ <;> rw [e]
  · exact .inl (.of_eq rfl rfl)
  · exact .inl (busRead_keepsSticky { s with bus := rest } a)
  · refine (busWrite_sticky_cases { s with bus := rest } a v).imp_right ?_
    rintro ⟨rfl, hv⟩
    exact ⟨v, rest, hb, hv⟩
  · exact .inl (busRead_keepsSticky s statusAddr)
  · exact .inl (busRead_keepsSticky { s with bus := rest } statusAddr)

/-- Every step keeps the sticky bits, but for the host's turn with a write that clears them. -/
theorem step_sticky_cases {s t : State} (h : step s = .next t) : KeepsSticky s t ∨ s.hostClearsSticky := by
  rcases step_cases s with ⟨-, e⟩ | ⟨_, _, -, -, e⟩ | ⟨_, _, i, -, -, -, e⟩ | ⟨_, _, _, -, -, -, e⟩ <;> rw [e] at h
  · injection h with h; subst h; exact hostStep_sticky_cases s
  · injection h with h; subst h; exact hostStep_sticky_cases s.tick
  · obtain ⟨hb, ho⟩ := exec_sticky h
    exact .inl (.of_eq hb ho)
  · injection h with h; subst h; exact .inl (.of_eq rfl rfl)

/-- Settles O46: the accesses R65 turns away, the reads, and what clears BUSERR. -/
theorem ineffectiveAccessesOnlySetBusErr : Obligations.IneffectiveAccessesOnlySetBusErr := by
  refine ⟨fun s a => busRead_misaligned s, fun s a v => busWrite_dead s a v, fun s a h4 h => ?reserved, fun s a h4 => ?frame,
    fun s a h4 hp => ?idle, fun s t h hs ht => ?sticky⟩
  case reserved =>
    rw [busRead_word h4 (.inr (by unfold unspecifiedWhileBusy; omega)), busValue_reserved s h]
    rfl
  case frame =>
    rcases busRead_cases s a with ⟨h, -⟩ | ⟨-, -, -, e⟩ | ⟨-, -, e⟩
    · exact absurd h4 h
    · rw [e]; rfl
    · rw [e]; rfl
  case idle =>
    have hread := busRead_word (s := s) h4 (.inl hp)
    rw [hread, busRead_word (s := s.answer (s.busValue a)) h4 (.inl hp), busValue_answer]
    exact ⟨rfl, by simp [State.answer]⟩
  case sticky =>
    rcases step_sticky_cases h with ⟨hb, -⟩ | hclears
    · rw [hb hs] at ht; cases ht
    · exact hclears

/-- Settles O47: the writes R310 refuses are effective and not to CTRL; and what clears OVERRUN. -/
theorem busyEngineRefusesWrites : Obligations.BusyEngineRefusesWrites := by
  refine ⟨fun s a v hp => ⟨fun h4 h => ?_, busWrite_dead s a v⟩, fun s t h hs ht => ?_⟩
  · simp only [List.mem_cons, List.not_mem_nil, or_false] at h
    exact busWrite_busy v hp ((writeEffective_iff s a).2 ⟨h4, by omega⟩) (isCtrl_eq_false (by omega))
  · rcases step_sticky_cases h with ⟨-, ho⟩ | hclears
    · rw [ho hs] at ht; cases ht
    · exact hclears

/-! The IN_BYTES window (R63). -/

theorem busValue_inBytes (s : State) {k : Nat} (hk : k < 2 ^ 26) :
    s.busValue (BitVec.ofNat 32 (0x20000000 + 4 * k)) = s.inBytesWord k := by
  obtain ⟨hr, hw⟩ := window_of_base (base := 0x20000000) (r := .inBytes) rfl (by decide) hk
  simp only [State.busValue, hr, hw]

/-- An IDLE write to an IN_BYTES word in range stores its bytes below IN_BYTE_CAP. -/
theorem busWrite_inBytes {s : State} {k : Nat} (v : Word) (hk : k < 2 ^ 26) (hc : 4 * k < s.caps.inByte)
    (hp : s.phase = .idle) :
    s.busWrite (BitVec.ofNat 32 (0x20000000 + 4 * k)) v =
      { s with mem := memStore s.mem (0x20000000 + 4 * k) ((be32 v.toNat).take (s.caps.inByte - 4 * k)) } := by
  have haddr : (BitVec.ofNat 32 (0x20000000 + 4 * k)).toNat = 0x20000000 + 4 * k := toNat_ofNat_of_lt (by omega)
  have hr := (window_of_base (base := 0x20000000) (r := .inBytes) rfl (by decide) hk).1
  have hoff : windowOffset (BitVec.ofNat 32 (0x20000000 + 4 * k)) = 4 * k :=
    windowOffset_ofNat (by decide) (by omega) (by omega)
  have he : s.writeEffective (BitVec.ofNat 32 (0x20000000 + 4 * k)) = true := by
    rw [writeEffective_iff, haddr]
    omega
  rw [busWrite_ram s _ v hp he (by simp [hr])]
  simp only [State.writeRam, haddr, hr, hoff]
  rfl

/-- The bytes of a word, the first most significant (R69). -/
theorem be32_getElem? (v : Word) {j : Nat} (hj : j < 4) : (be32 v.toNat)[j]? = some (v.extractLsb' (24 - 8 * j) 8) := by
  have byte : ∀ n, BitVec.ofNat 8 (v.toNat / 2 ^ n) = v.extractLsb' n 8 := fun n =>
    BitVec.eq_of_toNat_eq (by rw [BitVec.toNat_ofNat, BitVec.extractLsb'_toNat, Nat.shiftRight_eq_div_pow])
  match j, hj with
  | 0, _ => exact congrArg some (byte 24)
  | 1, _ => exact congrArg some (byte 16)
  | 2, _ => exact congrArg some (byte 8)
  | 3, _ => exact congrArg some ((congrArg _ (Nat.div_one _).symm).trans (byte 0))

/-- Settles O50: a word's read as its four bytes, and its write as a store of the bytes in range. -/
theorem inBytesWindowIsBigEndian : Obligations.InBytesWindowIsBigEndian := by
  rintro s k _ v hk rfl
  refine ⟨fun byte hbyte => ?read, fun hc hp => ?write, fun hc => ?dead⟩
  case read =>
    have hb : ∀ j, byte j = s.inBytesByte (4 * k + j) := fun j => by
      rw [hbyte, State.inBytesByte, byteAddr, Nat.add_assoc]
    rw [busValue_inBytes s hk, State.inBytesWord, ofNat_beVal_eq_word4, hb, hb, hb, hb]
    rfl
  case write =>
    rw [busWrite_inBytes v hk hc hp]
    refine ⟨fun j hj hjc => ?_, fun x hx => ?_, rfl⟩
    · rw [ramByte_memStore, be32_take_length, if_pos (by omega), Nat.add_sub_cancel_left,
        List.getElem?_take_of_lt (by omega), be32_getElem? v hj, Option.getD_some]
    · rw [ramByte_memStore, be32_take_length, if_neg (by omega)]
  case dead =>
    refine busWrite_dead s _ v (.inr ?_)
    rw [toNat_ofNat_of_lt (by omega)]
    unfold deadAddress
    omega

/-! STATUS, PAD and PBITS (R34, R40). -/

/-- A field of a word, from its lowest bit's position. -/
theorem field_getLsbD {w : Nat} (x : BitVec w) (n : Nat) {k : Nat} (hk : k < 32) :
    (x.setWidth 32 <<< n).getLsbD k = (decide (n ≤ k) && x.getLsbD (k - n)) := by
  have hlt : k - n < 32 := by omega
  rw [BitVec.getLsbD_shiftLeft, BitVec.getLsbD_setWidth, decide_eq_true hk, decide_eq_true hlt, Bool.true_and,
    Bool.true_and, ← decide_not]
  simp only [Nat.not_lt]

/-- Bit k of STATUS: that of the field it lies in. -/
theorem statusWord_getLsbD (s : State) {k : Nat} (hk : k < 32) : s.statusWord.getLsbD k =
    ((decide (0 ≤ k) && (BitVec.ofBool s.isBusy).getLsbD (k - 0)) ||
      (decide (1 ≤ k) && (BitVec.ofBool s.status.done).getLsbD (k - 1)) ||
      (decide (2 ≤ k) && (BitVec.ofBool s.status.err).getLsbD (k - 2)) ||
      (decide (8 ≤ k) && s.status.errCode.getLsbD (k - 8)) || (decide (16 ≤ k) && s.status.stage.getLsbD (k - 16)) ||
      (decide (30 ≤ k) && (BitVec.ofBool s.status.busErr).getLsbD (k - 30)) ||
      (decide (31 ≤ k) && (BitVec.ofBool s.status.overrun).getLsbD (k - 31))) := by
  simp only [← field_getLsbD _ _ hk, ← BitVec.getLsbD_or, BitVec.shiftLeft_zero, State.statusWord]

theorem statusWord_flags (s : State) :
    s.statusWord.getLsbD 0 = s.isBusy ∧ s.statusWord.getLsbD 1 = s.status.done ∧ s.statusWord.getLsbD 2 = s.status.err ∧
    s.statusWord.getLsbD 30 = s.status.busErr ∧ s.statusWord.getLsbD 31 = s.status.overrun := by
  refine ⟨?_, ?_, ?_, ?_, ?_⟩ <;> rw [statusWord_getLsbD s (by decide)] <;> simp

/-- The fields of several bits and the reserved bits, bit by bit. -/
theorem statusWord_fields (s : State) :
    s.statusWord.extractLsb' 3 5 = 0 ∧ s.statusWord.extractLsb' 8 4 = s.status.errCode ∧
    s.statusWord.extractLsb' 12 4 = 0 ∧ s.statusWord.extractLsb' 16 8 = s.status.stage ∧
    s.statusWord.extractLsb' 24 6 = 0 := by
  refine ⟨?_, ?_, ?_, ?_, ?_⟩ <;> refine BitVec.eq_of_getLsbD_eq fun k hk => ?_ <;>
    rw [BitVec.getLsbD_extractLsb', statusWord_getLsbD s (by omega)] <;> interval_cases k <;> simp

/-- The two halves of PBITS make up its number (R40). -/
theorem pbits_halves (n : BitVec 64) : (n.extractLsb' 32 32).toNat * 2 ^ 32 + (n.extractLsb' 0 32).toNat = n.toNat := by
  have := n.isLt
  rw [BitVec.extractLsb'_toNat, BitVec.extractLsb'_toNat, Nat.shiftRight_eq_div_pow, Nat.shiftRight_zero]
  omega

/-- Settles O55: the fields of STATUS, and the registers' values. -/
theorem statusPadAndPbitsReadAsLaidOut : Obligations.StatusPadAndPbitsReadAsLaidOut := by
  intro s
  have hstatus : s.busValue 0x0C = s.statusWord := busValue_reg s (r := .status) rfl
  have hpad : s.busValue 0x38 = s.pad.setWidth 32 := busValue_reg s (r := .pad) rfl
  have hlo : s.busValue 0x3C = s.pbits.extractLsb' 0 32 := busValue_reg s (r := .pbitsLo) rfl
  have hhi : s.busValue 0x40 = s.pbits.extractLsb' 32 32 := busValue_reg s (r := .pbitsHi) rfl
  rw [hstatus, hpad, hlo, hhi]
  obtain ⟨busy, done, err, busErr, overrun⟩ := statusWord_flags s
  obtain ⟨low, errCode, mid, stage, high⟩ := statusWord_fields s
  refine ⟨busy, done, err, low, errCode, mid, stage, high, busErr, overrun, busValue_reg s (r := .errInfo) rfl,
    BitVec.toNat_setWidth_of_le (by decide), pbits_halves s.pbits, fun hinv => ?_⟩
  have hpbits := hinv.pbits
  obtain ⟨-, -, -, -, -, hcap⟩ := hinv.caps
  omega

end Sys2Proof.Machine

/-! PROOFS of the family `other`, part 6: host and engine (R70, R310, R314): what an access leaves of a running command,
the time to its completion, the race of program P6, and the load scripts of R96. -/

namespace Sys2Proof.Machine

/-! A host access while BUSY (R70, R310). -/

/-- A running command, its inputs and every working register are in `t` as in `s`. -/
def KeepsCommand (s t : State) : Prop :=
  t = { s with irqEn := t.irqEn, status := t.status, draws := t.draws, bus := t.bus, reads := t.reads }

theorem busRead_keepsCommand (s : State) (a : Word) : KeepsCommand s (s.busRead a) := by
  rcases busRead_cases s a with ⟨-, e⟩ | ⟨-, -, -, e⟩ | ⟨-, -, e⟩ <;> rw [e] <;> rfl

/-- A write while BUSY is a soft reset, or leaves the command. -/
theorem busWrite_busy_cases {s : State} (a v : Word) (hp : s.phase ≠ .idle) :
    (a = 0x00000004 ∧ v.getLsbD 0 = true ∧ s.busWrite a v = s.softReset) ∨ KeepsCommand s (s.busWrite a v) := by
  rcases busWrite_cases s a v with ⟨-, e⟩ | ⟨-, hc, e⟩ | ⟨-, -, -, e⟩ | ⟨-, -, hidle, -⟩
  · rw [e]; exact .inr rfl
  · have ha : a = 0x00000004 := BitVec.eq_of_toNat_eq ((isCtrl_iff a).1 hc)
    rcases writeCtrl_cases s v with ⟨h0, e'⟩ | ⟨-, e'⟩ <;> rw [e, e']
    · exact .inl ⟨ha, h0, rfl⟩
    · exact .inr rfl
  · rw [e]; exact .inr rfl
  · exact absurd hidle hp

/-- The host's turn while BUSY is a soft reset, or leaves the command. -/
theorem hostStep_busy_cases {s : State} (hp : s.phase ≠ .idle) :
    (s.hostStep.phase = .idle ∧ ∃ v rest, s.bus = .write 0x00000004 v :: rest ∧ v.getLsbD 0 = true) ∨
    KeepsCommand s s.hostStep := by
  rcases hostStep_cases s with ⟨-, e⟩ | ⟨a, rest, -, e⟩ | ⟨a, v, rest, hb, e⟩ | ⟨rest, -, -, e⟩ | ⟨_, -, hidle, -⟩
  · rw [e]; exact .inr rfl
  · rw [e]; exact .inr (busRead_keepsCommand { s with bus := rest } a)
  · rw [e]
    rcases busWrite_busy_cases (s := { s with bus := rest }) a v hp with ⟨rfl, h0, e'⟩ | hkeeps
    · rw [e']
      exact .inl ⟨rfl, v, rest, hb, h0⟩
    · exact .inr hkeeps
  · rw [e]; exact .inr (busRead_keepsCommand s statusAddr)
  · exact absurd hidle hp

/-- Settles O58: the host's turn keeps the command, if it is no soft reset. -/
theorem inputsCannotChangeUnderACommand : Obligations.InputsCannotChangeUnderACommand := by
  intro s t w k hp ht h
  rw [step_of_hostTurn hp ht] at h
  injection h with h
  rcases hostStep_busy_cases (s := s.tick) (by rw [State.tick_phase, hp]; exact Phase.noConfusion) with hreset | hkeeps
  · exact .inl (h ▸ hreset)
  · rw [h] at hkeeps
    rw [hkeeps]
    exact .inr ⟨hp, rfl, rfl, rfl, rfl, rfl, rfl, rfl, rfl, rfl, rfl, rfl, rfl, rfl, rfl⟩

/-! The time to completion (R314). -/

/-- Settles O7, by induction on the latency: each host access performed while BUSY lowers it, and at 0 the engine
completes. -/
theorem busyEngineFinishes : Obligations.BusyEngineFinishes := by
  intro s hp
  induction hn : s.latency using Nat.strong_induction_on generalizing s with
  | _ n ih =>
    subst hn
    have now : ∀ {t}, step s = .next t → t.phase = .idle →
        ∃ k t, k ≤ s.latency + 1 ∧ Host.Core.run core k s = .next t ∧ t.phase = .idle := fun h hidle =>
      ⟨1, _, by omega, run_succ 0 h, hidle⟩
    rcases step_cases s with ⟨hidle, -⟩ | ⟨w, k, hbusy, ht, e⟩ | ⟨_, _, i, -, -, -, e⟩ | ⟨w, _, _, -, -, -, e⟩
    · exact absurd hidle hp
    · have hlat : s.latency ≠ 0 := fun h => by
        rw [(engineTurn_iff hbusy).2 (.inl h)] at ht
        cases ht
      rcases hostStep_busy_cases (s := s.tick) hp with ⟨hidle, -⟩ | hkeeps
      · exact now e hidle
      · have hlat' : s.tick.hostStep.latency = s.latency - 1 := by rw [hkeeps]; rfl
        have hp' : s.tick.hostStep.phase ≠ .idle := by rw [hkeeps]; exact hp
        obtain ⟨k, t, hk, hrun, hidle⟩ := ih _ (by omega) s.tick.hostStep hp' hlat'
        exact ⟨k + 1, t, by omega, (run_succ k e).trans hrun, hidle⟩
    · obtain ⟨t, ht⟩ := exec_next i s
      exact now (e.trans ht) (exec_idle ht)
    · exact now e rfl

/-! The race of program P6 (U4). -/

/-- A command's result with other bookkeeping: the latency, the queue and the sticky bits are those of the start. -/
theorem exec_rebook {i : Instr} {s r : State} (h : exec i s = .next r) (st : Status) (l : Nat) (b : List HostOp) :
    exec i { s with status := st, latency := l, bus := b } = .next { r with
      status := { r.status with busErr := st.busErr, overrun := st.overrun }, latency := l, bus := b } := by
  have hblind := resultOf_blind i s s.phase st s.errInfo l b
  rcases exec_cases i s with ⟨u, hu, hx⟩ | ⟨f, hf, hx⟩ <;> rw [hx] at h <;> injection h with h <;> subst h
  · rw [hu] at hblind
    exact exec_of_ok hblind
  · rw [hf] at hblind
    refine (exec_of_error hblind).trans ?_
    cases i <;> rfl

/-- An IN_SYMS word in range is an effective address outside the registers (R62, R65). -/
theorem writeEffective_inSyms {s : State} {j : Nat} (hw : s.caps.wf) (hj : j < s.caps.inSym) :
    s.writeEffective (BitVec.ofNat 32 (0x10000000 + 4 * j)) = true := by
  obtain ⟨⟨-, hcap⟩, -⟩ := hw
  rw [writeEffective_iff, toNat_ofNat_of_lt (by omega)]
  omega

theorem exec_bus {i : Instr} {s t : State} (h : exec i s = .next t) : t.bus = s.bus := by
  obtain ⟨u, _, _, _, hsame, -, rfl⟩ := exec_frame h
  exact hsame.bus

/-- Settles O59: with latency 0 the engine moves first, else the host does; the command does not look at what the refused
write changed. -/
theorem racingWriteHasBothOutcomes : Obligations.RacingWriteHasBothOutcomes := by
  intro s r i w v j n hwf hp hd hj hbus hexec
  obtain ⟨hbusErr, hoverrun⟩ := exec_sticky hexec
  have hrcaps := exec_caps hexec
  have hrbus := exec_bus hexec
  have hidle := exec_idle hexec
  have hj26 : j < 2 ^ 26 := by
    obtain ⟨⟨-, hcap⟩, -⟩ := hwf
    omega
  constructor
  · let s₀ : State := { s with latency := 0 }
    let r₀ : State := { r with latency := 0 }
    have hfirst : step s₀ = .next r₀ := by
      refine (step_of_decoded (s := s₀) hp ((engineTurn_iff (s := s₀) hp).2 (.inl rfl)) hd).trans
        ((exec_rebook hexec s.status 0 s.bus).trans ?_)
      rw [← hrbus, ← hbusErr, ← hoverrun]
    have hsecond := step_idle_write (s := r₀) hidle (hrbus.trans hbus)
    have hwrite : ({ r₀ with bus := [] } : State).busWrite (BitVec.ofNat 32 (0x10000000 + 4 * j)) v =
        { r.busWrite (BitVec.ofNat 32 (0x10000000 + 4 * j)) v with latency := 0, bus := [] } := by
      rw [busWrite_inSyms (s := r) v hj26 (hrcaps ▸ hj) hidle]
      exact busWrite_inSyms (s := { r₀ with bus := [] }) v hj26 (hrcaps ▸ hj) hidle
    exact (run_succ 1 hfirst).trans ((run_succ 0 hsecond).trans (congrArg Host.Outcome.next hwrite))
  · let s₁ : State := { s with latency := n + 1 }
    let u : State := { s with latency := n, bus := [], status := { s.status with overrun := true } }
    have hfirst : step s₁ = .next u := by
      have hturn : s₁.engineTurn = false := by
        simp [s₁, State.engineTurn, hbus]
      refine (step_of_hostTurn (s := s₁) hp hturn).trans (congrArg Host.Outcome.next ?_)
      refine (hostStep_write (s := s₁.tick) hbus).trans ?_
      refine busWrite_busy (s := { s₁.tick with bus := [] }) v (fun h => Phase.noConfusion (hp.symm.trans h))
        (writeEffective_inSyms hwf hj) (isCtrl_eq_false ?_)
      rw [toNat_ofNat_of_lt (by omega)]
      omega
    have hsecond : step u = .next { r with latency := n, bus := [], status := { r.status with overrun := true } } := by
      refine (step_of_decoded (s := u) hp ((engineTurn_iff (s := u) hp).2 (.inr rfl)) hd).trans
        ((exec_rebook hexec u.status n []).trans ?_)
      rw [show u.status.busErr = r.status.busErr from hbusErr.symm]
    exact (run_succ 1 hfirst).trans (run_succ 0 hsecond)

/-! The load scripts (R96). -/

theorem memStore_append (m : Memory) (a : Nat) (bs cs : List Byte) :
    memStore m a (bs ++ cs) = memStore (memStore m a bs) (a + bs.length) cs := by
  induction bs generalizing m a with
  | nil => rfl
  | cons b bs ih =>
    rw [List.cons_append, memStore, memStore, ih, List.length_cons, Nat.add_right_comm, Nat.add_assoc]

/-- The words' bytes stored from `base` on, but for those beyond the window's `cap` bytes. -/
def State.storeWords (s : State) (base cap : Nat) (ys : List Word) : State :=
  { s with mem := memStore s.mem base ((ys.flatMap fun v => be32 v.toNat).take cap) }

/-- Storing a first word and then the others: one store, as only a last word can pass the window's end. -/
theorem storeWords_cons (s : State) {base cap : Nat} (v : Word) {ys : List Word} (h : 4 * ys.length < cap) :
    s.storeWords base cap (v :: ys) =
      { s with mem := memStore s.mem base ((be32 v.toNat).take cap) }.storeWords (base + 4) (cap - 4) ys := by
  have hmem : memStore s.mem base (((v :: ys).flatMap fun v => be32 v.toNat).take cap) =
      memStore (memStore s.mem base ((be32 v.toNat).take cap)) (base + 4) ((ys.flatMap fun v => be32 v.toNat).take (cap - 4)) := by
    rw [List.flatMap_cons, List.take_append, memStore_append, be32_length, be32_take_length]
    cases ys with
    | nil => simp [memStore]
    | cons y ys =>
      rw [List.length_cons] at h
      rw [Nat.min_eq_right (by omega)]
  exact congrArg (fun m => ({ s with mem := m } : State)) hmem

theorem flatMap_be32_length (ys : List Word) : (ys.flatMap fun v => be32 v.toNat).length = 4 * ys.length := by
  induction ys with
  | nil => rfl
  | cons y ys ih => rw [List.flatMap_cons, List.length_append, ih, be32_length, List.length_cons]; omega

theorem flatMap_be32_getElem? (ys : List Word) (i : Nat) {j : Nat} (hj : j < 4) :
    (ys.flatMap fun v => be32 v.toNat)[4 * i + j]? = ys[i]?.bind fun v => (be32 v.toNat)[j]? := by
  induction ys generalizing i with
  | nil => rfl
  | cons y ys ih =>
    rw [List.flatMap_cons]
    cases i with
    | zero => rw [List.getElem?_append_left (by rw [be32_length]; omega), Nat.mul_zero, Nat.zero_add]; rfl
    | succ i =>
      rw [List.getElem?_append_right (by rw [be32_length]; omega), be32_length, List.getElem?_cons_succ, ← ih i]
      congr 1
      omega

/-- Byte `j` of word `i` after the store. -/
theorem ramByte_storeWords (s : State) {base cap : Nat} {ys : List Word} {i j : Nat} {v : Word} (hv : ys[i]? = some v)
    (hj : j < 4) (hcap : 4 * i + j < cap) :
    some ((s.storeWords base cap ys).ramByte (base + (4 * i + j))) = (be32 v.toNat)[j]? := by
  obtain ⟨hi, -⟩ := List.getElem?_eq_some_iff.1 hv
  have hbyte := flatMap_be32_getElem? ys i hj
  rw [hv, Option.bind_some, be32_getElem? v hj] at hbyte
  rw [State.storeWords, ramByte_memStore, List.length_take, flatMap_be32_length, if_pos (by omega), Nat.add_sub_cancel_left,
    List.getElem?_take_of_lt hcap, hbyte, be32_getElem? v hj, Option.getD_some]

theorem ramByte_storeWords_outside (s : State) {base cap a : Nat} {ys : List Word}
    (h : a < base ∨ base + 4 * ys.length ≤ a) : (s.storeWords base cap ys).ramByte a = s.ramByte a := by
  rw [State.storeWords, ramByte_memStore, List.length_take, flatMap_be32_length, if_neg (by omega)]

/-- The writes of words to consecutive addresses of a window, from word `n` on. -/
def wordWrites (base n : Nat) (ys : List Word) : List HostOp :=
  (ys.zipIdx n).map fun x => .write (BitVec.ofNat 32 (base + 4 * x.2)) x.1

/-- An IDLE write to a word of the window at `base` stores what lies within its `cap` bytes. -/
def StoresWords (c : Caps) (base cap : Nat) : Prop :=
  ∀ (u : State) (k : Nat) (v : Word), u.caps = c → u.phase = .idle → 4 * k < cap →
    u.busWrite (BitVec.ofNat 32 (base + 4 * k)) v =
      { u with mem := memStore u.mem (base + 4 * k) ((be32 v.toNat).take (cap - 4 * k)) }

theorem storesWords_inSyms {c : Caps} (hw : c.wf) : StoresWords c 0x10000000 (4 * c.inSym) := by
  rintro u k v rfl hidle hk
  obtain ⟨⟨-, hcap⟩, -⟩ := hw
  rw [List.take_of_length_le (by rw [be32_length]; omega)]
  exact busWrite_inSyms v (by omega) (by omega) hidle

theorem storesWords_inBytes {c : Caps} (hw : c.wf) : StoresWords c 0x20000000 c.inByte := by
  rintro u k v rfl hidle hk
  obtain ⟨-, ⟨-, hcap⟩, -⟩ := hw
  exact busWrite_inBytes v (by omega) hk hidle

/-- In IDLE, the queued writes of words store them one after another. -/
theorem run_wordWrites {c : Caps} {base cap : Nat} (hw : StoresWords c base cap) {ys : List Word} {n m : Nat} {s : State}
    {rest : List HostOp} (hc : s.caps = c) (hp : s.phase = .idle) (hn : 4 * n + 4 * ys.length < cap + 4)
    (hb : s.bus = wordWrites base n ys ++ rest) :
    Host.Core.run core (ys.length + m) s =
      Host.Core.run core m { s.storeWords (base + 4 * n) (cap - 4 * n) ys with bus := rest } := by
  induction ys generalizing n s with
  | nil =>
    rw [List.length_nil, Nat.zero_add, show rest = s.bus from hb.symm]
    simp [State.storeWords, memStore]
  | cons v ys ih =>
    rw [List.length_cons] at hn
    let u : State := { s with bus := wordWrites base (n + 1) ys ++ rest }
    have hfirst := (step_idle_write (s := s) hp hb).trans
      (congrArg Host.Outcome.next (hw u n v hc hp (by omega)))
    have hrest := ih (n := n + 1) (s := { u with mem := memStore u.mem (base + 4 * n) ((be32 v.toNat).take (cap - 4 * n)) })
      hc hp (by omega) rfl
    rw [List.length_cons, Nat.add_right_comm, run_succ _ hfirst, hrest, storeWords_cons s v (by omega),
      Nat.mul_succ, ← Nat.add_assoc, Nat.sub_add_eq]
    rfl

/-- The words' writes, then one write more. -/
theorem run_wordWrites_then {c : Caps} {base cap : Nat} (hw : StoresWords c base cap) {ys : List Word} {s : State} {a v : Word}
    {rest : List HostOp} (hc : s.caps = c) (hp : s.phase = .idle) (hn : 4 * ys.length < cap + 4)
    (hb : s.bus = wordWrites base 0 ys ++ .write a v :: rest) :
    Host.Core.run core (ys.length + 1) s = .next ({ s.storeWords base cap ys with bus := rest }.busWrite a v) := by
  rw [run_wordWrites hw hc hp (by omega) hb]
  exact run_succ 0 (step_idle_write (s := { s.storeWords base cap ys with bus := .write a v :: rest }) hp rfl)

/-- LDSYM's accesses: the words, then IN_SYM_LEN. -/
theorem run_scriptLdSym {s : State} {xs : List Word} {rest : List HostOp} (hw : s.caps.wf) (hp : s.phase = .idle)
    (hlen : xs.length ≤ s.caps.inSym) :
    Host.Core.run core (scriptLdSym xs).length { s with bus := scriptLdSym xs ++ rest } =
      .next { s.storeWords 0x10000000 (4 * s.caps.inSym) xs with
        inSymLen := BitVec.ofNat 32 xs.length, bus := rest } := by
  have hlength : (scriptLdSym xs).length = xs.length + 1 := by simp [scriptLdSym]
  rw [hlength]
  have hrun := run_wordWrites_then (s := { s with bus := scriptLdSym xs ++ rest }) (ys := xs) (storesWords_inSyms hw) rfl hp
    (by omega) (by rw [scriptLdSym, List.append_assoc]; rfl)
  exact hrun.trans (congrArg Host.Outcome.next (busWrite_inSymLen _ hp))

/-- The words of LDBYTES. -/
def byteListWords (bs : List Byte) : List Word := (List.range ((bs.length + 3) / 4)).map (byteListWord bs)

theorem byteListWords_length (bs : List Byte) : (byteListWords bs).length = (bs.length + 3) / 4 := by
  simp [byteListWords]

theorem scriptLdBytes_eq (bs : List Byte) :
    scriptLdBytes bs = wordWrites 0x20000000 0 (byteListWords bs) ++ [.write 0x1C (BitVec.ofNat 32 bs.length)] := by
  unfold scriptLdBytes wordWrites
  congr 1
  apply List.ext_getElem <;> simp [byteListWords, byteAddr]

/-- LDBYTES's accesses: the words, then IN_BYTE_LEN. -/
theorem run_scriptLdBytes {s : State} {bs : List Byte} {rest : List HostOp} (hw : s.caps.wf) (hp : s.phase = .idle)
    (hlen : bs.length ≤ s.caps.inByte) :
    Host.Core.run core (scriptLdBytes bs).length { s with bus := scriptLdBytes bs ++ rest } =
      .next { s.storeWords 0x20000000 s.caps.inByte (byteListWords bs) with
        inByteLen := BitVec.ofNat 32 bs.length, bus := rest } := by
  have hlength : (scriptLdBytes bs).length = (byteListWords bs).length + 1 := by simp [scriptLdBytes, byteListWords]
  rw [hlength]
  have hrun := run_wordWrites_then (s := { s with bus := scriptLdBytes bs ++ rest }) (ys := byteListWords bs)
    (storesWords_inBytes hw) rfl hp (by rw [byteListWords_length]; omega)
    (by rw [scriptLdBytes_eq, List.append_assoc]; rfl)
  exact hrun.trans (congrArg Host.Outcome.next (busWrite_inByteLen _ hp))

/-- A stored word reads back (R62). -/
theorem ramWord_storeWords (s : State) {base cap : Nat} {ys : List Word} {i : Nat} {v : Word} (hv : ys[i]? = some v)
    (hcap : 4 * i + 4 ≤ cap) : ((s.storeWords base cap ys).ramWord (base + 4 * i)).toNat = v.toNat := by
  have byte : ∀ j (hj : j < 4), _ := fun j hj => ramByte_storeWords (base := base) s hv hj (by omega : 4 * i + j < cap)
  have hbytes : [(s.storeWords base cap ys).ramByte (base + 4 * i), (s.storeWords base cap ys).ramByte (base + 4 * i + 1),
      (s.storeWords base cap ys).ramByte (base + 4 * i + 2), (s.storeWords base cap ys).ramByte (base + 4 * i + 3)] =
      be32 v.toNat := by
    rw [be32]
    exact congr (congrArg List.cons (Option.some.inj (byte 0 (by omega))))
      (congr (congrArg List.cons (Option.some.inj (byte 1 (by omega))))
      (congr (congrArg List.cons (Option.some.inj (byte 2 (by omega))))
      (congrArg (· :: []) (Option.some.inj (byte 3 (by omega))))))
  rw [ramWord_toNat, hbytes, beVal_be32 v.isLt]

/-- A byte of LDBYTES's words is the list's. -/
theorem be32_byteListWord (bs : List Byte) (i : Nat) {j : Nat} (hj : j < 4) :
    (be32 (byteListWord bs i).toNat)[j]? = some (bs.getD (4 * i + j) 0) := by
  rw [byteListWord, toNat_ofNat_of_lt (beVal_four_lt ..), be32_beVal]
  match j, hj with
  | 0, _ => rfl
  | 1, _ => rfl
  | 2, _ => rfl
  | 3, _ => rfl

/-- Settles O60: the script's words stored and its length register written; a number reads back as its word, a byte as byte
`k % 4` of word `k / 4`. -/
theorem loadScriptsFillTheInputs : Obligations.LoadScriptsFillTheInputs := by
  constructor
  · intro s xs rest hw hp hlen
    refine ⟨_, run_scriptLdSym hw hp hlen, ?_, rfl, hp, rfl, fun a ha => ramByte_storeWords_outside s ha⟩
    have hlt : xs.length < 2 ^ 32 := by
      obtain ⟨⟨-, hcap⟩, -⟩ := hw
      omega
    refine List.ext_getElem ?_ fun i hi hi' => ?_
    · rw [State.inSyms, List.length_map, List.length_range, List.length_map]
      exact toNat_ofNat_of_lt hlt
    · rw [List.length_map] at hi'
      simp only [State.inSyms, List.getElem_map, List.getElem_range]
      exact ramWord_storeWords s (List.getElem?_eq_getElem hi') (by omega)
  · intro s bs rest hw hp hlen
    refine ⟨_, run_scriptLdBytes hw hp hlen, ?_, rfl, hp, rfl, fun a ha =>
      ramByte_storeWords_outside s (by rw [byteListWords_length]; exact ha)⟩
    have hlt : bs.length < 2 ^ 32 := by
      obtain ⟨-, ⟨-, hcap⟩, -⟩ := hw
      omega
    refine List.ext_getElem ?_ fun k hk hk' => ?_
    · rw [State.inBytes, List.length_map, List.length_range]
      exact toNat_ofNat_of_lt hlt
    · have hword : (byteListWords bs)[k / 4]? = some (byteListWord bs (k / 4)) := by
        rw [byteListWords, List.getElem?_map, List.getElem?_range (by omega)]
        rfl
      have hbyte := ramByte_storeWords (base := 0x20000000) (cap := s.caps.inByte) (j := k % 4) s hword (by omega) (by omega)
      rw [be32_byteListWord bs _ (by omega), Nat.div_add_mod, List.getD_eq_getElem _ _ hk'] at hbyte
      simp only [State.inBytes, List.getElem_map, List.getElem_range]
      exact Option.some.inj hbyte

end Sys2Proof.Machine
